-- ==== Sys2Proof/Word.lean ====
section
/-! DEFINITION. The word types of the block (R9, R10 of 00_scope.md): a register of width N holds a
value in {0, ..., 2^N - 1}, bit 0 least significant, nothing is signed. -/

namespace Sys2Proof

/-- One byte: a byte of a bitset (R63), of an output buffer (R34), or a unit operation code (R93). -/
abbrev Byte := BitVec 8

/-- A 64-bit unsigned register value (R7: value width 64 bits unsigned). -/
abbrev Word := BitVec 64

end Sys2Proof
end

