-- ==== Sys2Proof/Config.lean ====
section
/-! DEFINITION. What an implementation fixes (the open parameters of R8, 00_scope.md) and the free
values: results the spec leaves unstated, each an opaque constant that nothing in Lean can evaluate. -/

namespace Sys2Proof

/-- The open parameters of R8 but `NW` (the number of workers is the length of `State.workers`).
They are plain data held in the state, so that every statement about every state quantifies over
them; no step writes them (notes/assumptions/2). -/
structure Params where
  /-- `Q_CAP` (D20): `none` is the spec's default, no cap. -/
  qCap           : Option Nat
  /-- `SPT_CAP_BITS` (D19). -/
  sptCapBits     : Nat
  /-- `SEG_CAP_BITS` (D19). -/
  segCapBits     : Nat
  /-- `STEP_SCALE_EXP` (D11) as a step function of `stop`: pairs (threshold, exponent); the last pair
  whose threshold is at most `stop` gives the exponent, and it is 0 below every threshold. -/
  scaleTable     : List (Nat × Nat)
  /-- `FLUSH_THRESHOLD` (D17): not observable, no rule depends on it (R232). -/
  flushThreshold : Nat
  /-- `HOST_BASE` (D2): the platform's, no rule depends on it (R8). -/
  hostBase       : Word
deriving DecidableEq, Repr

/-- The default parameters: no oracle cap (D20), one doubling per decade from 10^13 (R244, D11), and
capacities that just hold every job at the default width (DESIGN CHOICE, notes/assumptions/2). -/
def Params.default : Params where
  qCap           := none
  sptCapBits     := 1431655767
  segCapBits     := 413853441
  scaleTable     := [(10^13, 1), (10^14, 2), (10^15, 3), (10^16, 4), (10^17, 5), (10^18, 6), (10^19, 7)]
  flushThreshold := 1
  hostBase       := 0

/-- The number of workers at reset: DESIGN CHOICE, the value of the spec's own example programs
(95_test_vectors.md section 8); the spec leaves `NW` open (D13). -/
def Config.resetWorkers : Nat := 2

/-- The places where the spec gives an operation its effect but states no result for some operands. -/
inductive OpenSite where
  /-- `WC.DEC 0`: index 0 is not a wheel index (R141, R143). -/
  | decodeIndexZero
  /-- `SEG.SETUP` with a segment number past the last, or with `D < 1` (R191, R193). -/
  | msegOutside
  /-- `SEG.SETUP` whose `high` is negative (R191, R161). -/
  | rootOfNegative
  /-- `SCH.CONFIG` whose `STEP_SIZE` came out 0 (R246, R273). -/
  | segmentsByZero
  /-- `SCH.JOIN` with the reserved mode 3 latched (R270). -/
  | joinReservedMode
deriving DecidableEq, Repr

/-- Free value: the content of a `w`-bit register after a result `v` that the register cannot hold.
R9 and R160 say that no legal job produces one and state no result. -/
opaque Config.unrepresentable (w : Nat) (v : Int) : BitVec w

/-- Free value: the result at a place of `OpenSite`, as a function of the operand it depends on. -/
opaque Config.unstated (site : OpenSite) (v : Int) : Word

/-- Free value: which agent moves at the `n`-th freely scheduled step (R15, U11). -/
opaque Config.schedule (n : Nat) : Nat

/-- Free value: how stale the `n`-th read of the host registers is, where R48 and U8 let it be. -/
opaque Config.stale (n : Nat) : Nat

end Sys2Proof
end

