-- ==== Sys2Proof/Syntax.lean ====
section
/-! DEFINITION. The operations of the block, one constructor per row of spec/opcode_table.json, with the
operands of R95 (30_encoding.md), and the three command formats of R90 in which they arrive. -/

namespace Sys2Proof

/-- A DenseBitset memory (R33), written `SPT`, `PST`, `SB[w]` (R100). -/
inductive BitsetId where
  | spt
  | pst
  | sb (w : Nat)
deriving DecidableEq, Repr

/-- A marker register set (R21), written `CM` (controller) or `M[w]` (R100). -/
inductive MarkerId where
  | cm
  | m (w : Nat)
deriving DecidableEq, Repr

/-- What `WC.DEC` decodes relative to (R143): an absolute index, `n_off = 0`, or a local position of
worker `w`'s segment, `n_off = W[w].N_OFF`. -/
inductive IndexBase where
  | absolute
  | segment (w : Nat)
deriving DecidableEq, Repr

/-- The operations. Unit operations first (format U), then the host commands (formats R and H). -/
inductive Instr where
  | bsFill (X : BitsetId) (n : Word)
  | bsGet (X : BitsetId) (p : Word)
  | bsSet (X : BitsetId) (p : Word)
  | bsClr (X : BitsetId) (p : Word)
  | bsPopcnt (X : BitsetId)
  | bsCopy (Xdst : BitsetId) (Xsrc : BitsetId)
  | bsPutb (X : BitsetId) (b : Word) (v : Byte)
  | bsClrr (X : BitsetId) (lo : Word) (hi : Word)
  | wcDec (base : IndexBase) (i : Word)
  | wcEnc (n : Word)
  | wmInit (M : MarkerId)
  | wmNext (M : MarkerId)
  | wmSeek (M : MarkerId) (joff : Word)
  | wmStep (M : MarkerId)
  | wmMark (M : MarkerId) (X : BitsetId) (joff : Word) (mx : Word)
  | wmLoad (w : Nat)
  | orcBuild
  | tplBuild
  | orcTest (i : Word)
  | segSetup (w : Nat)
  | segCopy (w : Nat)
  | segClip (w : Nat)
  | segSieve (w : Nat)
  | aggCount (w : Nat)
  | aggSum (w : Nat)
  | aggPrint (w : Nat)
  | fmtDec (w : Nat) (v : Word)
  | schCheck
  | schConfig
  | schDispatch (w : Nat)
  | schReduce (w : Nat)
  | gateWait (w : Nat)
  | gateEmit (w : Nat)
  | gatePass (w : Nat)
  | schJoin
  | schFail (w : Nat)
  | hostRd (off : BitVec 7)
  | hostWr (off : BitVec 7) (data : Word)
  | sieveCount
  | sieveSum
  | sievePrint
  | sieveRsvd
  | ctrlMode (mode : BitVec 2)
deriving DecidableEq, Repr

/-- The operand wires of the unit level. R93: operands are not encoded in the operation code; the issuing
agent selects the register set and the bitset and drives the values. One wire per operand name of R95.
The values given here are what an idle issuer drives, each inside its rule's domain
(DESIGN CHOICE, notes/assumptions/4). -/
structure Wires where
  /-- bitset `X`, or `Xdst` -/
  x      : BitsetId  := .spt
  /-- bitset `Xsrc` -/
  xsrc   : BitsetId  := .pst
  /-- marker set -/
  marker : MarkerId  := .cm
  /-- what `WC.DEC` decodes relative to -/
  base   : IndexBase := .absolute
  /-- worker `w` -/
  w      : Nat       := 0
  /-- length `n` of `BS.FILL` -/
  len    : Word      := 1
  /-- position `p` -/
  p      : Word      := 0
  /-- byte index `b` of `BS.PUTB` -/
  b      : Word      := 0
  /-- byte value `v` of `BS.PUTB` -/
  v      : Byte      := 0
  /-- `lo` of `BS.CLRR` -/
  lo     : Word      := 0
  /-- `hi` of `BS.CLRR` -/
  hi     : Word      := 0
  /-- index `i` of `WC.DEC`, `ORC.TEST` -/
  i      : Word      := 1
  /-- integer `n` of `WC.ENC` -/
  n      : Word      := 0
  /-- offset `joff` of `WM.SEEK`, `WM.MARK` -/
  joff   : Word      := 0
  /-- largest local position `Mx` of `WM.MARK` -/
  mx     : Word      := 0
  /-- the integer `v` of `FMT.DEC` -/
  dec    : Word      := 2
deriving DecidableEq, Repr

/-- A command as it arrives, in one of the formats of R90: a unit operation code with the issuer's
operand wires (U, R93), a value written to `CTRL` (H, R92), or a register access (R, R91) packed as
`dir` in bit 0, `off` in bits 7..1, `data` in bits 71..8 (notes/assumptions/5). -/
inductive Command where
  | unit (code : Byte) (wires : Wires)
  | ctrl (data : Word)
  | reg (access : BitVec 72)
deriving DecidableEq, Repr

end Sys2Proof
end

