-- ==== Sys2Proof/WellFormed.lean ====
section
/-! DEFINITION. Which operations are well formed, as far as the operation alone says: the operand domains
that do not depend on the state. -/

namespace Sys2Proof

/-- The eleven register offsets of R40 (10_state.md): multiples of 8 in 0x00 ... 0x50. -/
def offsetOk (off : BitVec 7) : Bool :=
  decide (off.toNat % 8 = 0) && decide (off.toNat ≤ 0x50)

/-- `BS.FILL` needs `1 ≤ n` (R121), `WC.DEC` and `ORC.TEST` need `1 ≤ i` (R143, R173), a register access
needs one of the eleven offsets (R40, R99). Every other operand admits every value of its width. -/
def Instr.wellFormed : Instr → Bool
  | .bsFill _ n     => decide (n ≠ 0)
  | .wcDec _ i      => decide (i ≠ 0)
  | .orcTest i      => decide (i ≠ 0)
  | .hostRd off     => offsetOk off
  | .hostWr off _   => offsetOk off
  | .bsGet _ _      => true
  | .bsSet _ _      => true
  | .bsClr _ _      => true
  | .bsPopcnt _     => true
  | .bsCopy _ _     => true
  | .bsPutb _ _ _   => true
  | .bsClrr _ _ _   => true
  | .wcEnc _        => true
  | .wmInit _       => true
  | .wmNext _       => true
  | .wmSeek _ _     => true
  | .wmStep _       => true
  | .wmMark _ _ _ _ => true
  | .wmLoad _       => true
  | .orcBuild       => true
  | .tplBuild       => true
  | .segSetup _     => true
  | .segCopy _      => true
  | .segClip _      => true
  | .segSieve _     => true
  | .aggCount _     => true
  | .aggSum _       => true
  | .aggPrint _     => true
  | .fmtDec _ _     => true
  | .schCheck       => true
  | .schConfig      => true
  | .schDispatch _  => true
  | .schReduce _    => true
  | .gateWait _     => true
  | .gateEmit _     => true
  | .gatePass _     => true
  | .schJoin        => true
  | .schFail _      => true
  | .sieveCount     => true
  | .sieveSum       => true
  | .sievePrint     => true
  | .sieveRsvd      => true
  | .ctrlMode _     => true

end Sys2Proof
end

