-- ==== Sys2Proof/Decode.lean ====
section
/-! DEFINITION. Decoding and encoding of the three formats (R90 to R99, 30_encoding.md). Format `U` selects by
its 8-bit code; format `H` by mask 7 over the value written to `CTRL`; format `R` by its `dir` bit. -/

namespace Sys2Proof

/-- Why a command is not decoded. -/
inductive DecodeError where
  /-- A unit operation code that R95 does not list (R98, U5). -/
  | unassignedCode (code : Byte)
  /-- A byte string that is no command of any format: 1 byte (U), 8 bytes (H) or 9 bytes (R). -/
  | noSuchFormat (bytes : Nat)
deriving DecidableEq, Repr

/-- Format `U` (R93, R95): the operation of a code, its operands taken from the issuer's wires. -/
def decodeUnit (code : Byte) (k : Wires) : Except DecodeError Instr :=
  match code.toNat with
  | 0x10 => .ok (.bsFill k.x k.len)
  | 0x11 => .ok (.bsGet k.x k.p)
  | 0x12 => .ok (.bsSet k.x k.p)
  | 0x13 => .ok (.bsClr k.x k.p)
  | 0x14 => .ok (.bsPopcnt k.x)
  | 0x15 => .ok (.bsCopy k.x k.xsrc)
  | 0x16 => .ok (.bsPutb k.x k.b k.v)
  | 0x17 => .ok (.bsClrr k.x k.lo k.hi)
  | 0x20 => .ok (.wcDec k.base k.i)
  | 0x21 => .ok (.wcEnc k.n)
  | 0x30 => .ok (.wmInit k.marker)
  | 0x31 => .ok (.wmNext k.marker)
  | 0x32 => .ok (.wmSeek k.marker k.joff)
  | 0x33 => .ok (.wmStep k.marker)
  | 0x34 => .ok (.wmMark k.marker k.x k.joff k.mx)
  | 0x35 => .ok (.wmLoad k.w)
  | 0x40 => .ok .orcBuild
  | 0x41 => .ok .tplBuild
  | 0x42 => .ok (.orcTest k.i)
  | 0x50 => .ok (.segSetup k.w)
  | 0x51 => .ok (.segCopy k.w)
  | 0x52 => .ok (.segClip k.w)
  | 0x53 => .ok (.segSieve k.w)
  | 0x60 => .ok (.aggCount k.w)
  | 0x61 => .ok (.aggSum k.w)
  | 0x62 => .ok (.aggPrint k.w)
  | 0x63 => .ok (.fmtDec k.w k.dec)
  | 0x70 => .ok .schCheck
  | 0x71 => .ok .schConfig
  | 0x72 => .ok (.schDispatch k.w)
  | 0x73 => .ok (.schReduce k.w)
  | 0x74 => .ok (.gateWait k.w)
  | 0x75 => .ok (.gateEmit k.w)
  | 0x76 => .ok (.gatePass k.w)
  | 0x77 => .ok .schJoin
  | 0x78 => .ok (.schFail k.w)
  | _    => .error (.unassignedCode code)

/-- The `GO` bit of a value written to `CTRL` (R43, R92). -/
def ctrlGo (data : Word) : Bool := data.getLsbD 0

/-- The `MODE` field, bits 2..1, of a value written to `CTRL` (R43, R92). -/
def ctrlModeField (data : Word) : BitVec 2 := data.extractLsb' 1 2

/-- Format `H` (R92): bits 63..3 are ignored. -/
def decodeCtrl (data : Word) : Instr :=
  if ctrlGo data then
    match (ctrlModeField data).toNat with
    | 0 => .sieveCount
    | 1 => .sieveSum
    | 2 => .sievePrint
    | _ => .sieveRsvd
  else .ctrlMode (ctrlModeField data)

/-- Format `R` (R91): `dir` 0 reads, 1 writes; a read carries no data. Offsets outside the interface
decode, and are refused when the access is made (R99, U9). -/
def decodeReg (access : BitVec 72) : Instr :=
  if access.getLsbD 0 then .hostWr (access.extractLsb' 1 7) (access.extractLsb' 8 64)
  else .hostRd (access.extractLsb' 1 7)

/-- The operation a command stands for. -/
def decode : Command → Except DecodeError Instr
  | .unit code wires => decodeUnit code wires
  | .ctrl data       => .ok (decodeCtrl data)
  | .reg access      => .ok (decodeReg access)

/-- The number whose bytes, lowest first, are the list (little-endian byte lanes, D2). -/
def natOfBytes : List Byte → Nat
  | []      => 0
  | b :: bs => b.toNat + 256 * natOfBytes bs

/-- The `k` lowest bytes of `w`, lowest first. -/
def bytesOfNat : Nat → Nat → List Byte
  | 0,     _ => []
  | k + 1, w => BitVec.ofNat 8 w :: bytesOfNat k (w / 256)

/-- The command a byte string holds: one byte is a unit code with the wires at rest, eight bytes a `CTRL`
value, nine bytes a register access. -/
def commandOfBytes (bs : List Byte) : Except DecodeError Command :=
  match bs.length with
  | 1 => .ok (.unit (BitVec.ofNat 8 (natOfBytes bs)) {})
  | 8 => .ok (.ctrl (BitVec.ofNat 64 (natOfBytes bs)))
  | 9 => .ok (.reg (BitVec.ofNat 72 (natOfBytes bs)))
  | n => .error (.noSuchFormat n)

/-- Decoding of any byte string, total: it refuses by name. -/
def decodeBytes (bs : List Byte) : Except DecodeError Instr :=
  match commandOfBytes bs with
  | .ok c    => decode c
  | .error e => .error e

/-- A table word of `nbits` bits, numbered as spec/opcode_table.json numbers them, laid out as bytes. -/
def tableBytes (nbits w : Nat) : List Byte := bytesOfNat (nbits / 8) w

/-- The instruction the decoder reads from the table word `w` of `nbits` bits. -/
def decodeTableWord (nbits w : Nat) : Option Instr :=
  match decodeBytes (tableBytes nbits w) with
  | .ok i    => some i
  | .error _ => none

/-- The command of a unit operation with the given code. -/
def unitCommand (code : Nat) (wires : Wires) : Command := .unit (BitVec.ofNat 8 code) wires

/-- The value written to `CTRL` for `GO` and `MODE`, reserved bits 0 (R92). -/
def ctrlValue (go : Bool) (mode : BitVec 2) : Word :=
  BitVec.ofNat 64 (go.toNat + 2 * mode.toNat)

/-- A register access packed as in `Command.reg` (R91). -/
def regAccess (dir : Bool) (off : BitVec 7) (data : Word) : BitVec 72 :=
  BitVec.ofNat 72 (dir.toNat + 2 * off.toNat + 256 * data.toNat)

/-- The command that stands for an operation, from the same tables (R91, R92, R95). -/
def encode : Instr → Command
  | .bsFill X n          => unitCommand 0x10 { x := X, len := n }
  | .bsGet X p           => unitCommand 0x11 { x := X, p := p }
  | .bsSet X p           => unitCommand 0x12 { x := X, p := p }
  | .bsClr X p           => unitCommand 0x13 { x := X, p := p }
  | .bsPopcnt X          => unitCommand 0x14 { x := X }
  | .bsCopy Xdst Xsrc    => unitCommand 0x15 { x := Xdst, xsrc := Xsrc }
  | .bsPutb X b v        => unitCommand 0x16 { x := X, b := b, v := v }
  | .bsClrr X lo hi      => unitCommand 0x17 { x := X, lo := lo, hi := hi }
  | .wcDec base i        => unitCommand 0x20 { base := base, i := i }
  | .wcEnc n             => unitCommand 0x21 { n := n }
  | .wmInit M            => unitCommand 0x30 { marker := M }
  | .wmNext M            => unitCommand 0x31 { marker := M }
  | .wmSeek M joff       => unitCommand 0x32 { marker := M, joff := joff }
  | .wmStep M            => unitCommand 0x33 { marker := M }
  | .wmMark M X joff mx  => unitCommand 0x34 { marker := M, x := X, joff := joff, mx := mx }
  | .wmLoad w            => unitCommand 0x35 { w := w }
  | .orcBuild            => unitCommand 0x40 {}
  | .tplBuild            => unitCommand 0x41 {}
  | .orcTest i           => unitCommand 0x42 { i := i }
  | .segSetup w          => unitCommand 0x50 { w := w }
  | .segCopy w           => unitCommand 0x51 { w := w }
  | .segClip w           => unitCommand 0x52 { w := w }
  | .segSieve w          => unitCommand 0x53 { w := w }
  | .aggCount w          => unitCommand 0x60 { w := w }
  | .aggSum w            => unitCommand 0x61 { w := w }
  | .aggPrint w          => unitCommand 0x62 { w := w }
  | .fmtDec w v          => unitCommand 0x63 { w := w, dec := v }
  | .schCheck            => unitCommand 0x70 {}
  | .schConfig           => unitCommand 0x71 {}
  | .schDispatch w       => unitCommand 0x72 { w := w }
  | .schReduce w         => unitCommand 0x73 { w := w }
  | .gateWait w          => unitCommand 0x74 { w := w }
  | .gateEmit w          => unitCommand 0x75 { w := w }
  | .gatePass w          => unitCommand 0x76 { w := w }
  | .schJoin             => unitCommand 0x77 {}
  | .schFail w           => unitCommand 0x78 { w := w }
  | .hostRd off          => .reg (regAccess false off 0)
  | .hostWr off data     => .reg (regAccess true off data)
  | .sieveCount          => .ctrl (ctrlValue true 0)
  | .sieveSum            => .ctrl (ctrlValue true 1)
  | .sievePrint          => .ctrl (ctrlValue true 2)
  | .sieveRsvd           => .ctrl (ctrlValue true 3)
  | .ctrlMode mode       => .ctrl (ctrlValue false mode)

end Sys2Proof
end

