-- ==== Sys2Proof/Machine/State.lean ====
section
/-! DEFINITION. The state of the block as plain data (10_state.md), the reasons a step can stop, and the
state after reset (R56). INVENTORY.md lists every field with its rule. -/

namespace Sys2Proof.Machine

/-- Why the machine is stuck. -/
inductive Fault where
  /-- Raised by `WM.MARK`, `ORC.BUILD`, `TPL.BUILD` and `SEG.SIEVE` where the loop of their rule never ends: only from
  register values outside the rules' domain (R153: every turn adds at least 3 to `MJ`). Safe: the
  hardware would loop for ever (notes/assumptions/17). -/
  | loopNeverEnds
deriving DecidableEq, Repr

/-- Why the machine gives a command no meaning (notes/assumptions/12). -/
inductive Refusal where
  /-- Raised by `exec` for an operation that has no meaning yet. Safe. -/
  | notModelled (mnemonic : String)
  /-- Raised by decoding: a code R95 does not list (R98, U5 prescribe `refuse`). Safe. -/
  | unassignedCode (code : Byte)
  /-- Raised by decoding a byte string that is no command of any format. Safe. -/
  | noSuchFormat (bytes : Nat)
  /-- Raised by `HOST.RD`, `HOST.WR` at an offset that is not one of the eleven (R99, U9 prescribe
  `refuse`). Safe. -/
  | outsideInterface (off : BitVec 7)
  /-- Raised by an access to a bit or byte that a bitset does not have (R62, U4 prescribe `refuse`). Safe. -/
  | outsideBitset
  /-- Raised by `BS.FILL`, `BS.COPY` for a length outside 1 ... capacity (R121, R125). Safe. -/
  | lengthOutsideCapacity
  /-- Raised by an operation of a worker that the block does not have: `w ≥ NW` (R333). Safe. -/
  | noSuchWorker (w : Nat)
deriving DecidableEq, Repr

/-- Bytes of one bitset memory: (byte index, byte) pairs, indices strictly rising, no zero byte listed; an
unlisted byte reads 0 (DESIGN CHOICE, notes/assumptions/16). -/
abbrev Memory := List Host.Cell

/-- A DenseBitset memory (R33, R61): its length register and its cells, position `p` at bit `p mod 8` of
byte `p div 8` (R63). -/
structure Bitset where
  n   : Word
  mem : Memory
deriving DecidableEq, Repr

/-- A marker register set (R21). -/
structure Marker where
  /-- `MI` -/
  i  : BitVec 32
  /-- `MC` -/
  c  : Word
  /-- `MK` -/
  k  : BitVec 2
  /-- `MT` -/
  t  : Word
  /-- `MJ` -/
  j  : Word
  /-- `MIJ` -/
  ij : Word
deriving DecidableEq, Repr

/-- The controller's phases (R30). -/
inductive Phase where
  | idle | check | config | oracle | template | parallel | join | done | failed
deriving DecidableEq, Repr

/-- A worker's phases (R31). -/
inductive WPhase where
  | idle | setup | copy | clip | sieve | agg | reduce | gate | emit | pass | retire
deriving DecidableEq, Repr

/-- A worker: its phase (R31), segment registers (R22), marker set (R21), bitset (R33), output buffer (R34). -/
structure Worker where
  wphase : WPhase
  segN   : Word
  low    : Word
  high   : Word
  jOff   : Word
  nOff   : Word
  mseg   : Word
  q      : BitVec 32
  lacc   : Word
  m      : Marker
  sb     : Bitset
  obuf   : List Byte
deriving DecidableEq, Repr

/-- The environment's answer to one `SinkWrite` (R262; DESIGN CHOICE, notes/assumptions/10). -/
inductive SinkAnswer where
  | ok | fail
deriving DecidableEq, Repr

/-- Whose turn it is: the controller's sequencer, a hand-out to worker `w`, or worker `w`'s sequencer (R14; DESIGN
CHOICE, notes/assumptions/9). -/
inductive Turn where
  | controller
  | dispatch (w : Nat)
  | worker (w : Nat)
deriving DecidableEq, Repr

/-- What the outside presents next: a command, the external reset (R340), or the choice of the agent that
moves (R15). -/
inductive Event where
  | command (c : Command)
  | reset
  | turn (t : Turn)
deriving DecidableEq, Repr

/-- The complete state (R20), with the parameters and the environment's part. -/
structure State where
  /-- the open parameters (R8), never written -/
  params       : Params
  /-- host register `START` (R41) -/
  start        : Word
  /-- host register `STOP` (R42) -/
  stop         : Word
  /-- field `MODE` of host register `CTRL` (R43) -/
  mode         : BitVec 2
  /-- host register `STEP_CFG` (R44) -/
  stepCfg      : Word
  /-- `BUSY` (R29, R45) -/
  busy         : Bool
  /-- `DONE` (R29, R45) -/
  done         : Bool
  /-- `ERR` (R29, R45) -/
  err          : Bool
  /-- `ERRCODE` (R29, R301) -/
  errcode      : BitVec 3
  /-- host register `RESULT` (R46) -/
  result       : Word
  /-- `START_ADJ` (R24, R47) -/
  startAdj     : Word
  /-- `STEP_SIZE` (R24, R47) -/
  stepSize     : Word
  /-- `NUM_SEGMENTS` (R24, R47) -/
  numSegments  : Word
  /-- `NSEED` (R24) -/
  nseed        : BitVec 3
  /-- `MTPL` (R24) -/
  mtpl         : Word
  /-- `QTAB` (R24) -/
  qtab         : BitVec 32
  /-- resume register `RI` (R25) -/
  ri           : BitVec 32
  /-- resume register `RC` (R25) -/
  rc           : Word
  /-- resume register `RK` (R25) -/
  rk           : BitVec 2
  /-- resume register `RT` (R25) -/
  rt           : Word
  /-- latch `J_START` (R26) -/
  jStart       : Word
  /-- latch `J_STOP` (R26) -/
  jStop        : Word
  /-- latch `J_MODE` (R26) -/
  jMode        : BitVec 2
  /-- `ACC` (R27) -/
  acc          : Word
  /-- `RETIRED` (R27) -/
  retired      : Word
  /-- `NEXT_DISPATCH` (R27, R48) -/
  nextDispatch : Word
  /-- `NEXT_TICKET` (R28, R48) -/
  nextTicket   : Word
  /-- `FAIL` (R28) -/
  failFlag     : Bool
  /-- `PHASE` (R30) -/
  phase        : Phase
  /-- the controller's marker set `CM` (R21) -/
  cm           : Marker
  /-- the small-primes table `SPT` (R33) -/
  spt          : Bitset
  /-- the pre-sieve template `PST` (R33) -/
  pst          : Bitset
  /-- the workers `W[0] ... W[NW-1]` (R14, R22, R333) -/
  workers      : List Worker
  /-- MODEL'S OWN: the values after `->` of the last unit operation that returns some (R95, R100;
  notes/assumptions/13) -/
  ret          : List Word
  /-- MODEL'S OWN: the data returned by the last `HOST.RD` (R91, R282; notes/assumptions/13) -/
  hostData     : Word
  /-- ENVIRONMENT: the bytes the sink has accepted, oldest first (R35) -/
  sink         : List Byte
  /-- ENVIRONMENT: the sink's answers to come (R15, R262); while there is none, an offered byte waits -/
  sinkAnswers  : List SinkAnswer
  /-- ENVIRONMENT: what the outside presents, next first (R14, R15) -/
  events       : List Event
  /-- MODEL'S OWN: how many agent choices were taken from the free schedule (R15, U11) -/
  turns        : Nat
  /-- MODEL'S OWN: how many reads of the host registers there were (R48, U8; notes/assumptions/14) -/
  reads        : Nat
  /-- MODEL'S OWN: `NEXT_TICKET` at the last accepted `GO`, which it keeps until `SCH.CONFIG` (R281; notes/assumptions/14) -/
  goTicket     : Word
  /-- MODEL'S OWN: `NEXT_DISPATCH` at the last accepted `GO` (R281; notes/assumptions/14) -/
  goDispatch   : Word
deriving DecidableEq, Repr

/-- A bitset whose content the spec leaves unspecified at reset: one clear cell, the least length R121 allows,
position 0 reading 0 as R131 has it (DESIGN CHOICE, notes/assumptions/1). -/
def Bitset.reset : Bitset := { n := 1, mem := [] }

/-- A marker set at reset, unspecified in R56: the recurrence's own initial state (R146), walking pair 0
(DESIGN CHOICE, notes/assumptions/1). -/
def Marker.reset : Marker := { i := 1, c := 0, k := 1, t := 2, j := 0, ij := 0 }

/-- A worker at reset (R56): idle, output buffer empty; the rest unspecified there and 0 here, marker set and
bitset as above (DESIGN CHOICE, notes/assumptions/1). -/
def Worker.reset : Worker where
  wphase := .idle
  segN   := 0
  low    := 0
  high   := 0
  jOff   := 0
  nOff   := 0
  mseg   := 0
  q      := 0
  lacc   := 0
  m      := Marker.reset
  sb     := Bitset.reset
  obuf   := []

/-- The state after reset (R56) of a block with parameters `params` and `nw` workers. The elements R56 calls
unspecified hold the values of notes/assumptions/1. -/
def State.resetOf (params : Params) (nw : Nat) : State where
  params       := params
  start        := 0
  stop         := 0
  mode         := 0
  stepCfg      := 0
  busy         := false
  done         := false
  err          := false
  errcode      := 0
  result       := 0
  startAdj     := 0
  stepSize     := 0
  numSegments  := 0
  nseed        := 0
  mtpl         := 0
  qtab         := 0
  ri           := 6
  rc           := 96
  rk           := 2
  rt           := 34
  jStart       := 0
  jStop        := 0
  jMode        := 0
  acc          := 0
  retired      := 0
  nextDispatch := 0
  nextTicket   := 0
  failFlag     := false
  phase        := .idle
  cm           := Marker.reset
  spt          := Bitset.reset
  pst          := Bitset.reset
  workers      := List.replicate nw Worker.reset
  ret          := []
  hostData     := 0
  sink         := []
  sinkAnswers  := []
  events       := []
  turns        := 0
  reads        := 0
  goTicket     := 0
  goDispatch   := 0

/-- The machine right after reset, with the default parameters. -/
def State.reset : State := State.resetOf Params.default Config.resetWorkers

end Sys2Proof.Machine
end

