-- ==== Sys2Proof/Machine/Ops.lean ====
section
/-! DEFINITION. The operations every meaning is built from: outcomes, exact arithmetic and its narrowing,
bitset memories (20_memory.md), the marking recurrence (41_wheel_codec_marker.md), workers, the
decimal formatter, and what `raise` and an accepted `GO` do (60_exceptions.md, 46_host_commands.md). -/

namespace Sys2Proof.Machine

/-! ## Outcomes -/

/-- A computation that gives a value, or stops the machine with a fault or a refusal. -/
abbrev Res (α : Type) := Host.Outcome α Fault Refusal

/-- One computation after another; the first stop is the outcome. -/
def Res.bind {α β : Type} (x : Res α) (f : α → Res β) : Res β :=
  match x with
  | .next a    => f a
  | .fault r   => .fault r
  | .refused r => .refused r

/-! ## Exact arithmetic (R9) -/

/-- The content of a `w`-bit register after the exact result `v` is written to it: `v` where the register can
hold it, a free value where it cannot (R9, R160; notes/assumptions/6). -/
def narrow (w : Nat) (v : Int) : BitVec w :=
  match v with
  | .ofNat n   => if n < 2 ^ w then BitVec.ofNat w n else Config.unrepresentable w v
  | .negSucc _ => Config.unrepresentable w v

/-- The bits of `isqrt x` from bit `k - 1` down, above the partial root `r`. -/
def isqrtFrom : Nat → Nat → Nat → Nat
  | 0,     _, r => r
  | k + 1, x, r => isqrtFrom k x (if (r + 2 ^ k) * (r + 2 ^ k) ≤ x then r + 2 ^ k else r)

/-- `isqrt` (R9, R161): the largest `r` with `r² ≤ x`, for `x < 2^64`. -/
def isqrt (x : Nat) : Nat := isqrtFrom 32 x 0

/-! ## Bitset memories -/

/-- The byte at index `a`: the listed one, else 0. -/
def Memory.read : Memory → Nat → Byte
  | [],          _ => 0
  | (b, v) :: m, a => if b = a then v else Memory.read m a

/-- A listed byte in front of `m`, or `m` itself where the byte is 0. -/
def Memory.cons (a : Nat) (v : Byte) (m : Memory) : Memory :=
  if v = 0 then m else (a, v) :: m

/-- Writes byte `a`, keeping the canonical form. -/
def Memory.write : Memory → Nat → Byte → Memory
  | [],          a, v => Memory.cons a v []
  | (b, u) :: m, a, v =>
    if a < b then Memory.cons a v ((b, u) :: m)
    else if a = b then Memory.cons a v m
    else (b, u) :: Memory.write m a v

/-- The canonical form of a memory: indices strictly rising, no zero byte listed. -/
abbrev Memory.wf (m : Memory) : Prop :=
  m.Pairwise (fun c d => c.1 < d.1) ∧ ∀ c ∈ m, c.2 ≠ 0

/-- How many bytes hold `n` positions: `⌈n/8⌉` (R63). -/
def bytesFor (n : Nat) : Nat := (n + 7) / 8

/-- The bits of byte `b` that are cells of a bitset of `n` positions; the others are pad bits (R64). -/
def cellMask (n b : Nat) : Byte := BitVec.ofNat 8 (2 ^ (min 8 (n - 8 * b)) - 1)

/-- Byte `v` with bit `r` set to `x`. -/
def setBitOf (v : Byte) (r : Nat) (x : Bool) : Byte :=
  if x then v ||| (1#8 <<< r) else v &&& ~~~(1#8 <<< r)

/-- The canonical form of a bitset: its memory's, no byte beyond the last, no pad bit stored (R64). -/
abbrev Bitset.wf (X : Bitset) : Prop :=
  Memory.wf X.mem ∧
  ∀ c ∈ X.mem, c.1 < bytesFor X.n.toNat ∧ c.2 &&& cellMask X.n.toNat c.1 = c.2

/-- `bitp` of R63: the bit at position `p`, 0 at and beyond `X.n`. -/
def Bitset.bit (X : Bitset) (p : Nat) : Bool :=
  decide (p < X.n.toNat) && (Memory.read X.mem (p / 8)).getLsbD (p % 8)

/-- `BitRead(X, p)` (R62); a position the bitset does not have is refused (U4). -/
def Bitset.bitRead (X : Bitset) (p : Nat) : Res Bool :=
  if p < X.n.toNat then .next (X.bit p) else .refused .outsideBitset

/-- `BitWrite(X, p, x)` (R62); a position the bitset does not have is refused (U4). -/
def Bitset.bitWrite (X : Bitset) (p : Nat) (x : Bool) : Res Bitset :=
  if p < X.n.toNat then
    .next { X with mem := Memory.write X.mem (p / 8) (setBitOf (Memory.read X.mem (p / 8)) (p % 8) x) }
  else .refused .outsideBitset

/-- The byte view of R63: byte `b`, pad bits reading 0. -/
def Bitset.byte (X : Bitset) (b : Nat) : Byte :=
  Memory.read X.mem b &&& cellMask X.n.toNat b

/-- `MemWrite(X, b, 1, v)` (R63): bits of `v` on pad positions are dropped; a byte the bitset does not have is
refused (U4). -/
def Bitset.memWrite (X : Bitset) (b : Nat) (v : Byte) : Res Bitset :=
  if b < bytesFor X.n.toNat then
    .next { X with mem := Memory.write X.mem b (v &&& cellMask X.n.toNat b) }
  else .refused .outsideBitset

/-- The bytes `0 ... k-1` of a filled bitset of `n` positions, in front of `m`: every cell 1 but position 0. -/
def fillBytes (n : Nat) : Nat → Memory → Memory
  | 0,     m => m
  | k + 1, m => fillBytes n k (Memory.cons k (cellMask n k &&& (if k = 0 then 0xFE else 0xFF)) m)

/-- The content `BS.FILL` leaves (R121): `n` cells, all set except position 0. -/
def Bitset.filled (n : Word) : Bitset :=
  { n := n, mem := fillBytes n.toNat (bytesFor n.toNat) [] }

/-- `BS.FILL` (R121) on a memory of `cap` cells: `1 ≤ n ≤ cap`. -/
def Bitset.fill (cap : Nat) (n : Nat) : Res Bitset :=
  if 1 ≤ n ∧ n ≤ cap ∧ n < 2 ^ 64 then .next (Bitset.filled (BitVec.ofNat 64 n))
  else .refused .lengthOutsideCapacity

/-- The content `BS.COPY` leaves in its destination (R125): the source's length and cells, pad bits 0 (DEDUCED against
U4, notes/assumptions/11). -/
def Bitset.copied (X : Bitset) : Bitset :=
  { n := X.n,
    mem := X.mem.filterMap fun c =>
      if c.1 < bytesFor X.n.toNat ∧ c.2 &&& cellMask X.n.toNat c.1 ≠ 0
      then some (c.1, c.2 &&& cellMask X.n.toNat c.1) else none }

/-- `BS.COPY` (R125) into a memory of `cap` cells: `Xsrc.n ≤ cap`. -/
def Bitset.copy (cap : Nat) (X : Bitset) : Res Bitset :=
  if X.n.toNat ≤ cap then .next X.copied else .refused .lengthOutsideCapacity

/-- `pc8` of R127: the number of 1 bits of a byte. -/
def popcount8 (v : Byte) : Nat :=
  (v.getLsbD 0).toNat + (v.getLsbD 1).toNat + (v.getLsbD 2).toNat + (v.getLsbD 3).toNat +
  (v.getLsbD 4).toNat + (v.getLsbD 5).toNat + (v.getLsbD 6).toNat + (v.getLsbD 7).toNat

/-- The 1 bits among the cells of the listed bytes, added to `c`. -/
def popcountFrom (n : Nat) : Memory → Nat → Nat
  | [],           c => c
  | (b, v) :: m, c => popcountFrom n m (c + popcount8 (v &&& cellMask n b))

/-- The population count in its byte form (R127); pad bits are never counted. -/
def Bitset.popcount (X : Bitset) : Nat := popcountFrom X.n.toNat X.mem 0

/-- `BS.CLR` at `lo`, `lo + 1`, ..., `k` positions in all (R128). -/
def Bitset.clearFrom : Nat → Bitset → Nat → Res Bitset
  | 0,     X, _  => .next X
  | k + 1, X, lo => (X.bitWrite lo false).bind fun X' => Bitset.clearFrom k X' (lo + 1)

/-- `BS.CLRR X, lo, hi` (R128): nothing happens if `lo > hi`. -/
def Bitset.clearRange (X : Bitset) (lo hi : Nat) : Res Bitset :=
  Bitset.clearFrom (hi + 1 - lo) X lo

/-! ## The wheel (R140 to R144) -/

/-- `val(i)` (R141): the integer of wheel index `i ≥ 1`. -/
def wheelVal (i : Nat) : Nat := 3 * i + 1 + i % 2

/-- What `WC.DEC` gives (R143): `n_off + 3i + 1 + (i mod 2)`; index 0 is no wheel index, its result is free. -/
def wheelDecode (nOff : Word) (i : Nat) : Word :=
  if i = 0 then Config.unstated .decodeIndexZero nOff.toNat
  else narrow 64 (nOff.toNat + wheelVal i)

/-- What `WC.ENC` gives (R144): `n div 3`. -/
def wheelEncode (n : Nat) : Nat := n / 3

/-! ## The marking recurrence (R145 to R154) -/

/-- `WM.INIT` (R146): `MJ`, `MIJ` unchanged. -/
def Marker.init (m : Marker) : Marker := { m with i := 1, c := 0, k := 1, t := 2 }

/-- `WM.NEXT` (R147), every right-hand `k` being the new one. -/
def Marker.advance (m : Marker) : Marker :=
  let i := m.i.toNat
  let k := 3 - m.k.toNat
  let c := narrow 64 (m.c.toNat + 4 * k * i)
  { i  := narrow 32 (i + 1)
    c  := c
    k  := BitVec.ofNat 2 k
    t  := narrow 64 (m.t.toNat + 4 * k)
    j  := c
    ij := narrow 64 (2 * i * (3 - k) + 1) }

/-- `WM.STEP` (R149): `j += ij`; `ij` and `t - ij` swap. -/
def Marker.stride (m : Marker) : Marker :=
  { m with j  := narrow 64 (m.j.toNat + m.ij.toNat)
           ij := narrow 64 ((m.t.toNat : Int) - m.ij.toNat) }

/-- The first jump of `WM.SEEK` (R151), taken when `MJ < joff`. With `MT = 0` the quotient does not matter: it is
multiplied by 0 (DESIGN CHOICE, notes/assumptions/25). -/
def Marker.jump (m : Marker) (joff : Nat) : Marker :=
  { m with j  := narrow 64 (m.j.toNat + ((joff - m.j.toNat) / m.t.toNat) * m.t.toNat + m.ij.toNat)
           ij := narrow 64 ((m.t.toNat : Int) - m.ij.toNat) }

/-- `WM.SEEK` (R151): at most two jumps. -/
def Marker.seek (m : Marker) (joff : Nat) : Marker :=
  if m.j.toNat < joff then
    let m1 := m.jump joff
    if m1.j.toNat < joff then m1.stride else m1
  else m

/-- `WM.LOAD` (R154): `MJ`, `MIJ` unchanged. -/
def Marker.load (m : Marker) (ri : BitVec 32) (rc : Word) (rk : BitVec 2) (rt : Word) : Marker :=
  { m with i := ri, c := rc, k := rk, t := rt }

/-- A bound on the turns of a marking loop: one more than the pair `(MJ, MIJ)` has values, so that a loop that
has not ended by then repeats a pair and never ends. -/
def markTurns : Nat := 2 ^ 128 + 1

/-- The loop of `WM.MARK` (R153): while `MJ - joff ≤ mx`, clear and stride. A `MJ` below `joff` names no position
(U4). A turn that leaves the registers as they were repeats for ever (DEDUCED, notes/assumptions/17). -/
def Marker.markLoop : Nat → Marker → Bitset → Nat → Nat → Res (Marker × Bitset)
  | 0,     _, _, _,    _  => .fault .loopNeverEnds
  | k + 1, m, X, joff, mx =>
    if m.j.toNat < joff then .refused .outsideBitset
    else if m.j.toNat - joff ≤ mx then
      (X.bitWrite (m.j.toNat - joff) false).bind fun X' =>
        if m.stride = m then .fault .loopNeverEnds
        else Marker.markLoop k m.stride X' joff mx
    else .next (m, X)

/-- `WM.MARK` (R153). -/
def Marker.mark (m : Marker) (X : Bitset) (joff mx : Nat) : Res (Marker × Bitset) :=
  Marker.markLoop markTurns m X joff mx

/-! ## The decimal formatter (R227) -/

/-- The number of decimal digits of `v`, counting at most `k + 1` of them; 1 for 0 (DEDUCED, notes/assumptions/18). -/
def digitCount : Nat → Nat → Nat
  | 0,     _ => 1
  | k + 1, v => if v < 10 then 1 else 1 + digitCount k (v / 10)

/-- The digit bytes of `v` from `10^(d-1)` down to `10^0`, most significant first (PRESUMED, notes/assumptions/21). -/
def digitBytes : Nat → Nat → List Byte
  | 0,     _ => []
  | d + 1, v => BitVec.ofNat 8 (0x30 + v / 10 ^ d % 10) :: digitBytes d v

/-- The bytes `FMT.DEC` appends (R227): the decimal representation, no leading zero, then a line feed. -/
def decimalLine (v : Word) : List Byte :=
  digitBytes (digitCount 19 v.toNat) v.toNat ++ [0x0A]

/-! ## Workers -/

/-- Runs `f` on worker `w`; a worker the block does not have is refused (R333). -/
def State.withWorker (s : State) (w : Nat) (f : Worker → Res State) : Res State :=
  match s.workers[w]? with
  | some k => f k
  | none   => .refused (.noSuchWorker w)

/-- The state with worker `w` replaced. -/
def State.setWorker (s : State) (w : Nat) (k : Worker) : State :=
  { s with workers := s.workers.set w k }

/-! ## Errors and the start of a job -/

/-- The four error kinds (R301). -/
inductive ErrorCause where
  | inputError | configurationError | allocationError | outputError
deriving DecidableEq, Repr

/-- The codes of R301. -/
def errorCode : ErrorCause → BitVec 3
  | .inputError         => 1
  | .configurationError => 2
  | .allocationError    => 3
  | .outputError        => 4

/-- `raise E` (R310): the error is recorded, the result discarded, the job over. Nothing is saved and control goes
to the phase `FAILED`. -/
def State.raise (s : State) (e : ErrorCause) : State :=
  { s with errcode := errorCode e, err := true, done := false, busy := false, result := 0, phase := .failed }

/-- The accepted `GO` (R281), which is also the only way on from an error (R311: there is no return): the mode is
stored, the status and the result are cleared, the job starts. The counters keep their values, which the model notes for
the reads of this job (notes/assumptions/14). -/
def State.acceptGo (s : State) (mode : BitVec 2) : State :=
  { s with mode := mode, busy := true, done := false, err := false, errcode := 0, result := 0, phase := .check,
           goTicket := s.nextTicket, goDispatch := s.nextDispatch }

/-- A `CTRL` write with `GO = 1` (R281): accepted iff not `BUSY`, ignored whole otherwise. -/
def State.go (s : State) (mode : BitVec 2) : State :=
  if s.busy then s else s.acceptGo mode

/-- A `CTRL` write with `GO = 0` (R288): `MODE` is stored unless `BUSY` (R49). -/
def State.storeMode (s : State) (mode : BitVec 2) : State :=
  if s.busy then s else { s with mode := mode }

/-- The external reset (R340, R56), in any phase: it abandons the job; the parameters, the bytes the sink has
accepted and what the outside has still to present stay (DESIGN CHOICE, notes/assumptions/15). -/
def State.externalReset (s : State) : State :=
  { State.resetOf s.params s.workers.length with
    sink := s.sink, sinkAnswers := s.sinkAnswers, events := s.events, turns := s.turns, reads := s.reads }

end Sys2Proof.Machine
end

