-- ==== Sys2Proof/Machine/Flags.lean ====
section
/-! DEFINITION. The flags: the `STATUS` word (R45) from the status flags and the phase, and the conditions the
sequencers test. There are no arithmetic condition codes (R28). -/

namespace Sys2Proof.Machine

/-- The phase codes of R30, visible in `STATUS[11:8]`. -/
def Phase.code : Phase → Nat
  | .idle     => 0
  | .check    => 1
  | .config   => 2
  | .oracle   => 3
  | .template => 4
  | .parallel => 5
  | .join     => 6
  | .done     => 7
  | .failed   => 8

/-- The worker phase codes of R31. Nothing outside the block sees them. -/
def WPhase.code : WPhase → BitVec 4
  | .idle   => 0
  | .setup  => 1
  | .copy   => 2
  | .clip   => 3
  | .sieve  => 4
  | .agg    => 5
  | .reduce => 6
  | .gate   => 7
  | .emit   => 8
  | .pass   => 9
  | .retire => 10

/-- `STATUS` (R45) with the phase code `p`: `BUSY` bit 0, `DONE` bit 1, `ERR` bit 2, `ERRCODE` bits 5..3, `PHASE` bits 11..8,
the rest 0. -/
def State.statusShowing (s : State) (p : Nat) : Word :=
  BitVec.ofNat 64 (s.busy.toNat + 2 * s.done.toNat + 4 * s.err.toNat + 8 * s.errcode.toNat + 256 * p)

/-- `STATUS` (R45) with the present phase. -/
def State.statusWord (s : State) : Word := s.statusShowing s.phase.code

/-- The phase code a read of `STATUS` shows (U8): while `BUSY`, one of the codes 1 ... `code` of the phases the job has passed
through, which `pick` chooses; else the present one. -/
def State.phaseShown (s : State) (pick : Nat) : Nat :=
  if s.busy ∧ 0 < s.phase.code then 1 + pick % s.phase.code else s.phase.code

/-- What a read of a counter shows (R48, U8), `now` being its value and `atGo` the one the job found. While `BUSY` it shows
one of the values the counter has had in this job, which `pick` chooses: `atGo` alone until `SCH.CONFIG` clears it (R281),
then also 0 ... `now`. Else it shows `now`. -/
def State.counterShown (s : State) (atGo now : Word) (pick : Nat) : Word :=
  if s.busy then
    if s.phase = .check ∨ s.phase = .config ∨ pick % (now.toNat + 2) = now.toNat + 1 then atGo
    else BitVec.ofNat 64 (pick % (now.toNat + 2))
  else now

/-- The quiescent phases (R335): nothing changes in them until a host write. -/
def Phase.quiescent : Phase → Bool
  | .idle     => true
  | .done     => true
  | .failed   => true
  | .check    => false
  | .config   => false
  | .oracle   => false
  | .template => false
  | .parallel => false
  | .join     => false

/-- The join condition (R270): every worker idle, and every segment handed out or `FAIL` set. -/
def State.joinReady (s : State) : Bool :=
  s.workers.all (fun k => k.wphase == .idle) && (s.nextDispatch == s.numSegments || s.failFlag)

/-- When `SCH.DISPATCH` can hand a segment to this worker (R250). -/
def State.dispatchEnabled (s : State) (k : Worker) : Bool :=
  s.phase == .parallel && k.wphase == .idle && decide (s.nextDispatch.toNat < s.numSegments.toNat) && !s.failFlag

/-- `small(w, p)` (R221): whether the segment answers for the prime `p`, 2 or 3. -/
def State.small (s : State) (k : Worker) (p : Nat) : Bool :=
  k.low == 1 && decide (s.jStart.toNat ≤ p) && decide (p ≤ s.jStop.toNat)

end Sys2Proof.Machine
end

