-- ==== Sys2Proof/Machine/Operands.lean ====
section
/-! DEFINITION. The operand forms of the unit level (R95): which bitset, which marker set, which index base; and
the registers of the host level (R40 to R48). -/

namespace Sys2Proof.Machine

/-- The bitset an operand names; none where it names a worker the block does not have. -/
def State.bitset? (s : State) : BitsetId → Option Bitset
  | .spt  => some s.spt
  | .pst  => some s.pst
  | .sb w => (s.workers[w]?).map (·.sb)

/-- The state with the named bitset replaced. -/
def State.putBitset (s : State) (X : BitsetId) (B : Bitset) : State :=
  match X with
  | .spt  => { s with spt := B }
  | .pst  => { s with pst := B }
  | .sb w => { s with workers := s.workers.modify w fun k => { k with sb := B } }

/-- Which worker an operand names, for the refusal. -/
def bitsetWorker : BitsetId → Nat
  | .spt  => 0
  | .pst  => 0
  | .sb w => w

/-- The capacity in positions of the named memory (R8, R77). -/
def State.capacity (s : State) : BitsetId → Nat
  | .spt  => s.params.sptCapBits
  | .pst  => s.params.segCapBits
  | .sb _ => s.params.segCapBits

/-- Runs `f` on the named bitset. -/
def State.withBitset (s : State) (X : BitsetId) (f : Bitset → Res State) : Res State :=
  match s.bitset? X with
  | some B => f B
  | none   => .refused (.noSuchWorker (bitsetWorker X))

/-- The marker set an operand names. -/
def State.marker? (s : State) : MarkerId → Option Marker
  | .cm  => some s.cm
  | .m w => (s.workers[w]?).map (·.m)

/-- The state with the named marker set replaced. -/
def State.putMarker (s : State) (M : MarkerId) (m : Marker) : State :=
  match M with
  | .cm  => { s with cm := m }
  | .m w => { s with workers := s.workers.modify w fun k => { k with m := m } }

/-- Which worker an operand names, for the refusal. -/
def markerWorker : MarkerId → Nat
  | .cm  => 0
  | .m w => w

/-- Runs `f` on the named marker set. -/
def State.withMarker (s : State) (M : MarkerId) (f : Marker → Res State) : Res State :=
  match s.marker? M with
  | some m => f m
  | none   => .refused (.noSuchWorker (markerWorker M))

/-- `n_off` of R143: 0 for an absolute index, the segment's `N_OFF` for a local one. -/
def State.baseOffset? (s : State) : IndexBase → Option Word
  | .absolute  => some 0
  | .segment w => (s.workers[w]?).map (·.nOff)

/-- Which worker an index base names, for the refusal. -/
def baseWorker : IndexBase → Nat
  | .absolute  => 0
  | .segment w => w

/-- The state with the values an operation returns. -/
def State.returns (s : State) (vs : List Word) : State := { s with ret := vs }

/-- A returned bit as a register value. -/
def bitWord (b : Bool) : Word := if b then 1 else 0

/-- `RegRead(off)` (R40 to R48, R282); none outside the eleven offsets. While `BUSY`, the two counters and `STATUS.PHASE` may
show what they held some steps ago (R48, U8): how stale this read is, is free (notes/assumptions/14). -/
def State.regRead? (s : State) (off : BitVec 7) : Option Word :=
  match off.toNat with
  | 0x00 => some s.start
  | 0x08 => some s.stop
  | 0x10 => some (ctrlValue false s.mode)
  | 0x18 => some s.stepCfg
  | 0x20 => some (s.statusShowing (s.phaseShown (Config.stale s.reads)))
  | 0x28 => some s.result
  | 0x30 => some s.startAdj
  | 0x38 => some s.stepSize
  | 0x40 => some s.numSegments
  | 0x48 => some (s.counterShown s.goTicket s.nextTicket (Config.stale s.reads))
  | 0x50 => some (s.counterShown s.goDispatch s.nextDispatch (Config.stale s.reads))
  | _    => none

end Sys2Proof.Machine
end

