-- ==== Sys2Proof/Machine/Aggregator.lean ====
section
/-! DEFINITION. The unit-6 operations: Aggregator and decimal formatter (44_aggregator.md). -/

namespace Sys2Proof.Machine

/-- `AGG.COUNT w` (R222). -/
def execAggCount (w : Nat) (s : State) : Res State :=
  s.withWorker w fun k =>
    .next (s.setWorker w
      { k with lacc := narrow 64 (k.sb.popcount + (s.small k 2).toNat + (s.small k 3).toNat : Nat) })

/-- The sum of R223 over `t` local positions from `L` on, added to `acc`. -/
def sumFrom (nOff : Word) (X : Bitset) : Nat → Nat → Nat → Res Nat
  | 0,     _, acc => .next acc
  | t + 1, L, acc =>
    (X.bitRead L).bind fun b =>
      sumFrom nOff X t (L + 1) (if b then acc + (wheelDecode nOff L).toNat else acc)

/-- `AGG.SUM w` (R223): the partial sum is kept modulo 2^64 and no flag is set (R226). -/
def execAggSum (w : Nat) (s : State) : Res State :=
  s.withWorker w fun k =>
    (sumFrom k.nOff k.sb k.mseg.toNat 1 (2 * (s.small k 2).toNat + 3 * (s.small k 3).toNat)).bind fun t =>
      .next (s.setWorker w { k with lacc := BitVec.ofNat 64 t })

/-- The text of R225 over `t` local positions from `L` on, after `text`. -/
def printFrom (nOff : Word) (X : Bitset) : Nat → Nat → List Byte → Res (List Byte)
  | 0,     _, text => .next text
  | t + 1, L, text =>
    (X.bitRead L).bind fun b =>
      printFrom nOff X t (L + 1) (if b then text ++ decimalLine (wheelDecode nOff L) else text)

/-- `AGG.PRINT w` (R225): 2 and 3 first, then the set positions in ascending order, appended to `OBUF[w]`. -/
def execAggPrint (w : Nat) (s : State) : Res State :=
  s.withWorker w fun k =>
    let two   := if s.small k 2 then decimalLine 2 else []
    let three := if s.small k 3 then decimalLine 3 else []
    (printFrom k.nOff k.sb k.mseg.toNat 1 (k.obuf ++ two ++ three)).bind fun text =>
      .next (s.setWorker w { k with obuf := text })

/-- `FMT.DEC w, v` (R227). -/
def execFmtDec (w : Nat) (v : Word) (s : State) : Res State :=
  s.withWorker w fun k => .next (s.setWorker w { k with obuf := k.obuf ++ decimalLine v })

end Sys2Proof.Machine
end

