-- ==== Sys2Proof/Machine/DenseBitset.lean ====
section
/-! DEFINITION. The unit-1 operations (40_densebitset.md). -/

namespace Sys2Proof.Machine

/-- `BS.FILL X, n` (R121). -/
def execBsFill (X : BitsetId) (n : Word) (s : State) : Res State :=
  s.withBitset X fun _ =>
    (Bitset.fill (s.capacity X) n.toNat).bind fun B => .next (s.putBitset X B)

/-- `BS.GET X, p -> b` (R122): changes nothing but the returned bit. -/
def execBsGet (X : BitsetId) (p : Word) (s : State) : Res State :=
  s.withBitset X fun B =>
    (B.bitRead p.toNat).bind fun b => .next (s.returns [bitWord b])

/-- `BS.SET X, p` (R123). -/
def execBsSet (X : BitsetId) (p : Word) (s : State) : Res State :=
  s.withBitset X fun B =>
    (B.bitWrite p.toNat true).bind fun B' => .next (s.putBitset X B')

/-- `BS.CLR X, p` (R124). -/
def execBsClr (X : BitsetId) (p : Word) (s : State) : Res State :=
  s.withBitset X fun B =>
    (B.bitWrite p.toNat false).bind fun B' => .next (s.putBitset X B')

/-- `BS.POPCNT X -> c` (R127): changes nothing but the returned count. -/
def execBsPopcnt (X : BitsetId) (s : State) : Res State :=
  s.withBitset X fun B => .next (s.returns [narrow 64 B.popcount])

/-- `BS.COPY Xdst, Xsrc` (R125). -/
def execBsCopy (Xdst : BitsetId) (Xsrc : BitsetId) (s : State) : Res State :=
  s.withBitset Xdst fun _ =>
    s.withBitset Xsrc fun B =>
      (Bitset.copy (s.capacity Xdst) B).bind fun B' => .next (s.putBitset Xdst B')

/-- `BS.PUTB X, b, v` (R126). -/
def execBsPutb (X : BitsetId) (b : Word) (v : Byte) (s : State) : Res State :=
  s.withBitset X fun B =>
    (B.memWrite b.toNat v).bind fun B' => .next (s.putBitset X B')

/-- `BS.CLRR X, lo, hi` (R128). -/
def execBsClrr (X : BitsetId) (lo : Word) (hi : Word) (s : State) : Res State :=
  s.withBitset X fun B =>
    (B.clearRange lo.toNat hi.toNat).bind fun B' => .next (s.putBitset X B')

end Sys2Proof.Machine
end

