-- ==== Sys2Proof/Machine/HostCommands.lean ====
section
/-! DEFINITION. The host commands (46_host_commands.md). -/

namespace Sys2Proof.Machine

/-- `HOST.RD off -> data` (R282): legal in every phase, no side effect; the model's own count of the reads rises
(notes/assumptions/14). -/
def execHostRd (off : BitVec 7) (s : State) : Res State :=
  match s.regRead? off with
  | some v => .next { s with hostData := v, reads := s.reads + 1 }
  | none   => .refused (.outsideInterface off)

/-- A value written to `CTRL` (R283, R284 to R288), decoded by format H. -/
def State.ctrlWrite (s : State) (data : Word) : State :=
  if ctrlGo data then s.go (ctrlModeField data) else s.storeMode (ctrlModeField data)

/-- `RegWrite(off, data)` while not `BUSY` (R283); writes to read-only offsets are ignored (R49). -/
def State.regWrite (s : State) (off : BitVec 7) (data : Word) : State :=
  match off.toNat with
  | 0x00 => { s with start := data }
  | 0x08 => { s with stop := data }
  | 0x10 => s.ctrlWrite data
  | 0x18 => { s with stepCfg := data }
  | _    => s

/-- `HOST.WR off, data` (R283): ignored while `BUSY`. -/
def execHostWr (off : BitVec 7) (data : Word) (s : State) : Res State :=
  if offsetOk off then .next (if s.busy then s else s.regWrite off data)
  else .refused (.outsideInterface off)

/-- `SIEVE.COUNT` (R284). -/
def execSieveCount (s : State) : Res State := .next (s.go 0)

/-- `SIEVE.SUM` (R285). -/
def execSieveSum (s : State) : Res State := .next (s.go 1)

/-- `SIEVE.PRINT` (R286). -/
def execSievePrint (s : State) : Res State := .next (s.go 2)

/-- `SIEVE.RSVD` (R287): the job it starts ends in InputError (`SCH.CHECK`, R248). -/
def execSieveRsvd (s : State) : Res State := .next (s.go 3)

/-- `CTRL.MODE` (R288): stores `MODE`, starts nothing. -/
def execCtrlMode (mode : BitVec 2) (s : State) : Res State := .next (s.storeMode mode)

end Sys2Proof.Machine
end

