-- ==== Sys2Proof/Machine/Scheduler.lean ====
section
/-! DEFINITION. The unit-7 operations: Scheduler and ordered output multiplexer (45_scheduler_gate.md). The sequencers
issue each in its phase; its meaning is its rule's pseudocode, whatever the phase (DEDUCED, notes/assumptions/8). -/

namespace Sys2Proof.Machine

/-- `STOP_MAX = 2^64 - 1 - 6` (R7). -/
def stopMax : Nat := 2 ^ 64 - 1 - 6

/-- Whether the latched arguments lie outside the domain (R248). -/
def State.badInput (s : State) : Bool :=
  s.jMode == 3 || s.jStart == 0 || decide (s.jStop.toNat < s.jStart.toNat) || decide (stopMax < s.jStop.toNat)

/-- `SCH.CHECK` (R248). -/
def execSchCheck (s : State) : Res State :=
  let t := { s with jStart := s.start, jStop := s.stop, jMode := s.mode }
  .next (if t.badInput then t.raise .inputError else { t with phase := .config })

/-- `startadj(start)` (R242). -/
def startAdjOf (start : Nat) : Nat :=
  if 5 < start then start - start % 6 - 5 else 1

/-- The number of seed primes for a `stop` (R177). -/
def nseedOf (stop : Nat) : Nat := if stop < 10 ^ 12 then 5 else 6

/-- The template modulus for a `stop` (R177). -/
def modulusOf (stop : Nat) : Nat := if stop < 10 ^ 12 then 510510 else 9699690

/-- The exponent a scale table gives a `stop`: the last pair whose threshold is at most `stop` (R8, R244). -/
def scaleExp (table : List (Nat × Nat)) (stop : Nat) : Nat :=
  table.foldl (fun k e => if e.1 ≤ stop then e.2 else k) 0

/-- `autostep(stop)` (R244). -/
def autostep (p : Params) (stop : Nat) : Nat :=
  if stop < 10 ^ 12 then 6126120 else 9699690 * 2 ^ scaleExp p.scaleTable stop

/-- `NUM_SEGMENTS` (R246); no value is stated for a width of 0. -/
def segmentsOf (stop startAdj step : Nat) : Word :=
  if step = 0 then Config.unstated .segmentsByZero ((stop : Int) - startAdj)
  else narrow 64 (((stop : Int) - startAdj) / step + 1)

/-- `QTAB = min(isqrt(stop) div 3, Q_CAP)` (R174). -/
def qtabOf (p : Params) (stop : Nat) : Nat :=
  match p.qCap with
  | some cap => min (isqrt stop / 3) cap
  | none     => isqrt stop / 3

/-- The registers `SCH.CONFIG` writes before its modulus test (R241, R304). -/
def State.configBegun (s : State) : State :=
  { s with startAdj := BitVec.ofNat 64 (startAdjOf s.jStart.toNat)
           nseed    := BitVec.ofNat 3 (nseedOf s.jStop.toNat) }

/-- The width `SCH.CONFIG` chooses (R241, R244). -/
def State.stepChosen (s : State) : Word :=
  if s.stepCfg = 0 then narrow 64 (autostep s.params s.jStop.toNat) else s.stepCfg

/-- The registers `SCH.CONFIG` writes before its capacity test (R241, R305). -/
def State.configSized (s : State) : State :=
  let step := s.stepChosen
  { s.configBegun with
    stepSize    := step
    mtpl        := BitVec.ofNat 64 (step.toNat / 3)
    numSegments := segmentsOf s.jStop.toNat (startAdjOf s.jStart.toNat) step.toNat
    qtab        := narrow 32 (qtabOf s.params s.jStop.toNat) }

/-- Whether `STEP_CFG` breaks the modulus invariant (R245). -/
def State.badStep (s : State) : Bool :=
  s.stepCfg != 0 && decide (s.stepCfg.toNat % modulusOf s.jStop.toNat ≠ 0)

/-- Whether the job needs more cells than the memories have (R249). -/
def State.overCapacity (s : State) : Bool :=
  decide (s.params.sptCapBits < s.qtab.toNat + 2) || decide (s.params.segCapBits < s.mtpl.toNat + 1)

/-- The reduction and gate state cleared and the builds begun (R241). -/
def State.configDone (s : State) : State :=
  { s with acc := 0, retired := 0, nextDispatch := 0, nextTicket := 0, failFlag := false, phase := .oracle }

/-- `SCH.CONFIG` (R241): ConfigurationError before AllocationError (R320). -/
def execSchConfig (s : State) : Res State :=
  .next (if s.badStep then s.configBegun.raise .configurationError
         else if s.configSized.overCapacity then s.configSized.raise .allocationError
         else s.configSized.configDone)

/-- `SCH.DISPATCH w` (R250); where it is not enabled there is no step and nothing changes (DESIGN CHOICE,
notes/assumptions/7). -/
def execSchDispatch (w : Nat) (s : State) : Res State :=
  s.withWorker w fun k =>
    .next (if s.dispatchEnabled k then
             { s.setWorker w { k with segN := s.nextDispatch, wphase := .setup } with
               nextDispatch := narrow 64 (s.nextDispatch.toNat + 1) }
           else s)

/-- `SCH.REDUCE w` (R252): `ACC` is kept modulo 2^64 (R226). -/
def execSchReduce (w : Nat) (s : State) : Res State :=
  s.withWorker w fun k =>
    .next { s.setWorker w { k with wphase := .idle } with
            acc     := s.acc + k.lacc
            retired := narrow 64 (s.retired.toNat + 1) }

/-- `GATE.WAIT w` (R261): while it is neither this segment's turn nor `FAIL`, the worker waits (DESIGN CHOICE,
notes/assumptions/7). -/
def execGateWait (w : Nat) (s : State) : Res State :=
  s.withWorker w fun k =>
    .next (if s.failFlag then s.setWorker w { k with wphase := .retire }
           else if s.nextTicket = k.segN then s.setWorker w { k with wphase := .emit }
           else s)

/-- `GATE.EMIT w` (R262): one byte offered to the sink; while the sink has not answered, the worker waits
(DESIGN CHOICE, notes/assumptions/7 and 10). -/
def execGateEmit (w : Nat) (s : State) : Res State :=
  s.withWorker w fun k =>
    match k.obuf with
    | []        => .next (s.setWorker w { k with wphase := .pass })
    | b :: rest =>
      match s.sinkAnswers with
      | []             => .next s
      | .ok :: more    =>
        .next { s.setWorker w { k with obuf := rest } with sink := s.sink ++ [b], sinkAnswers := more }
      | .fail :: more  =>
        .next { s.setWorker w { k with wphase := .retire } with failFlag := true, sinkAnswers := more }

/-- `GATE.PASS w` (R263). -/
def execGatePass (w : Nat) (s : State) : Res State :=
  s.withWorker w fun k =>
    .next { s.setWorker w { k with wphase := .idle } with
            nextTicket := narrow 64 (s.nextTicket.toNat + 1)
            retired    := narrow 64 (s.retired.toNat + 1) }

/-- `SCH.FAIL w` (R264). -/
def execSchFail (w : Nat) (s : State) : Res State :=
  s.withWorker w fun k =>
    .next { s.setWorker w { k with wphase := .idle, obuf := [] } with
            retired := narrow 64 (s.retired.toNat + 1) }

/-- The result a successful job leaves (R270, R46); none is stated for the reserved mode. -/
def State.jobResult (s : State) : Word :=
  match s.jMode.toNat with
  | 0 => s.acc
  | 1 => s.acc
  | 2 => 0
  | _ => Config.unstated .joinReservedMode s.acc.toNat

/-- The end of a successful job (R270, R45). -/
def State.finish (s : State) : State :=
  { s with result := s.jobResult, phase := .done, busy := false, done := true }

/-- `SCH.JOIN` (R270). -/
def execSchJoin (s : State) : Res State :=
  .next (if s.failFlag then s.raise .outputError else s.finish)

end Sys2Proof.Machine
end

