-- ==== Sys2Proof/Machine/Tables.lean ====
section
/-! DEFINITION. The unit-4 operations: SmallPrimeOracle and PreSieveTemplate (42_oracle_template.md). -/

namespace Sys2Proof.Machine

/-- The loop of `ORC.BUILD` (R171) over the indices up to `q`: the recurrence advances for every index and marks
only where the index is still set. At most `k` turns; a loop still running then never ends, since
`MI` rises by one each turn and only a `q` of 2^32 - 1 keeps a 32-bit `MI` below it for ever. -/
def oracleLoop : Nat → Nat → Marker → Bitset → Res (Marker × Bitset)
  | 0,     q, m, X => if m.i.toNat ≤ q then .fault .loopNeverEnds else .next (m, X)
  | k + 1, q, m, X =>
    if m.i.toNat ≤ q then
      (X.bitRead m.i.toNat).bind fun b =>
        if b then (m.advance.mark X 0 q).bind fun r => oracleLoop k q r.1 r.2
        else oracleLoop k q m.advance X
    else .next (m, X)

/-- `ORC.BUILD` (R171). -/
def execOrcBuild (s : State) : Res State :=
  let q := s.qtab.toNat
  (Bitset.fill s.params.sptCapBits (q + 2)).bind fun X =>
    (oracleLoop q q s.cm.init X).bind fun r => .next { s with cm := r.1, spt := r.2 }

/-- `ORC.TEST i -> b` (R173): a table lookup up to `QTAB`, beyond it the test modulo 5 (index 0: DEDUCED,
notes/assumptions/19). -/
def oracleTest (qtab : Nat) (spt : Bitset) (i : Nat) : Res Bool :=
  if i ≤ qtab then spt.bitRead i else .next (decide (wheelVal i % 5 ≠ 0))

/-- `ORC.TEST i -> b` (R173). -/
def execOrcTest (i : Word) (s : State) : Res State :=
  (oracleTest s.qtab.toNat s.spt i.toNat).bind fun b => .next (s.returns [bitWord b])

/-- The loop of `TPL.BUILD` (R176): `k` seed indices, each advanced, fast-forwarded and marked. -/
def templateLoop : Nat → Nat → Nat → Marker → Bitset → Res (Marker × Bitset)
  | 0,     _,    _,  m, X => .next (m, X)
  | k + 1, joff, mx, m, X =>
    ((m.advance.seek joff).mark X joff mx).bind fun r => templateLoop k joff mx r.1 r.2

/-- Sets the local positions `a - joff` of the seed indices `a`, `a + 1`, ..., `k` of them, that lie in the window
(`a > joff`) to `x` (R179 clears them, R194 sets them again). -/
def writeSeeds (x : Bool) : Nat → Nat → Nat → Bitset → Res Bitset
  | 0,     _, _,    X => .next X
  | k + 1, a, joff, X =>
    if joff < a then (X.bitWrite (a - joff) x).bind fun X' => writeSeeds x k (a + 1) joff X'
    else writeSeeds x k (a + 1) joff X

/-- The seed bits of the template (R179). -/
def clearSeeds (startAdj : Word) (nseed : Nat) (joff : Nat) (X : Bitset) : Res Bitset :=
  if startAdj = 1 then X.memWrite 0 (if nseed = 5 then 0xC0 else 0x80)
  else writeSeeds false nseed 1 joff X

/-- `TPL.BUILD` (R176, R178, R179). -/
def execTplBuild (s : State) : Res State :=
  let joff : Word := narrow 64 (((s.startAdj.toNat : Int) - 1) / 3)
  let nseed := s.nseed.toNat
  (Bitset.fill s.params.segCapBits (s.mtpl.toNat + 1)).bind fun X =>
    (templateLoop nseed joff.toNat s.mtpl.toNat s.cm.init X).bind fun r =>
      (clearSeeds s.startAdj nseed joff.toNat r.2).bind fun X' =>
        .next { s with cm := r.1, pst := X', ri := r.1.i, rc := r.1.c, rk := r.1.k, rt := r.1.t }

end Sys2Proof.Machine
end

