-- ==== Sys2Proof/Machine/Segment.lean ====
section
/-! DEFINITION. The unit-5 operations: SegmentSieveEngine (43_segment_engine.md). -/

namespace Sys2Proof.Machine

/-- `mseg(D)` (R193): the largest `L ≥ 0` with `3L + 1 + (L mod 2) ≤ D`, for `D ≥ 1`. -/
def mseg (d : Nat) : Nat :=
  let lc := (d - 1) / 3
  if lc % 2 = 1 ∧ d < 3 * lc + 2 then lc - 1 else lc

/-- `low` of segment `n`, exact (R191). -/
def State.lowOf (s : State) (n : Word) : Int :=
  s.startAdj.toNat + s.stepSize.toNat * n.toNat

/-- `high` of segment `n`, exact: the sum may need 65 bits (R191, R198). -/
def State.highOf (s : State) (n : Word) : Int :=
  min (s.lowOf n + s.stepSize.toNat - 1) s.jStop.toNat

/-- `isqrt(high) div 3` (R191). -/
def rootIndex (high : Int) : BitVec 32 :=
  if 0 ≤ high then narrow 32 (wheelEncode (isqrt high.toNat))
  else (Config.unstated .rootOfNegative high).setWidth 32

/-- `MSEG` of segment `n` (R191, R193); the spec states none for a segment past the last or `D < 1`. -/
def State.msegOf (s : State) (n : Word) : Word :=
  let d : Int := s.jStop.toNat - (s.lowOf n - 1)
  if (n.toNat : Int) < (s.numSegments.toNat : Int) - 1 then s.mtpl
  else if (n.toNat : Int) = (s.numSegments.toNat : Int) - 1 ∧ 1 ≤ d then narrow 64 (mseg d.toNat)
  else Config.unstated .msegOutside d

/-- `SEG.SETUP w` (R191). -/
def execSegSetup (w : Nat) (s : State) : Res State :=
  s.withWorker w fun k =>
    .next (s.setWorker w
      { k with low  := narrow 64 (s.lowOf k.segN)
               high := narrow 64 (s.highOf k.segN)
               nOff := narrow 64 (s.lowOf k.segN - 1)
               jOff := narrow 64 ((s.lowOf k.segN - 1) / 3)
               q    := rootIndex (s.highOf k.segN)
               mseg := s.msegOf k.segN })

/-- The seed positions made visible again in segment 0 (R194). -/
def exposeSeeds (k : Worker) (nseed : Nat) (X : Bitset) : Res Bitset :=
  if k.segN = 0 then
    if k.low = 1 then X.memWrite 0 0xFE else writeSeeds true nseed 1 k.jOff.toNat X
  else .next X

/-- `SEG.COPY w` (R194). -/
def execSegCopy (w : Nat) (s : State) : Res State :=
  s.withWorker w fun k =>
    (Bitset.copy s.params.segCapBits s.pst).bind fun X =>
      (exposeSeeds k s.nseed.toNat X).bind fun X' => .next (s.setWorker w { k with sb := X' })

/-- Clears position `p` where its integer lies below `start` (R195; DEDUCED, notes/assumptions/24). -/
def clipBelow (k : Worker) (jStart : Word) (p d : Nat) (X : Bitset) : Res Bitset :=
  if k.nOff.toNat + d < jStart.toNat then X.bitWrite p false else .next X

/-- The low end of `SEG.CLIP` (R195): in segment 0, positions 1 and 2 where below `start`. -/
def clipLow (k : Worker) (jStart : Word) (X : Bitset) : Res Bitset :=
  if k.segN = 0 then (clipBelow k jStart 1 5 X).bind fun X' => clipBelow k jStart 2 7 X' else .next X

/-- The high end of `SEG.CLIP` (R195): in the last segment, every position above `MSEG`. -/
def clipHigh (k : Worker) (numSegments mtpl : Word) (X : Bitset) : Res Bitset :=
  if (k.segN.toNat : Int) = (numSegments.toNat : Int) - 1 then X.clearRange (k.mseg.toNat + 1) mtpl.toNat
  else .next X

/-- `SEG.CLIP w` (R195). -/
def execSegClip (w : Nat) (s : State) : Res State :=
  s.withWorker w fun k =>
    (clipLow k s.jStart k.sb).bind fun X =>
      (clipHigh k s.numSegments s.mtpl X).bind fun X' => .next (s.setWorker w { k with sb := X' })

/-- The loop of `SEG.SIEVE` (R196) over the indices up to `q`, at most `t` turns (as in `oracleLoop`). -/
def sieveLoop (qtab : Nat) (spt : Bitset) (joff mx q : Nat) : Nat → Marker → Bitset → Res (Marker × Bitset)
  | 0,     m, X => if m.i.toNat ≤ q then .fault .loopNeverEnds else .next (m, X)
  | t + 1, m, X =>
    if m.i.toNat ≤ q then
      (oracleTest qtab spt m.i.toNat).bind fun b =>
        if b then
          ((m.advance.seek joff).mark X joff mx).bind fun r => sieveLoop qtab spt joff mx q t r.1 r.2
        else sieveLoop qtab spt joff mx q t m.advance X
    else .next (m, X)

/-- `SEG.SIEVE w` (R196). -/
def execSegSieve (w : Nat) (s : State) : Res State :=
  s.withWorker w fun k =>
    let m := k.m.load s.ri s.rc s.rk s.rt
    (sieveLoop s.qtab.toNat s.spt k.jOff.toNat k.mseg.toNat k.q.toNat (k.q.toNat + 1 - m.i.toNat) m k.sb).bind
      fun r => .next (s.setWorker w { k with m := r.1, sb := r.2 })

end Sys2Proof.Machine
end

