-- ==== Sys2Proof/Machine/Wheel.lean ====
section
/-! DEFINITION. The unit-2 and unit-3 operations: WheelCodec and WheelMarker (41_wheel_codec_marker.md). -/

namespace Sys2Proof.Machine

/-- `WC.DEC i -> n` (R143). -/
def execWcDec (base : IndexBase) (i : Word) (s : State) : Res State :=
  match s.baseOffset? base with
  | some nOff => .next (s.returns [wheelDecode nOff i.toNat])
  | none      => .refused (.noSuchWorker (baseWorker base))

/-- `WC.ENC n -> i` (R144). -/
def execWcEnc (n : Word) (s : State) : Res State :=
  .next (s.returns [BitVec.ofNat 64 (wheelEncode n.toNat)])

/-- `WM.INIT M` (R146). -/
def execWmInit (M : MarkerId) (s : State) : Res State :=
  s.withMarker M fun m => .next (s.putMarker M m.init)

/-- `WM.NEXT M -> (i, j, ij)` (R147). -/
def execWmNext (M : MarkerId) (s : State) : Res State :=
  s.withMarker M fun m =>
    .next ((s.putMarker M m.advance).returns [m.i.setWidth 64, m.advance.j, m.advance.ij])

/-- `WM.SEEK M, joff` (R151). -/
def execWmSeek (M : MarkerId) (joff : Word) (s : State) : Res State :=
  s.withMarker M fun m => .next (s.putMarker M (m.seek joff.toNat))

/-- `WM.STEP M` (R149). -/
def execWmStep (M : MarkerId) (s : State) : Res State :=
  s.withMarker M fun m => .next (s.putMarker M m.stride)

/-- `WM.MARK M, X, joff, Mx` (R153). -/
def execWmMark (M : MarkerId) (X : BitsetId) (joff : Word) (mx : Word) (s : State) : Res State :=
  s.withMarker M fun m =>
    s.withBitset X fun B =>
      (m.mark B joff.toNat mx.toNat).bind fun r => .next ((s.putMarker M r.1).putBitset X r.2)

/-- `WM.LOAD M` (R154), on a worker's marker set. -/
def execWmLoad (w : Nat) (s : State) : Res State :=
  s.withWorker w fun k =>
    .next (s.setWorker w { k with m := k.m.load s.ri s.rc s.rk s.rt })

end Sys2Proof.Machine
end

