-- ==== Sys2Proof/Machine/Dispatch.lean ====
section
/-! DEFINITION. The dispatch from each operation to its meaning, one arm per row of spec/opcode_table.json. -/

namespace Sys2Proof.Machine

def exec (i : Instr) (s : State) : Host.Outcome State Fault Refusal :=
  match i with
  | .bsFill X n => Sys2Proof.Machine.execBsFill X n s
  | .bsGet X p => Sys2Proof.Machine.execBsGet X p s
  | .bsSet X p => Sys2Proof.Machine.execBsSet X p s
  | .bsClr X p => Sys2Proof.Machine.execBsClr X p s
  | .bsPopcnt X => Sys2Proof.Machine.execBsPopcnt X s
  | .bsCopy Xdst Xsrc => Sys2Proof.Machine.execBsCopy Xdst Xsrc s
  | .bsPutb X b v => Sys2Proof.Machine.execBsPutb X b v s
  | .bsClrr X lo hi => Sys2Proof.Machine.execBsClrr X lo hi s
  | .wcDec base j => Sys2Proof.Machine.execWcDec base j s
  | .wcEnc n => Sys2Proof.Machine.execWcEnc n s
  | .wmInit M => Sys2Proof.Machine.execWmInit M s
  | .wmNext M => Sys2Proof.Machine.execWmNext M s
  | .wmSeek M joff => Sys2Proof.Machine.execWmSeek M joff s
  | .wmStep M => Sys2Proof.Machine.execWmStep M s
  | .wmMark M X joff mx => Sys2Proof.Machine.execWmMark M X joff mx s
  | .wmLoad w => Sys2Proof.Machine.execWmLoad w s
  | .orcBuild => Sys2Proof.Machine.execOrcBuild s
  | .tplBuild => Sys2Proof.Machine.execTplBuild s
  | .orcTest j => Sys2Proof.Machine.execOrcTest j s
  | .segSetup w => Sys2Proof.Machine.execSegSetup w s
  | .segCopy w => Sys2Proof.Machine.execSegCopy w s
  | .segClip w => Sys2Proof.Machine.execSegClip w s
  | .segSieve w => Sys2Proof.Machine.execSegSieve w s
  | .aggCount w => Sys2Proof.Machine.execAggCount w s
  | .aggSum w => Sys2Proof.Machine.execAggSum w s
  | .aggPrint w => Sys2Proof.Machine.execAggPrint w s
  | .fmtDec w v => Sys2Proof.Machine.execFmtDec w v s
  | .schCheck => Sys2Proof.Machine.execSchCheck s
  | .schConfig => Sys2Proof.Machine.execSchConfig s
  | .schDispatch w => Sys2Proof.Machine.execSchDispatch w s
  | .schReduce w => Sys2Proof.Machine.execSchReduce w s
  | .gateWait w => Sys2Proof.Machine.execGateWait w s
  | .gateEmit w => Sys2Proof.Machine.execGateEmit w s
  | .gatePass w => Sys2Proof.Machine.execGatePass w s
  | .schJoin => Sys2Proof.Machine.execSchJoin s
  | .schFail w => Sys2Proof.Machine.execSchFail w s
  | .hostRd off => Sys2Proof.Machine.execHostRd off s
  | .hostWr off data => Sys2Proof.Machine.execHostWr off data s
  | .sieveCount => Sys2Proof.Machine.execSieveCount s
  | .sieveSum => Sys2Proof.Machine.execSieveSum s
  | .sievePrint => Sys2Proof.Machine.execSievePrint s
  | .sieveRsvd => Sys2Proof.Machine.execSieveRsvd s
  | .ctrlMode mode => Sys2Proof.Machine.execCtrlMode mode s

end Sys2Proof.Machine
end

