-- ==== Sys2Proof/Machine/Sequencer.lean ====
section
/-! DEFINITION. The hardwired sequencers (R30, R31): which operation an agent's phase issues, and the phase that
follows where the operation's own rule does not set it. Every operation they issue is a format U command
that goes through the decoder. -/

namespace Sys2Proof.Machine

/-- Decodes a command and runs the operation; a code R95 does not list is refused (R98, U5). -/
def runCommand (c : Command) (s : State) : Res State :=
  match decode c with
  | .ok i                        => exec i s
  | .error (.unassignedCode code) => .refused (.unassignedCode code)
  | .error (.noSuchFormat n)     => .refused (.noSuchFormat n)

/-- The operation the controller's phase issues (R30). -/
def controllerCode : Phase → Option Nat
  | .check    => some 0x70
  | .config   => some 0x71
  | .oracle   => some 0x40
  | .template => some 0x41
  | .join     => some 0x77
  | .idle     => none
  | .parallel => none
  | .done     => none
  | .failed   => none

/-- The phase after the operation of phase `p`, where its own rule does not write `PHASE` (R30). -/
def controllerNext (p : Phase) (s : State) : State :=
  match p with
  | .oracle   => { s with phase := .template }
  | .template => { s with phase := .parallel }
  | .idle     => s
  | .check    => s
  | .config   => s
  | .parallel => s
  | .join     => s
  | .done     => s
  | .failed   => s

/-- The controller's turn (R30): in `PARALLEL` it tests the join condition (R270). -/
def controllerTurn (s : State) : Res State :=
  match controllerCode s.phase with
  | some code => (runCommand (unitCommand code {}) s).bind fun t => .next (controllerNext s.phase t)
  | none      => .next (if s.phase = .parallel ∧ s.joinReady then { s with phase := .join } else s)

/-- The operation a worker's phase issues (R31); none in `W_AGG` with the reserved mode (DEDUCED, notes/assumptions/20). -/
def workerCode (p : WPhase) (jMode : BitVec 2) : Option Nat :=
  match p with
  | .idle   => none
  | .setup  => some 0x50
  | .copy   => some 0x51
  | .clip   => some 0x52
  | .sieve  => some 0x53
  | .agg    =>
    match jMode.toNat with
    | 0 => some 0x60
    | 1 => some 0x61
    | 2 => some 0x62
    | _ => none
  | .reduce => some 0x73
  | .gate   => some 0x74
  | .emit   => some 0x75
  | .pass   => some 0x76
  | .retire => some 0x78

/-- The worker phase after the operation of phase `p`, where its own rule does not write `WPHASE` (R31). -/
def workerNext (p : WPhase) (jMode : BitVec 2) : Option WPhase :=
  match p with
  | .setup  => some .copy
  | .copy   => some .clip
  | .clip   => some .sieve
  | .sieve  => some .agg
  | .agg    => some (if jMode.toNat = 2 then .gate else .reduce)
  | .idle   => none
  | .reduce => none
  | .gate   => none
  | .emit   => none
  | .pass   => none
  | .retire => none

/-- Worker `w` moved on from phase `p` (R31). -/
def workerAdvance (w : Nat) (p : WPhase) (s : State) : State :=
  match workerNext p s.jMode with
  | some p' => { s with workers := s.workers.modify w fun k => { k with wphase := p' } }
  | none    => s

/-- Worker `w`'s turn (R31): workers run in phase `PARALLEL` only (R30). -/
def workerTurn (w : Nat) (s : State) : Res State :=
  match s.workers[w]? with
  | none   => .next s
  | some k =>
    if s.phase = .parallel then
      match workerCode k.wphase s.jMode with
      | some code => (runCommand (unitCommand code { w := w }) s).bind fun t => .next (workerAdvance w k.wphase t)
      | none      => .next s
    else .next s

/-- The hand-out of the next segment to worker `w` (R250, R251). -/
def dispatchTurn (w : Nat) (s : State) : Res State :=
  if s.phase = .parallel ∧ w < s.workers.length then runCommand (unitCommand 0x72 { w := w }) s else .next s

/-- One agent's turn; an agent with no enabled step leaves the state as it is. -/
def takeTurn (t : Turn) (s : State) : Res State :=
  match t with
  | .controller => controllerTurn s
  | .dispatch w => dispatchTurn w s
  | .worker w   => workerTurn w s

/-- The agents of a block with `nw` workers, numbered: the controller, the `nw` hand-outs, the `nw` workers. -/
def turnOf (nw n : Nat) : Turn :=
  let k := n % (2 * nw + 1)
  if k = 0 then .controller else if k ≤ nw then .dispatch (k - 1) else .worker (k - 1 - nw)

/-- A step the outside does not choose: nothing in a quiescent phase (R335), else a freely chosen agent's turn
(R15, U11; DESIGN CHOICE, notes/assumptions/9). -/
def freeTurn (s : State) : Res State :=
  if s.phase.quiescent then .next s
  else takeTurn (turnOf s.workers.length (Config.schedule s.turns)) { s with turns := s.turns + 1 }

/-- What the block does with the event presented next. -/
def takeEvent (e : Event) (s : State) : Res State :=
  match e with
  | .command c => runCommand c s
  | .reset     => .next s.externalReset
  | .turn t    => takeTurn t s

/-- The command of a table word, where it is a command of one of the formats. -/
def tableCommand (nbits w : Nat) : Option Command :=
  match commandOfBytes (tableBytes nbits w) with
  | .ok c    => some c
  | .error _ => none

/-- The host's `HOST.WR off, data` as a command (R91). -/
def writeCommand (off : BitVec 7) (data : Word) : Command := .reg (regAccess true off data)

/-- The host's `HOST.RD off` as a command (R91). -/
def readCommand (off : BitVec 7) : Command := .reg (regAccess false off 0)

/-- The expansion of `JOB.<mode> start, stop, step=S` (R101); `step = 0` is the form without `step=`. -/
def jobCommands (mode : BitVec 2) (start stop step : Word) : List Command :=
  [writeCommand 0x00 start, writeCommand 0x08 stop, writeCommand 0x18 step, writeCommand 0x10 (ctrlValue true mode)]

/-- One round of `WAIT` (R101): a read of `STATUS`, whose bit 0 the host tests. -/
def waitCommand : Command := readCommand 0x20

/-- `RESULT` (R101). -/
def resultCommand : Command := readCommand 0x28

/-- The state with a command presented before everything else. -/
def State.present (s : State) (c : Command) : State := { s with events := .command c :: s.events }

end Sys2Proof.Machine
end

