-- ==== Sys2Proof/Machine/Step.lean ====
section
/-! DEFINITION. One step of the machine: the event presented next, or a freely scheduled agent's turn. -/

namespace Sys2Proof.Machine

/-- One step. -/
def step (s : State) : Host.Outcome State Fault Refusal :=
  match s.events with
  | e :: rest => takeEvent e { s with events := rest }
  | []        => freeTurn s

/-- `s` with the table word of `nbits` bits presented as the next command (notes/assumptions/3); a word that is no
command of any format changes nothing. -/
def State.withFetchWord (s : State) (nbits w : Nat) : State :=
  match tableCommand nbits w with
  | some c => s.present c
  | none   => s

end Sys2Proof.Machine
end

