-- ==== Sys2Proof/Safety.lean ====
section
/-! DEFINITION. What counts as a safe state and a safe run, in the terms the statements use. -/

namespace Sys2Proof.Machine

/-! ## Frames -/

/-- `t` is `s` with the bitset `X` holding `B` and nothing else changed. -/
abbrev State.onlyBitset (s t : State) (X : BitsetId) (B : Bitset) : Prop :=
  t = s.putBitset X B ∧ t.bitset? X = some B ∧ ∀ Y, Y ≠ X → t.bitset? Y = s.bitset? Y

/-- `t` is `s` with the marker set `M` holding `m` and nothing else changed: every bitset is as it was. -/
abbrev State.onlyMarker (s t : State) (M : MarkerId) (m : Marker) : Prop :=
  t = s.putMarker M m ∧ t.marker? M = some m ∧ (∀ N, N ≠ M → t.marker? N = s.marker? N) ∧
    ∀ X, t.bitset? X = s.bitset? X

/-- `t` is `s` with worker `w` being `k` and nothing else changed. -/
abbrev State.onlyWorker (s t : State) (w : Nat) (k : Worker) : Prop :=
  t = s.setWorker w k ∧ t.workers[w]? = some k ∧ ∀ v, v ≠ w → t.workers[v]? = s.workers[v]?

/-! ## The walk of the recurrence -/

/-- The members `w_0 < w_1 < w_2 < ...` of a walk of the recurrence (R150, R152): `w_{2r} = j + r·t`,
`w_{2r+1} = j + r·t + ij`. -/
def walkMember (j ij t s : Nat) : Nat := j + s / 2 * t + (if s % 2 = 1 then ij else 0)

/-- A marker set in the middle of a walk (R160): `0 < MIJ < MT`. -/
abbrev Marker.walking (m : Marker) : Prop := 0 < m.ij.toNat ∧ m.ij.toNat < m.t.toNat

/-- The operations of the list, one after another; the first stop is the outcome. -/
def runOps : List Instr → State → Res State
  | [],      s => .next s
  | i :: is, s => Res.bind (exec i s) (runOps is)

/-- The commands of the list, one after another. -/
def runCommands : List Command → State → Res State
  | [],      s => .next s
  | c :: cs, s => Res.bind (runCommand c s) (runCommands cs)

/-- How many positions of a bitset hold 1. -/
def Bitset.ones (X : Bitset) : Nat := (List.range X.n.toNat).countP X.bit

/-- The codes of R95. -/
def unitCodes : List Nat :=
  [0x10, 0x11, 0x12, 0x13, 0x14, 0x15, 0x16, 0x17, 0x20, 0x21, 0x30, 0x31, 0x32, 0x33, 0x34, 0x35,
   0x40, 0x41, 0x42, 0x50, 0x51, 0x52, 0x53, 0x60, 0x61, 0x62, 0x63,
   0x70, 0x71, 0x72, 0x73, 0x74, 0x75, 0x76, 0x77, 0x78]

/-- The operations whose one operand is worker `w`, its bitset or its marker set (R95). -/
def workerOperations (w : Nat) : List Instr :=
  [.bsPopcnt (.sb w), .wmInit (.m w), .wmNext (.m w), .wmStep (.m w), .wmLoad w, .segSetup w, .segCopy w, .segClip w,
   .segSieve w, .aggCount w, .aggSum w, .aggPrint w, .schDispatch w, .schReduce w, .gateWait w, .gateEmit w,
   .gatePass w, .schFail w]

/-- The controller's moves (R30). -/
def phaseMoves : List (Phase × Phase) :=
  [(.idle, .check), (.check, .config), (.check, .failed), (.config, .oracle), (.config, .failed), (.oracle, .template),
   (.template, .parallel), (.parallel, .join), (.join, .done), (.join, .failed), (.done, .check), (.failed, .check)]

/-- A worker's moves (R31). -/
def workerMoves : List (WPhase × WPhase) :=
  [(.idle, .setup), (.setup, .copy), (.copy, .clip), (.clip, .sieve), (.sieve, .agg), (.agg, .reduce), (.agg, .gate),
   (.reduce, .idle), (.gate, .emit), (.gate, .retire), (.emit, .pass), (.emit, .retire), (.pass, .idle), (.retire, .idle)]

/-- The seed primes a template of `nseed` seeds is built from (R177). -/
def seedPrimes (nseed : Nat) : List Nat := if nseed = 5 then [5, 7, 11, 13, 17] else [5, 7, 11, 13, 17, 19]

/-- The resume registers hold the state `TPL.BUILD` leaves (R178). -/
abbrev State.resumeOk (s : State) : Prop :=
  (s.nseed.toNat = 5 ∧ s.ri = 6 ∧ s.rc = 96 ∧ s.rk = 2 ∧ s.rt = 34) ∨
  (s.nseed.toNat = 6 ∧ s.ri = 7 ∧ s.rc = 120 ∧ s.rk = 1 ∧ s.rt = 38)

/-- The state R56 describes, its unspecified elements aside: every host register reads 0, nothing runs, the counters
are 0, every output buffer is empty. -/
abbrev State.atReset (s : State) : Prop :=
  (∀ off : BitVec 7, off.toNat % 8 = 0 → off.toNat ≤ 0x50 →
    ∃ t : State, exec (.hostRd off) s = .next t ∧ t.hostData = 0) ∧
  s.phase = .idle ∧ s.failFlag = false ∧ s.acc = 0 ∧ s.retired = 0 ∧ s.nextDispatch = 0 ∧ s.nextTicket = 0 ∧
  ∀ k ∈ s.workers, k.wphase = .idle ∧ k.obuf = []

/-! ## Invariants -/

/-- Every bitset of the block is in canonical form. -/
abbrev State.memWf (s : State) : Prop :=
  s.spt.wf ∧ s.pst.wf ∧ ∀ k ∈ s.workers, k.sb.wf

/-- Position 0 of every bitset holds 0 (R131). -/
abbrev State.zeroClear (s : State) : Prop :=
  s.spt.bit 0 = false ∧ s.pst.bit 0 = false ∧ ∀ k ∈ s.workers, k.sb.bit 0 = false

/-- The status flags and the result agree with the phase (R29, R45, R46): `BUSY`, `DONE` and `ERR` each as R45 says;
`ERRCODE` is 0 unless `ERR` is set, when it is one of the four codes (R301); `RESULT` is 0 outside `DONE`, and there
too after a print job. -/
abbrev State.flagsAgree (s : State) : Prop :=
  (s.busy = true ↔ s.phase ≠ .idle ∧ s.phase ≠ .done ∧ s.phase ≠ .failed) ∧
  (s.done = true ↔ s.phase = .done) ∧
  (s.err = true ↔ s.phase = .failed) ∧
  (s.err = false → s.errcode = 0) ∧
  (s.err = true → 1 ≤ s.errcode.toNat ∧ s.errcode.toNat ≤ 4) ∧
  (s.phase ≠ .done → s.result = 0) ∧
  (s.phase = .done → s.jMode = 2 → s.result = 0)

/-- An event a real environment can present: a host command, the reset, or a choice of agent, but no unit
operation code, which only the block's own sequencers issue (R90, R98). -/
def Event.fromOutside : Event → Bool
  | .command (.unit _ _) => false
  | .command (.ctrl _)   => true
  | .command (.reg _)    => true
  | .reset               => true
  | .turn _              => true

/-- Only events a real environment can present are to come. -/
abbrev State.hardwired (s : State) : Prop := ∀ e ∈ s.events, e.fromOutside = true

/-- A worker that holds a segment. -/
abbrev Worker.busy (k : Worker) : Prop := k.wphase ≠ .idle

/-- A worker that holds the turn at the gate (R260). -/
abbrev Worker.holdsTurn (k : Worker) : Prop := k.wphase = .emit ∨ k.wphase = .pass

/-- How many workers hold a segment. -/
def State.busyCount (s : State) : Nat := s.workers.countP fun k => k.wphase != .idle

/-- The phases in which the counters are the present job's: after `SCH.CONFIG` cleared them (R281), until the join. -/
abbrev Phase.counting (p : Phase) : Prop := p = .oracle ∨ p = .template ∨ p = .parallel ∨ p = .join

/-- The invariants of the parallel region (R260, R265). -/
structure State.gateSafe (s : State) : Prop where
  /-- workers are idle outside phase `PARALLEL` (R310) -/
  idleOutside    : s.phase ≠ .parallel → ∀ k ∈ s.workers, k.wphase = .idle
  /-- `OBUF[w]` is empty but between `AGG.PRINT` and the end of the emission (R265 a) -/
  emptyBuffers   : ∀ k ∈ s.workers, k.wphase ≠ .gate → k.wphase ≠ .emit → k.wphase ≠ .retire → k.obuf = []
  /-- only dispatched segments are held (R250) -/
  dispatched     : ∀ k ∈ s.workers, k.busy → k.segN.toNat < s.nextDispatch.toNat
  /-- a segment is held by one worker (R260, R265 e) -/
  distinct       : ∀ (v w : Nat) (k l : Worker), s.workers[v]? = some k → s.workers[w]? = some l →
                     k.busy → l.busy → k.segN = l.segN → v = w
  /-- the worker that holds the turn holds segment `NEXT_TICKET` (R260) -/
  turnIsTicket   : ∀ k ∈ s.workers, k.holdsTurn → k.segN = s.nextTicket
  /-- `RETIRED` and the segments in work make up `NEXT_DISPATCH`, at most `NUM_SEGMENTS` (R265 b) -/
  retiredCount   : s.phase.counting →
                     s.retired.toNat + s.busyCount = s.nextDispatch.toNat ∧ s.nextDispatch.toNat ≤ s.numSegments.toNat
  /-- the gate is used in print mode only (R265 d) -/
  gateInPrint    : ∀ k ∈ s.workers, k.holdsTurn ∨ k.wphase = .gate ∨ k.wphase = .retire → s.jMode = 2
  /-- the reduction is used in the other modes only (R31) -/
  reduceNotPrint : ∀ k ∈ s.workers, k.wphase = .reduce → s.jMode ≠ 2
  /-- `FAIL` is set in print mode only (R265 d) -/
  failInPrint    : s.phase.counting → s.failFlag = true → s.jMode = 2
  /-- a worker drops its bytes only after a failed write (R261, R262) -/
  retireFailed   : ∀ k ∈ s.workers, k.wphase = .retire → s.failFlag = true
  /-- in print mode without failure `NEXT_TICKET` is `RETIRED` (R265 c) -/
  ticketRetired  : s.phase.counting → s.jMode = 2 → s.failFlag = false → s.nextTicket = s.retired
  /-- once `FAIL` is set no worker holds the turn, so nothing more is written (R262, R265 d) -/
  noWriteAfter   : s.failFlag = true → ∀ k ∈ s.workers, ¬ k.holdsTurn
  /-- no segment below `NEXT_TICKET` is still in work, nor, once `FAIL` is set, the one whose write failed, unless its worker
  is about to drop its bytes (R265 c, R264) -/
  heldAbove      : s.phase.counting → s.jMode = 2 → ∀ k ∈ s.workers, k.busy →
                     s.nextTicket.toNat ≤ k.segN.toNat ∧
                     (s.failFlag = true → k.segN = s.nextTicket → k.wphase = .retire)

/-- The bytes of the segments below `NEXT_TICKET`, in segment order, `text n` being those of segment `n`. -/
def State.passedText (s : State) (text : Nat → List Byte) : List Byte :=
  (List.range s.nextTicket.toNat).flatMap text

/-- What the sink holds during a job that found `base` in it, `text n` being the bytes `AGG.PRINT` leaves for segment `n`: the
whole bytes of exactly the segments below `NEXT_TICKET`, in segment order, then those that the worker holding the turn has
emitted (R265 c, R260, R72 d), and after a failed write a proper beginning of that segment's (R271). -/
structure State.streamed (s : State) (base : List Byte) (text : Nat → List Byte) : Prop where
  /-- a worker at the gate holds the whole bytes of its segment -/
  waiting  : ∀ k ∈ s.workers, k.wphase = .gate → k.obuf = text k.segN.toNat
  /-- between two emissions the sink holds exactly the segments below `NEXT_TICKET` -/
  passed   : s.phase.counting → s.failFlag = false → (∀ k ∈ s.workers, ¬ k.holdsTurn) →
               s.sink = base ++ s.passedText text
  /-- during an emission also what has left the buffer -/
  emitting : ∀ k ∈ s.workers, k.holdsTurn →
               ∃ out, out ++ k.obuf = text k.segN.toNat ∧ s.sink = base ++ s.passedText text ++ out
  /-- after a failed write also what was written before it -/
  failed   : s.phase.counting → s.failFlag = true →
               ∃ out rest, rest ≠ [] ∧ out ++ rest = text s.nextTicket.toNat ∧ s.sink = base ++ s.passedText text ++ out

/-! ## A job whose tables are built -/

/-- What holds in phase `PARALLEL` of a legal job: the latched arguments are in the domain (R248), the configuration
registers hold what `SCH.CONFIG` computes (R241), and the tables hold what the builds leave (R172, R178,
R181). -/
structure State.tablesReady (s : State) : Prop where
  startPos    : 1 ≤ s.jStart.toNat
  startStop   : s.jStart.toNat ≤ s.jStop.toNat
  stopLegal   : s.jStop.toNat ≤ stopMax
  startAdj    : s.startAdj.toNat = startAdjOf s.jStart.toNat
  nseed       : s.nseed.toNat = nseedOf s.jStop.toNat
  width       : modulusOf s.jStop.toNat ∣ s.stepSize.toNat
  widthPos    : 0 < s.stepSize.toNat
  widthBound  : s.stepSize.toNat < 2 ^ 62
  mtpl        : s.mtpl.toNat = s.stepSize.toNat / 3
  segments    : s.numSegments.toNat = (s.jStop.toNat - s.startAdj.toNat) / s.stepSize.toNat + 1
  resume      : s.resumeOk
  capacity    : s.mtpl.toNat + 1 ≤ s.params.segCapBits
  qtab        : s.qtab.toNat ≤ isqrt s.jStop.toNat / 3
  sptWf       : s.spt.wf
  sptLength   : s.spt.n.toNat = s.qtab.toNat + 2
  sptContent  : ∀ i, 1 ≤ i → i ≤ s.qtab.toNat →
                  (s.spt.bit i = true ↔ 1 < wheelVal i ∧ ∀ d, d ∣ wheelVal i → d = 1 ∨ d = wheelVal i)
  pstWf       : s.pst.wf
  pstLength   : s.pst.n.toNat = s.mtpl.toNat + 1
  pstZero     : s.pst.bit 0 = false
  pstContent  : ∀ L, 1 ≤ L → L ≤ s.mtpl.toNat →
                  (s.pst.bit L = true ↔
                    ∀ p ∈ seedPrimes s.nseed.toNat, ¬ p ∣ wheelVal ((s.startAdj.toNat - 1) / 3 + L))

end Sys2Proof.Machine
end

