-- ==== Sys2Proof/Certificates/Slice0/Obligations.lean ====
section
/-! DEFINITION. The statements for the provers, from the numbered rules of spec/ in the order of its files: decoding,
the sequencers, the bitsets, the wheel and its recurrence, the tables, the segment engine, the aggregator, the
scheduler and the gate, the host commands, reset, and the invariants every step keeps. -/

open Sys2Proof Sys2Proof.Machine

/-! ## Commands (30_encoding.md) -/

/-- Decoding inverts encoding on every well-formed operation; every word of a format's width is a command of that
format; and a register access or a `CTRL` value laid out as bytes decodes to itself. The layout is the model's choice
(notes/assumptions/4 and 5). -/
def Obligations.EncodedOperationDecodesToItself : Prop :=
  (∀ i : Instr, i.wellFormed = true → decode (encode i) = .ok i) ∧
  (∀ w < 2 ^ 8, tableCommand 8 w = some (.unit (BitVec.ofNat 8 w) {})) ∧
  (∀ w < 2 ^ 64, tableCommand 64 w = some (.ctrl (BitVec.ofNat 64 w))) ∧
  (∀ w < 2 ^ 72, tableCommand 72 w = some (.reg (BitVec.ofNat 72 w))) ∧
  (∀ (off : BitVec 7) (data : Word), decodeTableWord 72 (regAccess true off data).toNat = some (.hostWr off data)) ∧
  (∀ off : BitVec 7, decodeTableWord 72 (regAccess false off 0).toNat = some (.hostRd off)) ∧
  (∀ data : Word, decodeTableWord 64 data.toNat = some (decodeCtrl data))

/-- R98: a code that R95 does not list is refused by the decoder, whatever the wires and the state; the listed ones
decode; and the sequencers issue none but listed ones. -/
def Obligations.UnassignedUnitCodesAreRefused : Prop :=
  (∀ (code : Byte) (k : Wires), code.toNat ∉ unitCodes →
    decodeUnit code k = .error (.unassignedCode code) ∧
    ∀ s : State, runCommand (.unit code k) s = .refused (.unassignedCode code)) ∧
  (∀ (code : Byte) (k : Wires), code.toNat ∈ unitCodes → ∃ i, decodeUnit code k = .ok i) ∧
  (∀ (p : Phase) (c : Nat), controllerCode p = some c → c ∈ unitCodes) ∧
  (∀ (p : WPhase) (m : BitVec 2) (c : Nat), workerCode p m = some c → c ∈ unitCodes)

/-- Words written out from R91, R92 and R95: one or more of every unit and every host format. The wires at
rest and the packing of a register access are the model's choice (notes/assumptions/4 and 5). -/
def Obligations.WrittenWordsDecode : Prop :=
  decodeTableWord 8 0b00010111 = some (.bsClrr .spt 0 0) ∧
  decodeTableWord 8 0b00100001 = some (.wcEnc 0) ∧
  decodeTableWord 8 0b00110101 = some (.wmLoad 0) ∧
  decodeTableWord 8 0b01000001 = some .tplBuild ∧
  decodeTableWord 8 0b01010011 = some (.segSieve 0) ∧
  decodeTableWord 8 0b01100011 = some (.fmtDec 0 2) ∧
  decodeTableWord 8 0b01110111 = some .schJoin ∧
  decodeTableWord 64 0b011 = some .sieveSum ∧
  decodeTableWord 64 0b100 = some (.ctrlMode 2) ∧
  decodeTableWord 72 (0b1 + 2 * 0x18 + 256 * 510510) = some (.hostWr 0x18 510510) ∧
  decodeTableWord 72 (0b0 + 2 * 0x20) = some (.hostRd 0x20)

/-- R92: a value written to `CTRL` decodes by its bits 2..0 alone. -/
def Obligations.ControlWordDecodesByLowThreeBits : Prop :=
  ∀ data : Word,
    (data &&& 7 = 1 → decodeCtrl data = .sieveCount) ∧
    (data &&& 7 = 3 → decodeCtrl data = .sieveSum) ∧
    (data &&& 7 = 5 → decodeCtrl data = .sievePrint) ∧
    (data &&& 7 = 7 → decodeCtrl data = .sieveRsvd) ∧
    (data &&& 7 = 0 → decodeCtrl data = .ctrlMode 0) ∧
    (data &&& 7 = 2 → decodeCtrl data = .ctrlMode 1) ∧
    (data &&& 7 = 4 → decodeCtrl data = .ctrlMode 2) ∧
    (data &&& 7 = 6 → decodeCtrl data = .ctrlMode 3)

/-! ## The step and the sequencers (10_state.md) -/

/-- A step runs the decoded operation of the command presented next, taken off the list, and does nothing around it;
the table word stored by `withFetchWord` is that command. That commands are presented so is the model's choice
(notes/assumptions/3). -/
def Obligations.StepRunsThePresentedCommand : Prop :=
  (∀ (s : State) (c : Command) (rest : List Event) (i : Instr), s.events = .command c :: rest → decode c = .ok i →
    step s = exec i { s with events := rest }) ∧
  (∀ (s : State) (nbits w : Nat) (i : Instr), decodeTableWord nbits w = some i →
    step (s.withFetchWord nbits w) = exec i s) ∧
  (∀ (s : State) (t : Turn) (rest : List Event), s.events = .turn t :: rest →
    step s = takeTurn t { s with events := rest }) ∧
  (∀ (s : State) (rest : List Event), s.events = .reset :: rest →
    step s = .next ({ s with events := rest } : State).externalReset)

/-- R30: what the controller's turn does in each phase, and the join condition of R270. That a turn answers the same state in
`PARALLEL` where that condition fails, and in `IDLE`, `DONE` and `FAILED`, is the model's choice (DESIGN CHOICE,
notes/assumptions/7): there the spec gives no step. -/
def Obligations.ControllerTurnFollowsPhaseTable : Prop :=
  ∀ s : State,
    (s.phase = .check → takeTurn .controller s = exec .schCheck s) ∧
    (s.phase = .config → takeTurn .controller s = exec .schConfig s) ∧
    (s.phase = .oracle → takeTurn .controller s =
      Res.bind (exec .orcBuild s) fun t => .next { t with phase := .template }) ∧
    (s.phase = .template → takeTurn .controller s =
      Res.bind (exec .tplBuild s) fun t => .next { t with phase := .parallel }) ∧
    (s.phase = .parallel →
      (∀ k ∈ s.workers, k.wphase = .idle) ∧ (s.nextDispatch = s.numSegments ∨ s.failFlag = true) →
      takeTurn .controller s = .next { s with phase := .join }) ∧
    (s.phase = .parallel →
      ¬((∀ k ∈ s.workers, k.wphase = .idle) ∧ (s.nextDispatch = s.numSegments ∨ s.failFlag = true)) →
      takeTurn .controller s = .next s) ∧
    (s.phase = .join → takeTurn .controller s = exec .schJoin s) ∧
    (s.phase = .idle ∨ s.phase = .done ∨ s.phase = .failed → takeTurn .controller s = .next s)

/-- R31: in phase `PARALLEL`, what worker `w`'s turn does in each of its phases, and that a hand-out is `SCH.DISPATCH`; in every
other phase of the controller neither does anything (R30). That the turn of an idle worker, and a turn in those other phases,
answer the same state is the model's choice (DESIGN CHOICE, notes/assumptions/7): there the spec gives no step. -/
def Obligations.WorkerTurnFollowsPhaseTable : Prop :=
  (∀ (s : State) (w : Nat), s.phase ≠ .parallel →
    takeTurn (.worker w) s = .next s ∧ takeTurn (.dispatch w) s = .next s) ∧
  ∀ (s : State) (w : Nat) (k : Worker), s.workers[w]? = some k → s.phase = .parallel →
    let moved (i : Instr) (p : WPhase) : Res State :=
      Res.bind (exec i s) fun t =>
        .next { t with workers := t.workers.modify w fun k => { k with wphase := p } }
    (k.wphase = .idle → takeTurn (.worker w) s = .next s) ∧
    (k.wphase = .setup → takeTurn (.worker w) s = moved (.segSetup w) .copy) ∧
    (k.wphase = .copy → takeTurn (.worker w) s = moved (.segCopy w) .clip) ∧
    (k.wphase = .clip → takeTurn (.worker w) s = moved (.segClip w) .sieve) ∧
    (k.wphase = .sieve → takeTurn (.worker w) s = moved (.segSieve w) .agg) ∧
    (k.wphase = .agg → s.jMode = 0 → takeTurn (.worker w) s = moved (.aggCount w) .reduce) ∧
    (k.wphase = .agg → s.jMode = 1 → takeTurn (.worker w) s = moved (.aggSum w) .reduce) ∧
    (k.wphase = .agg → s.jMode = 2 → takeTurn (.worker w) s = moved (.aggPrint w) .gate) ∧
    (k.wphase = .reduce → takeTurn (.worker w) s = exec (.schReduce w) s) ∧
    (k.wphase = .gate → takeTurn (.worker w) s = exec (.gateWait w) s) ∧
    (k.wphase = .emit → takeTurn (.worker w) s = exec (.gateEmit w) s) ∧
    (k.wphase = .pass → takeTurn (.worker w) s = exec (.gatePass w) s) ∧
    (k.wphase = .retire → takeTurn (.worker w) s = exec (.schFail w) s) ∧
    takeTurn (.dispatch w) s = exec (.schDispatch w) s

/-- R30, R31: whatever the host does and whichever agent moves, a step moves the controller and every worker along
the transitions of their tables only, unless it is the external reset; it never changes a parameter or the number of
workers. -/
def Obligations.PhasesMoveOnlyAlongTheirTables : Prop :=
  ∀ s t : State, s.hardwired → s.flagsAgree → step s = .next t →
    (s.events.head? = some .reset ∨
      ((t.phase = s.phase ∨ (s.phase, t.phase) ∈ phaseMoves) ∧
       ∀ (w : Nat) (k l : Worker), s.workers[w]? = some k → t.workers[w]? = some l →
         l.wphase = k.wphase ∨ (k.wphase, l.wphase) ∈ workerMoves)) ∧
    t.params = s.params ∧ t.workers.length = s.workers.length

/-- R250, R261, R262, R335: a hand-out that is not enabled, a worker whose turn at the gate has not come, a byte the
sink has not answered, and a quiescent phase change nothing (notes/assumptions/7). -/
def Obligations.WaitingChangesNothing : Prop :=
  ∀ s : State,
    (∀ (w : Nat) (k : Worker), s.workers[w]? = some k →
      (s.phase ≠ .parallel ∨ k.wphase ≠ .idle ∨ s.numSegments.toNat ≤ s.nextDispatch.toNat ∨ s.failFlag = true →
        exec (.schDispatch w) s = .next s) ∧
      (s.failFlag = false → s.nextTicket ≠ k.segN → exec (.gateWait w) s = .next s) ∧
      (k.obuf ≠ [] → s.sinkAnswers = [] → exec (.gateEmit w) s = .next s)) ∧
    (s.phase = .idle ∨ s.phase = .done ∨ s.phase = .failed → s.events = [] → step s = .next s)

/-! ## Bitsets (20_memory.md, 40_densebitset.md) -/

/-- R121: `BS.FILL` sets the length, clears position 0 and sets every other; no other bitset and nothing else
changes. -/
def Obligations.FillSetsAllButPositionZero : Prop :=
  (∀ k : Wires, decodeUnit 0x10 k = .ok (.bsFill k.x k.len)) ∧
  ∀ (s : State) (X : BitsetId) (n : Word) (B : Bitset), s.bitset? X = some B →
    1 ≤ n.toNat → n.toNat ≤ s.capacity X →
    ∃ (t : State) (C : Bitset), exec (.bsFill X n) s = .next t ∧ s.onlyBitset t X C ∧ C.wf ∧ C.n = n ∧
      C.bit 0 = false ∧ ∀ p, 1 ≤ p → p < n.toNat → C.bit p = true

/-- R122: `BS.GET` returns the bit and writes nothing. -/
def Obligations.GetReturnsTheBit : Prop :=
  (∀ k : Wires, decodeUnit 0x11 k = .ok (.bsGet k.x k.p)) ∧
  ∀ (s : State) (X : BitsetId) (p : Word) (B : Bitset), s.bitset? X = some B → p.toNat < B.n.toNat →
    exec (.bsGet X p) s = .next { s with ret := [if B.bit p.toNat then 1 else 0] }

/-- R123: `BS.SET` sets its position and no other cell; setting a set bit changes nothing. -/
def Obligations.SetTurnsOnOnePosition : Prop :=
  (∀ k : Wires, decodeUnit 0x12 k = .ok (.bsSet k.x k.p)) ∧
  ∀ (s : State) (X : BitsetId) (p : Word) (B : Bitset), s.bitset? X = some B → B.wf → p.toNat < B.n.toNat →
    (∃ (t : State) (C : Bitset), exec (.bsSet X p) s = .next t ∧ s.onlyBitset t X C ∧ C.wf ∧ C.n = B.n ∧
      ∀ q, C.bit q = if q = p.toNat then true else B.bit q) ∧
    (B.bit p.toNat = true → exec (.bsSet X p) s = .next s)

/-- R124: `BS.CLR` clears its position and no other cell; clearing a clear bit changes nothing; two clears of one
bitset give the same state in either order. -/
def Obligations.ClearTurnsOffOnePositionAndCommutes : Prop :=
  (∀ k : Wires, decodeUnit 0x13 k = .ok (.bsClr k.x k.p)) ∧
  ∀ (s : State) (X : BitsetId) (p : Word) (B : Bitset), s.bitset? X = some B → B.wf → p.toNat < B.n.toNat →
    (∃ (t : State) (C : Bitset), exec (.bsClr X p) s = .next t ∧ s.onlyBitset t X C ∧ C.wf ∧ C.n = B.n ∧
      ∀ q, C.bit q = if q = p.toNat then false else B.bit q) ∧
    (B.bit p.toNat = false → exec (.bsClr X p) s = .next s) ∧
    (∀ q : Word, q.toNat < B.n.toNat → runOps [.bsClr X p, .bsClr X q] s = runOps [.bsClr X q, .bsClr X p] s)

/-- R62, R49 with U4, U9: an access to a bit, a byte or a host register that does not exist is refused by name: by the unit-1
operations, `WM.MARK`, `ORC.TEST`, `HOST.RD` and `HOST.WR`, and through them by `SEG.CLIP`, `SEG.SIEVE`, `AGG.SUM` and
`AGG.PRINT`. So is a length outside 1 ... capacity, by `BS.FILL`, `BS.COPY`, the two builds and `SEG.COPY`; and a worker the
block does not have, by every operation that takes one. The lengths, the workers and a `MJ` below the offset are the model's
treatment (DEDUCED, notes/assumptions/12). -/
def Obligations.AccessesOutsideAreRefused : Prop :=
  (∀ (s : State) (X : BitsetId) (B : Bitset), s.bitset? X = some B →
    (∀ p : Word, B.n.toNat ≤ p.toNat →
      exec (.bsGet X p) s = .refused .outsideBitset ∧ exec (.bsSet X p) s = .refused .outsideBitset ∧
      exec (.bsClr X p) s = .refused .outsideBitset) ∧
    (∀ (b : Word) (v : Byte), (B.n.toNat + 7) / 8 ≤ b.toNat → exec (.bsPutb X b v) s = .refused .outsideBitset) ∧
    (∀ lo hi : Word, lo.toNat ≤ hi.toNat → B.n.toNat ≤ hi.toNat →
      exec (.bsClrr X lo hi) s = .refused .outsideBitset) ∧
    (∀ n : Word, n = 0 ∨ s.capacity X < n.toNat → exec (.bsFill X n) s = .refused .lengthOutsideCapacity) ∧
    (∀ (Y : BitsetId) (A : Bitset), s.bitset? Y = some A → s.capacity Y < B.n.toNat →
      exec (.bsCopy Y X) s = .refused .lengthOutsideCapacity) ∧
    (∀ (M : MarkerId) (m : Marker) (joff mx : Word), s.marker? M = some m →
      m.j.toNat < joff.toNat ∨
        (joff.toNat ≤ m.j.toNat ∧ m.j.toNat - joff.toNat ≤ mx.toNat ∧ B.n.toNat ≤ m.j.toNat - joff.toNat) →
      exec (.wmMark M X joff mx) s = .refused .outsideBitset)) ∧
  (∀ s : State,
    (∀ i : Word, i.toNat ≤ s.qtab.toNat → s.spt.n.toNat ≤ i.toNat → exec (.orcTest i) s = .refused .outsideBitset) ∧
    (s.params.sptCapBits < s.qtab.toNat + 2 → exec .orcBuild s = .refused .lengthOutsideCapacity) ∧
    (s.params.segCapBits < s.mtpl.toNat + 1 → exec .tplBuild s = .refused .lengthOutsideCapacity)) ∧
  (∀ (s : State) (w : Nat) (k : Worker), s.workers[w]? = some k →
    (s.params.segCapBits < s.pst.n.toNat → exec (.segCopy w) s = .refused .lengthOutsideCapacity) ∧
    (k.segN.toNat + 1 = s.numSegments.toNat → k.mseg.toNat + 1 ≤ s.mtpl.toNat → k.sb.n.toNat ≤ s.mtpl.toNat →
      exec (.segClip w) s = .refused .outsideBitset) ∧
    (s.ri.toNat ≤ k.q.toNat → s.ri.toNat ≤ s.qtab.toNat → s.spt.n.toNat ≤ s.ri.toNat →
      exec (.segSieve w) s = .refused .outsideBitset) ∧
    (1 ≤ k.mseg.toNat → k.sb.n.toNat ≤ k.mseg.toNat →
      exec (.aggSum w) s = .refused .outsideBitset ∧ exec (.aggPrint w) s = .refused .outsideBitset)) ∧
  (∀ (s : State) (w : Nat), s.workers.length ≤ w →
    (∀ i ∈ workerOperations w, exec i s = .refused (.noSuchWorker w)) ∧
    (∀ (n p lo hi b i joff v : Word) (c : Byte),
      ∀ j ∈ [Instr.bsFill (.sb w) n, .bsGet (.sb w) p, .bsSet (.sb w) p, .bsClr (.sb w) p, .bsPutb (.sb w) b c,
        .bsClrr (.sb w) lo hi, .wcDec (.segment w) i, .wmSeek (.m w) joff, .fmtDec w v],
      exec j s = .refused (.noSuchWorker w)) ∧
    (∀ Y : BitsetId, exec (.bsCopy (.sb w) Y) s = .refused (.noSuchWorker w)) ∧
    (∀ (X : BitsetId) (B : Bitset), s.bitset? X = some B → exec (.bsCopy X (.sb w)) s = .refused (.noSuchWorker w)) ∧
    (∀ (X : BitsetId) (joff mx : Word), exec (.wmMark (.m w) X joff mx) s = .refused (.noSuchWorker w)) ∧
    (∀ (M : MarkerId) (m : Marker) (joff mx : Word), s.marker? M = some m →
      exec (.wmMark M (.sb w) joff mx) s = .refused (.noSuchWorker w))) ∧
  (∀ (s : State) (off : BitVec 7) (data : Word), off.toNat % 8 ≠ 0 ∨ 0x50 < off.toNat →
    exec (.hostRd off) s = .refused (.outsideInterface off) ∧
    exec (.hostWr off data) s = .refused (.outsideInterface off))

/-- R125: `BS.COPY` makes the destination equal to the source, length and bits, and changes nothing else. That it completes for
a destination of any length, where U4 would refuse one of another length, follows R125 and is the model's reading of the two
(DEDUCED, notes/assumptions/11). -/
def Obligations.CopyMakesTheDestinationEqual : Prop :=
  (∀ k : Wires, decodeUnit 0x15 k = .ok (.bsCopy k.x k.xsrc)) ∧
  ∀ (s : State) (X Y : BitsetId) (A B : Bitset), s.bitset? X = some A → s.bitset? Y = some B → B.wf →
    B.n.toNat ≤ s.capacity X →
    ∃ t : State, exec (.bsCopy X Y) s = .next t ∧ s.onlyBitset t X B ∧ t.bitset? Y = some B

/-- R126: `BS.PUTB` sets the cells of one byte from the bits of `v`; bits of `v` on pad positions are dropped. -/
def Obligations.PutByteWritesEightPositions : Prop :=
  (∀ k : Wires, decodeUnit 0x16 k = .ok (.bsPutb k.x k.b k.v)) ∧
  ∀ (s : State) (X : BitsetId) (b : Word) (v : Byte) (B : Bitset), s.bitset? X = some B → B.wf →
    b.toNat < (B.n.toNat + 7) / 8 →
    ∃ (t : State) (C : Bitset), exec (.bsPutb X b v) s = .next t ∧ s.onlyBitset t X C ∧ C.wf ∧ C.n = B.n ∧
      (∀ r < 8, 8 * b.toNat + r < B.n.toNat → C.bit (8 * b.toNat + r) = v.getLsbD r) ∧
      (∀ r < 8, B.n.toNat ≤ 8 * b.toNat + r → (C.byte b.toNat).getLsbD r = false) ∧
      (∀ q, q / 8 ≠ b.toNat → C.bit q = B.bit q)

/-- R127: `BS.POPCNT` returns the number of positions that hold 1, below the length where position 0 is clear, equally
the sum over the bytes of their 1 bits, and writes nothing. -/
def Obligations.PopcountCountsTheSetPositions : Prop :=
  (∀ k : Wires, decodeUnit 0x14 k = .ok (.bsPopcnt k.x)) ∧
  ∀ (s : State) (X : BitsetId) (B : Bitset), s.bitset? X = some B → B.wf →
    exec (.bsPopcnt X) s = .next { s with ret := [BitVec.ofNat 64 B.ones] } ∧ B.ones < 2 ^ 64 ∧
    (B.bit 0 = false → B.ones ≤ B.n.toNat - 1) ∧
    B.ones = ((List.range ((B.n.toNat + 7) / 8)).map fun b => (List.range 8).countP fun r => (B.byte b).getLsbD r).sum

/-- R128: `BS.CLRR` clears the positions `lo ... hi` and no other; if `lo > hi` nothing happens. -/
def Obligations.ClearRangeClearsExactlyTheRange : Prop :=
  (∀ k : Wires, decodeUnit 0x17 k = .ok (.bsClrr k.x k.lo k.hi)) ∧
  ∀ (s : State) (X : BitsetId) (lo hi : Word) (B : Bitset), s.bitset? X = some B → B.wf → hi.toNat < B.n.toNat →
    (∃ (t : State) (C : Bitset), exec (.bsClrr X lo hi) s = .next t ∧ s.onlyBitset t X C ∧ C.wf ∧ C.n = B.n ∧
      ∀ q, C.bit q = if lo.toNat ≤ q ∧ q ≤ hi.toNat then false else B.bit q) ∧
    (hi.toNat < lo.toNat → exec (.bsClrr X lo hi) s = .next s)

/-- R130 (a), (b), (c): the population count after a fill, a clear, a set and a copy. That the copy completes for a
destination of any length follows R125 against U4 (DEDUCED, notes/assumptions/11). -/
def Obligations.PopcountFollowsTheBitsetOperations : Prop :=
  ∀ (s : State) (X Y : BitsetId) (A B : Bitset), s.bitset? X = some A → A.wf → s.bitset? Y = some B → B.wf →
    (∀ n : Word, 1 ≤ n.toNat → n.toNat ≤ s.capacity X →
      ∃ (t : State) (C : Bitset), exec (.bsFill X n) s = .next t ∧ t.bitset? X = some C ∧ C.ones = n.toNat - 1) ∧
    (∀ p : Word, p.toNat < A.n.toNat →
      (∃ (t : State) (C : Bitset), exec (.bsClr X p) s = .next t ∧ t.bitset? X = some C ∧
        C.ones + (A.bit p.toNat).toNat = A.ones) ∧
      (∃ (t : State) (C : Bitset), exec (.bsSet X p) s = .next t ∧ t.bitset? X = some C ∧
        C.ones = A.ones + (1 - (A.bit p.toNat).toNat))) ∧
    (B.n.toNat ≤ s.capacity X →
      ∃ (t : State) (C : Bitset), exec (.bsCopy X Y) s = .next t ∧ t.bitset? X = some C ∧ C.ones = B.ones)

/-! ## The wheel and the recurrence (41_wheel_codec_marker.md) -/

/-- R143: `WC.DEC` gives `n_off + 3i + 1 + (i mod 2)`, absolute with `n_off = 0`, local with the segment's `N_OFF`,
and writes nothing. -/
def Obligations.DecodeGivesTheWheelInteger : Prop :=
  (∀ k : Wires, decodeUnit 0x20 k = .ok (.wcDec k.base k.i)) ∧
  ∀ (s : State) (i : Word), 1 ≤ i.toNat →
    (3 * i.toNat + 1 + i.toNat % 2 < 2 ^ 64 →
      exec (.wcDec .absolute i) s = .next { s with ret := [BitVec.ofNat 64 (3 * i.toNat + 1 + i.toNat % 2)] }) ∧
    (∀ (w : Nat) (k : Worker), s.workers[w]? = some k → k.nOff.toNat + 3 * i.toNat + 1 + i.toNat % 2 < 2 ^ 64 →
      exec (.wcDec (.segment w) i) s =
        .next { s with ret := [BitVec.ofNat 64 (k.nOff.toNat + 3 * i.toNat + 1 + i.toNat % 2)] })

/-- R144 with R142: `WC.ENC` gives `n div 3` and writes nothing; it is the inverse of `WC.DEC` exactly on the wheel
integers, and `WC.DEC` its own on every index. -/
def Obligations.EncodeInvertsDecodeOnTheWheel : Prop :=
  (∀ k : Wires, decodeUnit 0x21 k = .ok (.wcEnc k.n)) ∧
  (∀ (s : State) (n : Word), exec (.wcEnc n) s = .next { s with ret := [BitVec.ofNat 64 (n.toNat / 3)] }) ∧
  (∀ n : Nat, 5 ≤ n → (wheelVal (wheelEncode n) = n ↔ n % 6 = 1 ∨ n % 6 = 5)) ∧
  (∀ i : Nat, 1 ≤ i → wheelEncode (wheelVal i) = i ∧ 5 ≤ wheelVal i ∧ (wheelVal i % 6 = 1 ∨ wheelVal i % 6 = 5))

/-- R146, R154: `WM.INIT` and `WM.LOAD` set `MI`, `MC`, `MK`, `MT`; `MJ` and `MIJ` and everything else stay. -/
def Obligations.InitAndLoadSetTheMarkerState : Prop :=
  (∀ k : Wires, decodeUnit 0x30 k = .ok (.wmInit k.marker) ∧ decodeUnit 0x35 k = .ok (.wmLoad k.w)) ∧
  (∀ (s : State) (M : MarkerId) (m : Marker), s.marker? M = some m →
    ∃ t : State, exec (.wmInit M) s = .next t ∧ s.onlyMarker t M { m with i := 1, c := 0, k := 1, t := 2 }) ∧
  (∀ (s : State) (w : Nat) (k : Worker), s.workers[w]? = some k →
    ∃ t : State, exec (.wmLoad w) s = .next t ∧
      s.onlyWorker t w { k with m := { k.m with i := s.ri, c := s.rc, k := s.rk, t := s.rt } })

/-- R147: `WM.NEXT`, every right-hand `k` being the new one, where no register overflows (R160). -/
def Obligations.NextAdvancesTheRecurrence : Prop :=
  (∀ k : Wires, decodeUnit 0x31 k = .ok (.wmNext k.marker)) ∧
  ∀ (s : State) (M : MarkerId) (m : Marker), s.marker? M = some m →
    m.i.toNat + 1 < 2 ^ 32 → m.c.toNat + 4 * (3 - m.k.toNat) * m.i.toNat < 2 ^ 64 →
    m.t.toNat + 4 * (3 - m.k.toNat) < 2 ^ 64 →
    ∃ (t : State) (n : Marker), exec (.wmNext M) s = .next t ∧
      ({ s with ret := [m.i.setWidth 64, n.j, n.ij] } : State).onlyMarker t M n ∧
      n.i.toNat = m.i.toNat + 1 ∧ n.k.toNat = 3 - m.k.toNat ∧
      n.c.toNat = m.c.toNat + 4 * (3 - m.k.toNat) * m.i.toNat ∧
      n.t.toNat = m.t.toNat + 4 * (3 - m.k.toNat) ∧ n.j = n.c ∧
      n.ij.toNat = 2 * m.i.toNat * (3 - (3 - m.k.toNat)) + 1

/-- R148: the closed forms after `WM.INIT` and `i` times `WM.NEXT`, for every index a legal job reaches (R160). -/
def Obligations.RecurrenceHasItsClosedForm : Prop :=
  ∀ (s : State) (M : MarkerId) (m : Marker) (i : Nat), s.marker? M = some m → 1 ≤ i → i ≤ 1431655765 →
    ∃ (t : State) (n : Marker), runOps (.wmInit M :: List.replicate i (.wmNext M)) s = .next t ∧
      t.marker? M = some n ∧ n.i.toNat = i + 1 ∧
      n.k.toNat = (if i % 2 = 1 then 2 else 1) ∧
      n.c.toNat = (3 * i + 1 + i % 2) ^ 2 / 3 ∧
      n.c.toNat = (if i % 2 = 1 then 3 * i ^ 2 + 4 * i + 1 else 3 * i ^ 2 + 2 * i) ∧
      n.t.toNat = 2 * (3 * i + 1 + i % 2) ∧ n.j = n.c ∧
      n.ij.toNat = (if i % 2 = 1 then 2 * i + 1 else 4 * i + 1) ∧
      n.t.toNat - n.ij.toNat = (if i % 2 = 1 then 4 * i + 3 else 2 * i + 1)

/-- R149: `WM.STEP`; two steps advance `MJ` by `MT` and restore `MIJ`. -/
def Obligations.StrideAdvancesAndSwaps : Prop :=
  (∀ k : Wires, decodeUnit 0x33 k = .ok (.wmStep k.marker)) ∧
  ∀ (s : State) (M : MarkerId) (m : Marker), s.marker? M = some m → m.ij.toNat ≤ m.t.toNat →
    m.j.toNat + m.t.toNat < 2 ^ 64 →
    (∃ t : State, exec (.wmStep M) s = .next t ∧ s.onlyMarker t M { m with j := m.j + m.ij, ij := m.t - m.ij }) ∧
    (∃ t : State, runOps [.wmStep M, .wmStep M] s = .next t ∧ s.onlyMarker t M { m with j := m.j + m.t })

/-- R151: `WM.SEEK`, its two jumps written out. -/
def Obligations.SeekMakesAtMostTwoJumps : Prop :=
  (∀ k : Wires, decodeUnit 0x32 k = .ok (.wmSeek k.marker k.joff)) ∧
  ∀ (s : State) (M : MarkerId) (m : Marker) (joff : Word), s.marker? M = some m → 0 < m.t.toNat →
    m.ij.toNat ≤ m.t.toNat → joff.toNat + m.t.toNat < 2 ^ 64 →
    let first := m.j.toNat + (joff.toNat - m.j.toNat) / m.t.toNat * m.t.toNat + m.ij.toNat
    (joff.toNat ≤ m.j.toNat → exec (.wmSeek M joff) s = .next s) ∧
    (m.j.toNat < joff.toNat → joff.toNat ≤ first →
      ∃ t : State, exec (.wmSeek M joff) s = .next t ∧
        s.onlyMarker t M { m with j := BitVec.ofNat 64 first, ij := m.t - m.ij }) ∧
    (m.j.toNat < joff.toNat → first < joff.toNat →
      ∃ t : State, exec (.wmSeek M joff) s = .next t ∧
        s.onlyMarker t M { m with j := BitVec.ofNat 64 (first + (m.t.toNat - m.ij.toNat)) })

/-- R152: after `WM.SEEK` in the middle of a walk, `MJ` is a member of the walk at or above `joff`, `MIJ` is the stride
to the next member, and no member above `joff` was skipped. -/
def Obligations.SeekSkipsNothingAboveTheOffset : Prop :=
  ∀ (s : State) (M : MarkerId) (m : Marker) (joff : Word), s.marker? M = some m → m.walking →
    joff.toNat + m.t.toNat < 2 ^ 64 → m.j.toNat + m.t.toNat < 2 ^ 64 →
    ∃ (t : State) (n : Marker) (r : Nat), exec (.wmSeek M joff) s = .next t ∧ s.onlyMarker t M n ∧ n.walking ∧
      n = { m with j := n.j, ij := n.ij } ∧ joff.toNat ≤ n.j.toNat ∧
      n.j.toNat = walkMember m.j.toNat m.ij.toNat m.t.toNat r ∧
      n.j.toNat + n.ij.toNat = walkMember m.j.toNat m.ij.toNat m.t.toNat (r + 1) ∧
      ∀ q < r, walkMember m.j.toNat m.ij.toNat m.t.toNat q ≤ joff.toNat

/-- R153: `WM.MARK` in the middle of a walk completes, clears exactly the local positions up to `mx` that the walk visits,
leaves `MJ` at the first member beyond and `MIJ` at the stride to the next member, and changes nothing else. -/
def Obligations.MarkClearsExactlyTheWalk : Prop :=
  (∀ k : Wires, decodeUnit 0x34 k = .ok (.wmMark k.marker k.x k.joff k.mx)) ∧
  ∀ (s : State) (M : MarkerId) (X : BitsetId) (m : Marker) (B : Bitset) (joff mx : Word),
    s.marker? M = some m → s.bitset? X = some B → m.walking → B.wf → joff.toNat ≤ m.j.toNat →
    mx.toNat < B.n.toNat → joff.toNat + mx.toNat + m.t.toNat < 2 ^ 64 →
    ∃ (t : State) (n : Marker) (C : Bitset) (r : Nat), exec (.wmMark M X joff mx) s = .next t ∧
      t = (s.putMarker M n).putBitset X C ∧ t.marker? M = some n ∧ t.bitset? X = some C ∧
      (∀ N, N ≠ M → t.marker? N = s.marker? N) ∧ (∀ Y, Y ≠ X → t.bitset? Y = s.bitset? Y) ∧
      n = { m with j := n.j, ij := n.ij } ∧ n.walking ∧
      n.j.toNat = walkMember m.j.toNat m.ij.toNat m.t.toNat r ∧
      n.j.toNat + n.ij.toNat = walkMember m.j.toNat m.ij.toNat m.t.toNat (r + 1) ∧ joff.toNat + mx.toNat < n.j.toNat ∧
      (∀ q < r, walkMember m.j.toNat m.ij.toNat m.t.toNat q ≤ joff.toNat + mx.toNat) ∧
      C.wf ∧ C.n = B.n ∧
      ∀ p, C.bit p = true ↔
        B.bit p = true ∧ ¬(p ≤ mx.toNat ∧ ∃ q, joff.toNat + p = walkMember m.j.toNat m.ij.toNat m.t.toNat q)

/-! ## The tables (42_oracle_template.md) -/

/-- R171, R172: `ORC.BUILD` leaves in `SPT` exactly the primes among the indices up to `QTAB`; position 0 is clear, the
slack position set; besides `SPT` it writes only `CM`. -/
def Obligations.OracleTableHoldsThePrimes : Prop :=
  (∀ k : Wires, decodeUnit 0x40 k = .ok .orcBuild) ∧
  ∀ s : State, s.qtab.toNat ≤ 1431655765 → s.qtab.toNat + 2 ≤ s.params.sptCapBits →
    ∃ t : State, exec .orcBuild s = .next t ∧ t = { s with spt := t.spt, cm := t.cm } ∧
      t.cm.i.toNat = s.qtab.toNat + 1 ∧ t.spt.wf ∧ t.spt.n.toNat = s.qtab.toNat + 2 ∧ t.spt.bit 0 = false ∧
      t.spt.bit (s.qtab.toNat + 1) = true ∧
      ∀ i, 1 ≤ i → i ≤ s.qtab.toNat → (t.spt.bit i = true ↔ Nat.Prime (3 * i + 1 + i % 2))

/-- R173: `ORC.TEST` answers from the table up to `QTAB` and by the test modulo 5 beyond, writes nothing, and beyond
the table never answers 0 for a prime. -/
def Obligations.OracleTestLooksUpOrFallsBack : Prop :=
  (∀ k : Wires, decodeUnit 0x42 k = .ok (.orcTest k.i)) ∧
  ∀ (s : State) (i : Word), 1 ≤ i.toNat →
    (i.toNat ≤ s.qtab.toNat → i.toNat < s.spt.n.toNat →
      exec (.orcTest i) s = .next { s with ret := [if s.spt.bit i.toNat then 1 else 0] }) ∧
    (s.qtab.toNat < i.toNat →
      exec (.orcTest i) s =
        .next { s with ret := [if (3 * i.toNat + 1 + i.toNat % 2) % 5 ≠ 0 then 1 else 0] }) ∧
    (s.qtab.toNat < i.toNat → 2 ≤ i.toNat → Nat.Prime (3 * i.toNat + 1 + i.toNat % 2) →
      exec (.orcTest i) s = .next { s with ret := [1] })

/-- R176, R178, R179, R181: `TPL.BUILD` leaves in `PST` exactly the positions whose integer no seed prime divides,
position 0 clear, and the documented resume state; besides `PST` and the resume registers it writes only `CM`. -/
def Obligations.TemplateHoldsTheNonMultiplesOfTheSeeds : Prop :=
  (∀ k : Wires, decodeUnit 0x41 k = .ok .tplBuild) ∧
  ∀ s : State, s.nseed.toNat = 5 ∨ s.nseed.toNat = 6 → s.startAdj.toNat % 6 = 1 → 7 ≤ s.mtpl.toNat →
    s.mtpl.toNat < 2 ^ 62 → s.mtpl.toNat + 1 ≤ s.params.segCapBits →
    ∃ t : State, exec .tplBuild s = .next t ∧
      t = { s with pst := t.pst, cm := t.cm, ri := t.ri, rc := t.rc, rk := t.rk, rt := t.rt } ∧ t.resumeOk ∧
      t.cm.i = t.ri ∧ t.cm.c = t.rc ∧ t.cm.k = t.rk ∧ t.cm.t = t.rt ∧
      t.pst.wf ∧ t.pst.n.toNat = s.mtpl.toNat + 1 ∧ t.pst.bit 0 = false ∧
      ∀ L, 1 ≤ L → L ≤ s.mtpl.toNat →
        (t.pst.bit L = true ↔ ∀ p ∈ seedPrimes s.nseed.toNat, ¬ p ∣ wheelVal ((s.startAdj.toNat - 1) / 3 + L))

/-! ## The segment engine (43_segment_engine.md) -/

/-- R191: `SEG.SETUP` for a segment `n < NUM_SEGMENTS` with `1 ≤ low ≤ stop`; it writes the six segment registers and
nothing else. `high` is exact: the sum may need 65 bits (R198). For an aligned `low` the division by 3 is exact and
`J_OFF` even. -/
def Obligations.SetupComputesTheSegment : Prop :=
  (∀ k : Wires, decodeUnit 0x50 k = .ok (.segSetup k.w)) ∧
  ∀ (s : State) (w : Nat) (k : Worker), s.workers[w]? = some k →
    let low := s.startAdj.toNat + s.stepSize.toNat * k.segN.toNat
    let high := min (low + s.stepSize.toNat - 1) s.jStop.toNat
    1 ≤ low → low ≤ s.jStop.toNat → k.segN.toNat < s.numSegments.toNat →
    ∃ (t : State) (l : Worker), exec (.segSetup w) s = .next t ∧ s.onlyWorker t w l ∧
      l = { k with low := l.low, high := l.high, nOff := l.nOff, jOff := l.jOff, q := l.q, mseg := l.mseg } ∧
      l.low.toNat = low ∧ l.high.toNat = high ∧ l.nOff.toNat = low - 1 ∧ l.jOff.toNat = (low - 1) / 3 ∧
      l.q.toNat = Nat.sqrt high / 3 ∧
      (low % 6 = 1 → 3 * l.jOff.toNat = l.nOff.toNat ∧ l.jOff.toNat % 2 = 0) ∧
      (k.segN.toNat + 1 < s.numSegments.toNat → l.mseg = s.mtpl) ∧
      (k.segN.toNat + 1 = s.numSegments.toNat → l.mseg.toNat = mseg (s.jStop.toNat - (low - 1)))

/-- R193: `mseg(D)` is the largest `L` with `3L + 1 + (L mod 2) ≤ D`; it stays below `MTPL` where `D` is at most the
width. -/
def Obligations.LocalEndIsTheLargestPosition : Prop :=
  ∀ D : Nat, 1 ≤ D →
    3 * mseg D + 1 + mseg D % 2 ≤ D ∧ (∀ L : Nat, 3 * L + 1 + L % 2 ≤ D → L ≤ mseg D) ∧
    ∀ width : Nat, 6 ∣ width → D ≤ width → mseg D ≤ width / 3 - 1

/-- R194: `SEG.COPY` copies the template and, in segment 0 only, makes the seed positions visible again: byte 0 becomes
`FE` where `LOW = 1`, else the positions `a - J_OFF` of the seed indices above `J_OFF` are set. -/
def Obligations.CopyRestoresTheSeedsInSegmentZero : Prop :=
  (∀ k : Wires, decodeUnit 0x51 k = .ok (.segCopy k.w)) ∧
  ∀ (s : State) (w : Nat) (k : Worker), s.workers[w]? = some k → s.pst.wf → 8 ≤ s.pst.n.toNat →
    s.pst.n.toNat ≤ s.params.segCapBits →
    ∃ (t : State) (C : Bitset), exec (.segCopy w) s = .next t ∧ s.onlyWorker t w { k with sb := C } ∧ C.wf ∧
      C.n = s.pst.n ∧
      (k.segN ≠ 0 → C = s.pst) ∧
      (k.segN = 0 → k.low = 1 → ∀ p, C.bit p = if p < 8 then decide (1 ≤ p) else s.pst.bit p) ∧
      (k.segN = 0 → k.low ≠ 1 → ∀ p, C.bit p =
        if 1 ≤ p ∧ p + k.jOff.toNat ≤ s.nseed.toNat then true else s.pst.bit p)

/-- R195: `SEG.CLIP` clears positions 1 and 2 of segment 0 where their integers lie below `start`, and in the last
segment every position above `MSEG`, and nothing else. -/
def Obligations.ClipClearsOutsideTheRange : Prop :=
  (∀ k : Wires, decodeUnit 0x52 k = .ok (.segClip k.w)) ∧
  ∀ (s : State) (w : Nat) (k : Worker), s.workers[w]? = some k → k.sb.wf → 3 ≤ k.sb.n.toNat →
    s.mtpl.toNat < k.sb.n.toNat →
    ∃ (t : State) (C : Bitset), exec (.segClip w) s = .next t ∧ s.onlyWorker t w { k with sb := C } ∧ C.wf ∧
      C.n = k.sb.n ∧
      ∀ p, C.bit p = true ↔ k.sb.bit p = true ∧
        ¬(k.segN = 0 ∧ p = 1 ∧ k.nOff.toNat + 5 < s.jStart.toNat) ∧
        ¬(k.segN = 0 ∧ p = 2 ∧ k.nOff.toNat + 7 < s.jStart.toNat) ∧
        ¬(k.segN.toNat + 1 = s.numSegments.toNat ∧ k.mseg.toNat + 1 ≤ p ∧ p ≤ s.mtpl.toNat)

/-- R196 with R130 (d): `SEG.SIEVE` ends, leaves `MI` past `Q`, writes only `SB[w]` and `M[w]`, only clears bits, and
clears the position of no prime, whatever the table of small primes holds. -/
def Obligations.SieveClearsOnlyComposites : Prop :=
  (∀ k : Wires, decodeUnit 0x53 k = .ok (.segSieve k.w)) ∧
  ∀ (s : State) (w : Nat) (k : Worker), s.workers[w]? = some k → s.resumeOk → k.q.toNat ≤ 1431655765 →
    s.qtab.toNat < s.spt.n.toNat → k.sb.wf → k.mseg.toNat < k.sb.n.toNat →
    k.jOff.toNat + k.mseg.toNat + 2 ^ 34 < 2 ^ 64 →
    ∃ (t : State) (n : Marker) (C : Bitset), exec (.segSieve w) s = .next t ∧
      s.onlyWorker t w { k with m := n, sb := C } ∧ n.i.toNat = max s.ri.toNat (k.q.toNat + 1) ∧
      C.wf ∧ C.n = k.sb.n ∧ (k.q.toNat < s.ri.toNat → C = k.sb) ∧
      (∀ p, C.bit p = true → k.sb.bit p = true) ∧
      (∀ p, k.sb.bit p = true → C.bit p = false → ¬ Nat.Prime (wheelVal (k.jOff.toNat + p)))

/-- R197: with the tables built, setup, copy, clip and sieve of segment `n` leave in `SB[w]` exactly the primes of
`[start, stop]` in the segment's window, position 0 clear; nothing outside worker `w` changes. -/
def Obligations.FinishedSegmentHoldsThePrimes : Prop :=
  ∀ (s : State) (w : Nat) (k : Worker), s.tablesReady → s.workers[w]? = some k →
    k.segN.toNat < s.numSegments.toNat →
    ∃ (t : State) (l : Worker), runOps [.segSetup w, .segCopy w, .segClip w, .segSieve w] s = .next t ∧
      s.onlyWorker t w l ∧ l.segN = k.segN ∧ l.wphase = k.wphase ∧ l.lacc = k.lacc ∧ l.obuf = k.obuf ∧
      l.nOff.toNat = s.startAdj.toNat + s.stepSize.toNat * k.segN.toNat - 1 ∧
      l.sb.wf ∧ l.sb.n.toNat = s.mtpl.toNat + 1 ∧ l.sb.bit 0 = false ∧
      ∀ L, 1 ≤ L → L ≤ s.mtpl.toNat →
        (l.sb.bit L = true ↔
          s.jStart.toNat ≤ l.nOff.toNat + 3 * L + 1 + L % 2 ∧ l.nOff.toNat + 3 * L + 1 + L % 2 ≤ s.jStop.toNat ∧
          Nat.Prime (l.nOff.toNat + 3 * L + 1 + L % 2))

/-! ## The aggregator (44_aggregator.md) -/

/-- R222 with R221: `AGG.COUNT` counts the set positions, and 2 and 3 in the segment with `low = 1`; it writes only
`LACC`. -/
def Obligations.CountAddsTheSmallPrimes : Prop :=
  (∀ k : Wires, decodeUnit 0x60 k = .ok (.aggCount k.w)) ∧
  ∀ (s : State) (w : Nat) (k : Worker), s.workers[w]? = some k → k.sb.wf →
    let small (p : Nat) : Nat := if k.low = 1 ∧ s.jStart.toNat ≤ p ∧ p ≤ s.jStop.toNat then 1 else 0
    k.sb.ones + small 2 + small 3 < 2 ^ 64 →
    ∃ (t : State) (a : Word), exec (.aggCount w) s = .next t ∧ s.onlyWorker t w { k with lacc := a } ∧
      a.toNat = k.sb.ones + small 2 + small 3 ∧
      (k.sb.bit 0 = false → k.sb.n.toNat = s.mtpl.toNat + 1 → a.toNat ≤ s.mtpl.toNat + 2)

/-- R223 with R226: `AGG.SUM` adds the integers of the set positions up to `MSEG`, and 2 and 3, modulo 2^64; it writes
only `LACC`. -/
def Obligations.SumIsTakenModuloTwoToTheSixtyFour : Prop :=
  (∀ k : Wires, decodeUnit 0x61 k = .ok (.aggSum k.w)) ∧
  ∀ (s : State) (w : Nat) (k : Worker), s.workers[w]? = some k → k.mseg.toNat < k.sb.n.toNat →
    (∀ L, 1 ≤ L → L ≤ k.mseg.toNat → k.sb.bit L = true → k.nOff.toNat + 3 * L + 1 + L % 2 < 2 ^ 64) →
    let small (p : Nat) : Nat := if k.low = 1 ∧ s.jStart.toNat ≤ p ∧ p ≤ s.jStop.toNat then 1 else 0
    ∃ (t : State) (a : Word), exec (.aggSum w) s = .next t ∧ s.onlyWorker t w { k with lacc := a } ∧
      a.toNat = (2 * small 2 + 3 * small 3 +
        ∑ L ∈ Finset.Icc 1 k.mseg.toNat, if k.sb.bit L then k.nOff.toNat + 3 * L + 1 + L % 2 else 0) % 2 ^ 64

/-- R225: `AGG.PRINT` appends 2 and 3 where the segment answers for them, then the lines of the set positions up to
`MSEG` in ascending order; it writes only `OBUF[w]`. -/
def Obligations.PrintAppendsTheLinesInOrder : Prop :=
  (∀ k : Wires, decodeUnit 0x62 k = .ok (.aggPrint k.w)) ∧
  ∀ (s : State) (w : Nat) (k : Worker), s.workers[w]? = some k → k.mseg.toNat < k.sb.n.toNat →
    (∀ L, 1 ≤ L → L ≤ k.mseg.toNat → k.sb.bit L = true → k.nOff.toNat + 3 * L + 1 + L % 2 < 2 ^ 64) →
    let small (p : Nat) : Prop := k.low = 1 ∧ s.jStart.toNat ≤ p ∧ p ≤ s.jStop.toNat
    ∃ (t : State) (two three : List Byte), exec (.aggPrint w) s = .next t ∧
      (small 2 → two = [0x32, 0x0A]) ∧ (¬ small 2 → two = []) ∧
      (small 3 → three = [0x33, 0x0A]) ∧ (¬ small 3 → three = []) ∧
      s.onlyWorker t w { k with obuf := k.obuf ++ two ++ three ++
        (((List.range' 1 k.mseg.toNat).filter fun L => k.sb.bit L).flatMap fun L =>
          decimalLine (BitVec.ofNat 64 (k.nOff.toNat + 3 * L + 1 + L % 2))) }

/-- R227: `FMT.DEC` appends the decimal digits of `v`, most significant first and without a leading zero, and a line
feed, at most 21 bytes; it writes only `OBUF[w]`. -/
def Obligations.FormatterAppendsTheDecimalLine : Prop :=
  (∀ k : Wires, decodeUnit 0x63 k = .ok (.fmtDec k.w k.dec)) ∧
  ∀ (s : State) (w : Nat) (k : Worker) (v : Word), s.workers[w]? = some k → 1 ≤ v.toNat →
    ∃ (t : State) (digits : List Byte), exec (.fmtDec w v) s = .next t ∧
      s.onlyWorker t w { k with obuf := k.obuf ++ digits ++ [0x0A] } ∧
      digits = (Nat.digits 10 v.toNat).reverse.map (fun d => BitVec.ofNat 8 (0x30 + d)) ∧
      1 ≤ digits.length ∧ digits.length ≤ 20 ∧ digits.head? ≠ some 0x30

/-! ## The scheduler and the gate (45_scheduler_gate.md) -/

/-- R248: `SCH.CHECK`, in its phase, latches the arguments and either goes on to `CONFIG` or raises InputError (R301, R310). -/
def Obligations.CheckLatchesAndRejectsBadInput : Prop :=
  (∀ k : Wires, decodeUnit 0x70 k = .ok .schCheck) ∧
  ∀ s : State, s.phase = .check →
    (s.mode = 3 ∨ s.start = 0 ∨ s.stop.toNat < s.start.toNat ∨ 2 ^ 64 - 1 - 6 < s.stop.toNat →
      exec .schCheck s = .next { s with
        jStart := s.start, jStop := s.stop, jMode := s.mode,
        errcode := 1, err := true, done := false, busy := false, result := 0, phase := .failed }) ∧
    (¬(s.mode = 3 ∨ s.start = 0 ∨ s.stop.toNat < s.start.toNat ∨ 2 ^ 64 - 1 - 6 < s.stop.toNat) →
      exec .schCheck s = .next { s with
        jStart := s.start, jStop := s.stop, jMode := s.mode, phase := .config })

/-- R241 with R242, R244, R246, R174: what `SCH.CONFIG`, in its phase, does for legal latches: ConfigurationError after `START_ADJ` and
`NSEED`; AllocationError after all six configuration registers; else the job is configured, the reduction and gate
state cleared. ConfigurationError comes first (R320). `autostep` stays below 2^62 (R8); the default exponent of its
scaling counts the decades from 10^13 on that `stop` has reached. -/
def Obligations.ConfigComputesTheJob : Prop :=
  (∀ k : Wires, decodeUnit 0x71 k = .ok .schConfig) ∧
  (∀ stop : Nat, scaleExp Params.default.scaleTable stop = (List.range 7).countP fun e => decide (10 ^ (13 + e) ≤ stop)) ∧
  ∀ s : State, s.phase = .config →
    1 ≤ s.jStart.toNat → s.jStart.toNat ≤ s.jStop.toNat → s.jStop.toNat ≤ 2 ^ 64 - 1 - 6 →
    let small : Prop := s.jStop.toNat < 10 ^ 12
    let modulus := if s.jStop.toNat < 10 ^ 12 then 510510 else 9699690
    let auto := if s.jStop.toNat < 10 ^ 12 then 6126120 else 9699690 * 2 ^ scaleExp s.params.scaleTable s.jStop.toNat
    let width := if s.stepCfg = 0 then auto else s.stepCfg.toNat
    let root := Nat.sqrt s.jStop.toNat / 3
    auto < 2 ^ 62 →
    ∃ t : State, exec .schConfig s = .next t ∧
      (t.startAdj.toNat =
        if 5 < s.jStart.toNat then s.jStart.toNat - s.jStart.toNat % 6 - 5 else 1) ∧
      (small → t.nseed = 5) ∧ (¬ small → t.nseed = 6) ∧
      (s.stepCfg ≠ 0 → s.stepCfg.toNat % modulus ≠ 0 →
        t = { s with startAdj := t.startAdj, nseed := t.nseed,
                     errcode := 2, err := true, done := false, busy := false, result := 0, phase := .failed }) ∧
      (s.stepCfg = 0 ∨ s.stepCfg.toNat % modulus = 0 →
        t.stepSize.toNat = width ∧ t.mtpl.toNat = width / 3 ∧
        t.numSegments.toNat = (s.jStop.toNat - t.startAdj.toNat) / width + 1 ∧
        (s.params.qCap = none → t.qtab.toNat = root) ∧ (∀ c, s.params.qCap = some c → t.qtab.toNat = min root c) ∧
        (s.params.sptCapBits < t.qtab.toNat + 2 ∨ s.params.segCapBits < width / 3 + 1 →
          t = { s with startAdj := t.startAdj, nseed := t.nseed, stepSize := t.stepSize, mtpl := t.mtpl,
                       numSegments := t.numSegments, qtab := t.qtab,
                       errcode := 3, err := true, done := false, busy := false, result := 0, phase := .failed }) ∧
        (¬(s.params.sptCapBits < t.qtab.toNat + 2 ∨ s.params.segCapBits < width / 3 + 1) →
          t = { s with startAdj := t.startAdj, nseed := t.nseed, stepSize := t.stepSize, mtpl := t.mtpl,
                       numSegments := t.numSegments, qtab := t.qtab,
                       acc := 0, retired := 0, nextDispatch := 0, nextTicket := 0, failFlag := false,
                       phase := .oracle }))

/-- R243, R247 with R242, R246: what holds of every adjusted start; and the segments of a job are disjoint, ascending,
aligned, begin at or below `stop`, and cover `[START_ADJ, stop]`, every one but the last at full width; a last segment
of one integer has `MSEG = 0`. -/
def Obligations.SegmentsPartitionTheAdjustedRange : Prop :=
  (∀ start : Nat, 1 ≤ start →
    startAdjOf start % 6 = 1 ∧ 1 ≤ startAdjOf start ∧ (startAdjOf start = 1 ↔ start ≤ 11) ∧
    (5 < start → start - startAdjOf start = start % 6 + 5) ∧ (start ≤ 5 → start - startAdjOf start = start - 1) ∧
    startAdjOf start ≤ start ∧ (startAdjOf start = start ↔ start = 1)) ∧
  ∀ start stop width : Nat, 1 ≤ start → start ≤ stop → stop < 2 ^ 64 → 0 < width → 6 ∣ width →
    let low (n : Nat) : Nat := startAdjOf start + width * n
    let high (n : Nat) : Nat := min (low n + width - 1) stop
    let count := (segmentsOf stop (startAdjOf start) width).toNat
    1 ≤ count ∧
    (∀ n < count, low n ≤ stop ∧ low n % 6 = 1 ∧ low n ≤ high n) ∧
    (∀ n, n + 1 < count → high n = low n + width - 1 ∧ high n + 1 = low (n + 1)) ∧ high (count - 1) = stop ∧
    (low (count - 1) = stop → mseg (stop - (low (count - 1) - 1)) = 0) ∧
    (∀ v, startAdjOf start ≤ v → v ≤ stop → ∃! n, n < count ∧ low n ≤ v ∧ v ≤ high n)

/-- R250 with R251: an enabled `SCH.DISPATCH` hands the next segment, in ascending order, to the idle worker. -/
def Obligations.DispatchHandsOutTheNextSegment : Prop :=
  (∀ k : Wires, decodeUnit 0x72 k = .ok (.schDispatch k.w)) ∧
  ∀ (s : State) (w : Nat) (k : Worker), s.workers[w]? = some k → s.phase = .parallel → k.wphase = .idle →
    s.nextDispatch.toNat < s.numSegments.toNat → s.failFlag = false →
    ∃ t : State, exec (.schDispatch w) s = .next t ∧
      ({ s with nextDispatch := s.nextDispatch + 1 } : State).onlyWorker t w
        { k with segN := s.nextDispatch, wphase := .setup } ∧
      t.nextDispatch.toNat = s.nextDispatch.toNat + 1

/-- R252: `SCH.REDUCE` adds the partial result modulo 2^64 and frees the worker, in whatever phase it is issued
(notes/assumptions/8); two reductions give the same state in either order. -/
def Obligations.ReduceAddsAndCommutes : Prop :=
  (∀ k : Wires, decodeUnit 0x73 k = .ok (.schReduce k.w)) ∧
  (∀ (s : State) (w : Nat) (k : Worker), s.workers[w]? = some k → s.retired.toNat + 1 < 2 ^ 64 →
    ∃ t : State, exec (.schReduce w) s = .next t ∧
      ({ s with acc := s.acc + k.lacc, retired := s.retired + 1 } : State).onlyWorker t w { k with wphase := .idle }) ∧
  (∀ (s : State) (v w : Nat), v < s.workers.length → w < s.workers.length → v ≠ w →
    runOps [.schReduce v, .schReduce w] s = runOps [.schReduce w, .schReduce v] s)

/-- R261: an enabled `GATE.WAIT` lets the worker emit in its turn, and retires it where `FAIL` is set, which wins;
whatever the worker's phase (notes/assumptions/8). -/
def Obligations.GateOpensInTurnOrOnFailure : Prop :=
  (∀ k : Wires, decodeUnit 0x74 k = .ok (.gateWait k.w)) ∧
  ∀ (s : State) (w : Nat) (k : Worker), s.workers[w]? = some k →
    (s.failFlag = true →
      ∃ t : State, exec (.gateWait w) s = .next t ∧ s.onlyWorker t w { k with wphase := .retire }) ∧
    (s.failFlag = false → s.nextTicket = k.segN →
      ∃ t : State, exec (.gateWait w) s = .next t ∧ s.onlyWorker t w { k with wphase := .emit })

/-- R262: `GATE.EMIT` offers the head of the buffer; an accepted byte joins the sink and leaves the buffer, a failed one
sets `FAIL` and retires the worker, an empty buffer passes; whatever the worker's phase (notes/assumptions/8). The
sink's answers are those the state holds (notes/assumptions/10). -/
def Obligations.EmitOffersOneByte : Prop :=
  (∀ k : Wires, decodeUnit 0x75 k = .ok (.gateEmit k.w)) ∧
  ∀ (s : State) (w : Nat) (k : Worker), s.workers[w]? = some k →
    (k.obuf = [] →
      ∃ t : State, exec (.gateEmit w) s = .next t ∧ s.onlyWorker t w { k with wphase := .pass }) ∧
    (∀ (b : Byte) (rest : List Byte) (more : List SinkAnswer), k.obuf = b :: rest → s.sinkAnswers = .ok :: more →
      ∃ t : State, exec (.gateEmit w) s = .next t ∧
        ({ s with sink := s.sink ++ [b], sinkAnswers := more } : State).onlyWorker t w { k with obuf := rest }) ∧
    (∀ (b : Byte) (rest : List Byte) (more : List SinkAnswer), k.obuf = b :: rest → s.sinkAnswers = .fail :: more →
      ∃ t : State, exec (.gateEmit w) s = .next t ∧
        ({ s with failFlag := true, sinkAnswers := more } : State).onlyWorker t w { k with wphase := .retire })

/-- R263, R264: `GATE.PASS` releases the next ticket and frees the worker; `SCH.FAIL` drops its bytes and frees it. -/
def Obligations.PassAndFailRetireTheSegment : Prop :=
  (∀ k : Wires, decodeUnit 0x76 k = .ok (.gatePass k.w) ∧ decodeUnit 0x78 k = .ok (.schFail k.w)) ∧
  ∀ (s : State) (w : Nat) (k : Worker), s.workers[w]? = some k → s.retired.toNat + 1 < 2 ^ 64 →
    (k.wphase = .pass → s.nextTicket.toNat + 1 < 2 ^ 64 →
      ∃ t : State, exec (.gatePass w) s = .next t ∧
        ({ s with nextTicket := s.nextTicket + 1, retired := s.retired + 1 } : State).onlyWorker t w
          { k with wphase := .idle }) ∧
    (k.wphase = .retire → ∃ t : State, exec (.schFail w) s = .next t ∧
      ({ s with retired := s.retired + 1 } : State).onlyWorker t w { k with wphase := .idle, obuf := [] })

/-- R270: `SCH.JOIN` delivers the total (0 after a print job) and ends the job, or raises OutputError where `FAIL` is
set (R310); whatever the phase (notes/assumptions/8). -/
def Obligations.JoinDeliversOrRaises : Prop :=
  (∀ k : Wires, decodeUnit 0x77 k = .ok .schJoin) ∧
  ∀ s : State,
    (s.failFlag = true → exec .schJoin s = .next { s with
      errcode := 4, err := true, done := false, busy := false, result := 0, phase := .failed }) ∧
    (s.failFlag = false → s.jMode = 0 ∨ s.jMode = 1 →
      exec .schJoin s = .next { s with result := s.acc, phase := .done, busy := false, done := true }) ∧
    (s.failFlag = false → s.jMode = 2 →
      exec .schJoin s = .next { s with result := 0, phase := .done, busy := false, done := true })

/-! ## The host commands (10_state.md, 46_host_commands.md) -/

/-- R282 with R40 to R48: what `HOST.RD` returns at each of the eleven offsets, in every phase; it changes nothing but
the returned data and the model's own count of the reads. The fields of `STATUS` are those of R45, the phase codes those of R30.
While `BUSY` the phase code and the two counters read as a value that the job has passed through, which one is free (R48,
U8); that it is none still to come, and that every other register is exact, is the model's reading (notes/assumptions/14).
What the job found in the counters is noted at its `GO`, and stays noted until the next one or the reset. -/
def Obligations.HostReadReturnsTheRegister : Prop :=
  (∀ (s : State) (i : Instr), i ∈ [Instr.sieveCount, .sieveSum, .sievePrint, .sieveRsvd] → s.busy = false →
    ∃ t : State, exec i s = .next t ∧ t.goTicket = s.nextTicket ∧ t.goDispatch = s.nextDispatch) ∧
  (∀ s t : State, s.busy = true → s.events.head? ≠ some .reset → step s = .next t →
    t.goTicket = s.goTicket ∧ t.goDispatch = s.goDispatch) ∧
  ∀ s : State,
    let read (off : BitVec 7) (v : Word) : Prop :=
      exec (.hostRd off) s = .next { s with hostData := v, reads := s.reads + 1 }
    let code : BitVec 4 :=
      match s.phase with
      | .idle => 0 | .check => 1 | .config => 2 | .oracle => 3 | .template => 4 | .parallel => 5 | .join => 6
      | .done => 7 | .failed => 8
    let counter (off : BitVec 7) (atGo now : Word) : Prop :=
      ∃ v : Word, read off v ∧ (s.busy = false → v = now) ∧
        (s.busy = true → s.phase = .check ∨ s.phase = .config → v = atGo) ∧
        (s.busy = true → ¬(s.phase = .check ∨ s.phase = .config) → v = atGo ∨ v.toNat ≤ now.toNat)
    read 0x00 s.start ∧
    read 0x08 s.stop ∧
    (∃ v : Word, read 0x10 v ∧ v.getLsbD 0 = false ∧ v.extractLsb' 1 2 = s.mode ∧ v.extractLsb' 3 61 = 0) ∧
    read 0x18 s.stepCfg ∧
    (∃ v : Word, read 0x20 v ∧
      v.getLsbD 0 = s.busy ∧ v.getLsbD 1 = s.done ∧ v.getLsbD 2 = s.err ∧ v.extractLsb' 3 3 = s.errcode ∧
      v.extractLsb' 6 2 = 0 ∧ v.extractLsb' 12 52 = 0 ∧
      (s.busy = false → v.extractLsb' 8 4 = code) ∧
      (s.busy = true → s.phase ≠ .idle → 1 ≤ (v.extractLsb' 8 4).toNat ∧ (v.extractLsb' 8 4).toNat ≤ code.toNat)) ∧
    read 0x28 s.result ∧
    read 0x30 s.startAdj ∧
    read 0x38 s.stepSize ∧
    read 0x40 s.numSegments ∧
    counter 0x48 s.goTicket s.nextTicket ∧
    counter 0x50 s.goDispatch s.nextDispatch

/-- R283: what `HOST.WR` does at each of the eleven offsets; every write is ignored while `BUSY`, and a write to a
read-only register always. -/
def Obligations.HostWriteStoresUnlessBusy : Prop :=
  ∀ (s : State) (data : Word),
    (s.busy = true → ∀ off : BitVec 7, off.toNat % 8 = 0 → off.toNat ≤ 0x50 →
      exec (.hostWr off data) s = .next s) ∧
    (s.busy = false →
      exec (.hostWr 0x00 data) s = .next { s with start := data } ∧
      exec (.hostWr 0x08 data) s = .next { s with stop := data } ∧
      exec (.hostWr 0x18 data) s = .next { s with stepCfg := data } ∧
      exec (.hostWr 0x10 data) s = exec (decodeCtrl data) s ∧
      ∀ off : BitVec 7, off.toNat % 8 = 0 → 0x20 ≤ off.toNat → off.toNat ≤ 0x50 →
        exec (.hostWr off data) s = .next s)

/-- R281, R284 to R288: an accepted `GO` stores the mode of its command, clears the status and the result and starts the
job, as one step; while `BUSY` it is ignored whole; `CTRL.MODE` stores the mode and starts nothing. Nothing is said of the
model's own notes of the counters (notes/assumptions/14). -/
def Obligations.GoStartsAJobUnlessBusy : Prop :=
  ∀ s : State,
    (∀ (i : Instr) (m : BitVec 2), (i, m) ∈ [(Instr.sieveCount, 0#2), (.sieveSum, 1#2), (.sievePrint, 2#2), (.sieveRsvd, 3#2)] →
      (s.busy = true → exec i s = .next s) ∧
      (s.busy = false → ∃ t : State, exec i s = .next t ∧ t = { s with
        mode := m, busy := true, done := false, err := false, errcode := 0, result := 0, phase := .check,
        goTicket := t.goTicket, goDispatch := t.goDispatch })) ∧
    (∀ m : BitVec 2,
      (s.busy = true → exec (.ctrlMode m) s = .next s) ∧
      (s.busy = false → exec (.ctrlMode m) s = .next { s with mode := m }))

/-- R101, R344: the expansion of `JOB.<mode> start, stop, step=S` on an idle block leaves the arguments in their registers
and the job started, and changes nothing else but the model's own notes of the counters (notes/assumptions/14); `WAIT` and
`RESULT` read `STATUS` and `RESULT`. -/
def Obligations.JobExpansionStartsTheJob : Prop :=
  ∀ (s : State) (mode : BitVec 2) (start stop width : Word),
    (s.busy = false →
      runCommands (jobCommands mode start stop width) s = .next { s with
        start := start, stop := stop, stepCfg := width, mode := mode,
        busy := true, done := false, err := false, errcode := 0, result := 0, phase := .check,
        goTicket := s.nextTicket, goDispatch := s.nextDispatch }) ∧
    runCommand waitCommand s = exec (.hostRd 0x20) s ∧ runCommand resultCommand s = exec (.hostRd 0x28) s

/-! ## Reset and the invariants (10_state.md, 70_reset_and_hazards.md) -/

/-- R340, R56: the external reset leaves what R56 states, in any phase, and the sink keeps its bytes; the state right
after reset is such a state, for every choice of the parameters. Nothing is said of the elements R56 calls
unspecified. -/
def Obligations.ResetLeavesTheStatedValues : Prop :=
  (∀ (p : Params) (nw : Nat), (State.resetOf p nw).atReset ∧ (State.resetOf p nw).workers.length = nw) ∧
  (∀ (s : State) (rest : List Event), s.events = .reset :: rest →
    ∃ t : State, step s = .next t ∧ t.atReset ∧ t.sink = s.sink ∧ t.events = rest ∧ t.params = s.params ∧
      t.workers.length = s.workers.length)

/-- The state after reset meets every invariant below, for every choice of the parameters. That the bitsets are canonical
with position 0 clear there rests on the model's own reset values (notes/assumptions/1): R56 leaves them unspecified. No
job runs, so whatever the sink holds, the invariant of its bytes holds too. -/
def Obligations.ResetMeetsTheInvariants : Prop :=
  ∀ (p : Params) (nw : Nat),
    (State.resetOf p nw).memWf ∧ (State.resetOf p nw).hardwired ∧ (State.resetOf p nw).flagsAgree ∧
    (State.resetOf p nw).gateSafe ∧ (State.resetOf p nw).zeroClear ∧
    ∀ (base : List Byte) (text : Nat → List Byte), (State.resetOf p nw).streamed base text

/-- Every step, even one that runs a unit operation presented from outside, keeps every bitset in its canonical form:
no pad bit is ever stored (R64). -/
def Obligations.StepKeepsBitsetsCanonical : Prop :=
  ∀ s t : State, s.memWf → step s = .next t → t.memWf

/-- R29, R45, R46, R300, R301: every step keeps the status flags, the error code and the result in agreement with the
phase. -/
def Obligations.StepKeepsTheFlagsAgreeing : Prop :=
  ∀ s t : State, s.hardwired → s.flagsAgree → step s = .next t → t.hardwired ∧ t.flagsAgree

/-- R260, R265: every step keeps the invariants of the parallel region; with them, at most one worker holds the turn at
the gate. R265 (c), R72 (d), R271: every step keeps the sink at the bytes of exactly the segments below `NEXT_TICKET`, in
segment order, and a beginning of the next one's, where the only segment whose bytes a step may determine is one whose
`AGG.PRINT` it runs; what the sink held before the job stays in front until the job's end. R266: so when the join condition
holds without failure, the sink holds the bytes of all segments in segment order. -/
def Obligations.StepKeepsTheGateSafe : Prop :=
  (∀ s t : State, s.hardwired → s.flagsAgree → s.gateSafe → step s = .next t → t.gateSafe) ∧
  (∀ (s : State) (v w : Nat) (k l : Worker), s.gateSafe → s.workers[v]? = some k → s.workers[w]? = some l →
    k.holdsTurn → l.holdsTurn → v = w) ∧
  (∀ (s t : State) (base : List Byte) (text : Nat → List Byte), s.hardwired → s.flagsAgree → s.gateSafe →
    s.streamed base text → step s = .next t →
    ∃ (base' : List Byte) (text' : Nat → List Byte), t.streamed base' text' ∧ (s.phase.counting → base' = base) ∧
      ∀ n, text' n = text n ∨
        ∃ (w : Nat) (k l : Worker), s.workers[w]? = some k ∧ t.workers[w]? = some l ∧
          k.wphase = .agg ∧ l.wphase = .gate ∧ n = k.segN.toNat ∧ text' n = l.obuf) ∧
  (∀ (s : State) (base : List Byte) (text : Nat → List Byte), s.gateSafe → s.streamed base text →
    s.phase = .parallel → s.joinReady = true → s.failFlag = false → s.jMode = 2 →
    s.sink = base ++ (List.range s.numSegments.toNat).flatMap text)

/-- R131: every step keeps position 0 of every bitset clear. -/
def Obligations.StepKeepsPositionZeroClear : Prop :=
  ∀ s t : State, s.hardwired → s.memWf → s.zeroClear → step s = .next t → t.zeroClear
end

