-- ==== Sys2Proof/Laws/State.lean ====
section
/-! SUPPORT. What each named update of the state leaves in each field, true by definition, so that no later proof
unfolds a record update. -/

namespace Sys2Proof.Laws

open Sys2Proof.Machine

/-! ## `State.setWorker` -/

@[simp] theorem setWorker_params (s : State) (w : Nat) (k : Worker) :
    (s.setWorker w k).params = s.params := rfl

@[simp] theorem setWorker_start (s : State) (w : Nat) (k : Worker) :
    (s.setWorker w k).start = s.start := rfl

@[simp] theorem setWorker_stop (s : State) (w : Nat) (k : Worker) :
    (s.setWorker w k).stop = s.stop := rfl

@[simp] theorem setWorker_mode (s : State) (w : Nat) (k : Worker) :
    (s.setWorker w k).mode = s.mode := rfl

@[simp] theorem setWorker_stepCfg (s : State) (w : Nat) (k : Worker) :
    (s.setWorker w k).stepCfg = s.stepCfg := rfl

@[simp] theorem setWorker_busy (s : State) (w : Nat) (k : Worker) :
    (s.setWorker w k).busy = s.busy := rfl

@[simp] theorem setWorker_done (s : State) (w : Nat) (k : Worker) :
    (s.setWorker w k).done = s.done := rfl

@[simp] theorem setWorker_err (s : State) (w : Nat) (k : Worker) :
    (s.setWorker w k).err = s.err := rfl

@[simp] theorem setWorker_errcode (s : State) (w : Nat) (k : Worker) :
    (s.setWorker w k).errcode = s.errcode := rfl

@[simp] theorem setWorker_result (s : State) (w : Nat) (k : Worker) :
    (s.setWorker w k).result = s.result := rfl

@[simp] theorem setWorker_startAdj (s : State) (w : Nat) (k : Worker) :
    (s.setWorker w k).startAdj = s.startAdj := rfl

@[simp] theorem setWorker_stepSize (s : State) (w : Nat) (k : Worker) :
    (s.setWorker w k).stepSize = s.stepSize := rfl

@[simp] theorem setWorker_numSegments (s : State) (w : Nat) (k : Worker) :
    (s.setWorker w k).numSegments = s.numSegments := rfl

@[simp] theorem setWorker_nseed (s : State) (w : Nat) (k : Worker) :
    (s.setWorker w k).nseed = s.nseed := rfl

@[simp] theorem setWorker_mtpl (s : State) (w : Nat) (k : Worker) :
    (s.setWorker w k).mtpl = s.mtpl := rfl

@[simp] theorem setWorker_qtab (s : State) (w : Nat) (k : Worker) :
    (s.setWorker w k).qtab = s.qtab := rfl

@[simp] theorem setWorker_ri (s : State) (w : Nat) (k : Worker) :
    (s.setWorker w k).ri = s.ri := rfl

@[simp] theorem setWorker_rc (s : State) (w : Nat) (k : Worker) :
    (s.setWorker w k).rc = s.rc := rfl

@[simp] theorem setWorker_rk (s : State) (w : Nat) (k : Worker) :
    (s.setWorker w k).rk = s.rk := rfl

@[simp] theorem setWorker_rt (s : State) (w : Nat) (k : Worker) :
    (s.setWorker w k).rt = s.rt := rfl

@[simp] theorem setWorker_jStart (s : State) (w : Nat) (k : Worker) :
    (s.setWorker w k).jStart = s.jStart := rfl

@[simp] theorem setWorker_jStop (s : State) (w : Nat) (k : Worker) :
    (s.setWorker w k).jStop = s.jStop := rfl

@[simp] theorem setWorker_jMode (s : State) (w : Nat) (k : Worker) :
    (s.setWorker w k).jMode = s.jMode := rfl

@[simp] theorem setWorker_acc (s : State) (w : Nat) (k : Worker) :
    (s.setWorker w k).acc = s.acc := rfl

@[simp] theorem setWorker_retired (s : State) (w : Nat) (k : Worker) :
    (s.setWorker w k).retired = s.retired := rfl

@[simp] theorem setWorker_nextDispatch (s : State) (w : Nat) (k : Worker) :
    (s.setWorker w k).nextDispatch = s.nextDispatch := rfl

@[simp] theorem setWorker_nextTicket (s : State) (w : Nat) (k : Worker) :
    (s.setWorker w k).nextTicket = s.nextTicket := rfl

@[simp] theorem setWorker_failFlag (s : State) (w : Nat) (k : Worker) :
    (s.setWorker w k).failFlag = s.failFlag := rfl

@[simp] theorem setWorker_phase (s : State) (w : Nat) (k : Worker) :
    (s.setWorker w k).phase = s.phase := rfl

@[simp] theorem setWorker_cm (s : State) (w : Nat) (k : Worker) :
    (s.setWorker w k).cm = s.cm := rfl

@[simp] theorem setWorker_spt (s : State) (w : Nat) (k : Worker) :
    (s.setWorker w k).spt = s.spt := rfl

@[simp] theorem setWorker_pst (s : State) (w : Nat) (k : Worker) :
    (s.setWorker w k).pst = s.pst := rfl

@[simp] theorem setWorker_workers (s : State) (w : Nat) (k : Worker) :
    (s.setWorker w k).workers = s.workers.set w k := rfl

@[simp] theorem setWorker_ret (s : State) (w : Nat) (k : Worker) :
    (s.setWorker w k).ret = s.ret := rfl

@[simp] theorem setWorker_hostData (s : State) (w : Nat) (k : Worker) :
    (s.setWorker w k).hostData = s.hostData := rfl

@[simp] theorem setWorker_sink (s : State) (w : Nat) (k : Worker) :
    (s.setWorker w k).sink = s.sink := rfl

@[simp] theorem setWorker_sinkAnswers (s : State) (w : Nat) (k : Worker) :
    (s.setWorker w k).sinkAnswers = s.sinkAnswers := rfl

@[simp] theorem setWorker_events (s : State) (w : Nat) (k : Worker) :
    (s.setWorker w k).events = s.events := rfl

@[simp] theorem setWorker_turns (s : State) (w : Nat) (k : Worker) :
    (s.setWorker w k).turns = s.turns := rfl

@[simp] theorem setWorker_reads (s : State) (w : Nat) (k : Worker) :
    (s.setWorker w k).reads = s.reads := rfl

@[simp] theorem setWorker_goTicket (s : State) (w : Nat) (k : Worker) :
    (s.setWorker w k).goTicket = s.goTicket := rfl

@[simp] theorem setWorker_goDispatch (s : State) (w : Nat) (k : Worker) :
    (s.setWorker w k).goDispatch = s.goDispatch := rfl

/-! ## `State.returns` -/

@[simp] theorem returns_params (s : State) (vs : List Word) :
    (s.returns vs).params = s.params := rfl

@[simp] theorem returns_start (s : State) (vs : List Word) :
    (s.returns vs).start = s.start := rfl

@[simp] theorem returns_stop (s : State) (vs : List Word) :
    (s.returns vs).stop = s.stop := rfl

@[simp] theorem returns_mode (s : State) (vs : List Word) :
    (s.returns vs).mode = s.mode := rfl

@[simp] theorem returns_stepCfg (s : State) (vs : List Word) :
    (s.returns vs).stepCfg = s.stepCfg := rfl

@[simp] theorem returns_busy (s : State) (vs : List Word) :
    (s.returns vs).busy = s.busy := rfl

@[simp] theorem returns_done (s : State) (vs : List Word) :
    (s.returns vs).done = s.done := rfl

@[simp] theorem returns_err (s : State) (vs : List Word) :
    (s.returns vs).err = s.err := rfl

@[simp] theorem returns_errcode (s : State) (vs : List Word) :
    (s.returns vs).errcode = s.errcode := rfl

@[simp] theorem returns_result (s : State) (vs : List Word) :
    (s.returns vs).result = s.result := rfl

@[simp] theorem returns_startAdj (s : State) (vs : List Word) :
    (s.returns vs).startAdj = s.startAdj := rfl

@[simp] theorem returns_stepSize (s : State) (vs : List Word) :
    (s.returns vs).stepSize = s.stepSize := rfl

@[simp] theorem returns_numSegments (s : State) (vs : List Word) :
    (s.returns vs).numSegments = s.numSegments := rfl

@[simp] theorem returns_nseed (s : State) (vs : List Word) :
    (s.returns vs).nseed = s.nseed := rfl

@[simp] theorem returns_mtpl (s : State) (vs : List Word) :
    (s.returns vs).mtpl = s.mtpl := rfl

@[simp] theorem returns_qtab (s : State) (vs : List Word) :
    (s.returns vs).qtab = s.qtab := rfl

@[simp] theorem returns_ri (s : State) (vs : List Word) :
    (s.returns vs).ri = s.ri := rfl

@[simp] theorem returns_rc (s : State) (vs : List Word) :
    (s.returns vs).rc = s.rc := rfl

@[simp] theorem returns_rk (s : State) (vs : List Word) :
    (s.returns vs).rk = s.rk := rfl

@[simp] theorem returns_rt (s : State) (vs : List Word) :
    (s.returns vs).rt = s.rt := rfl

@[simp] theorem returns_jStart (s : State) (vs : List Word) :
    (s.returns vs).jStart = s.jStart := rfl

@[simp] theorem returns_jStop (s : State) (vs : List Word) :
    (s.returns vs).jStop = s.jStop := rfl

@[simp] theorem returns_jMode (s : State) (vs : List Word) :
    (s.returns vs).jMode = s.jMode := rfl

@[simp] theorem returns_acc (s : State) (vs : List Word) :
    (s.returns vs).acc = s.acc := rfl

@[simp] theorem returns_retired (s : State) (vs : List Word) :
    (s.returns vs).retired = s.retired := rfl

@[simp] theorem returns_nextDispatch (s : State) (vs : List Word) :
    (s.returns vs).nextDispatch = s.nextDispatch := rfl

@[simp] theorem returns_nextTicket (s : State) (vs : List Word) :
    (s.returns vs).nextTicket = s.nextTicket := rfl

@[simp] theorem returns_failFlag (s : State) (vs : List Word) :
    (s.returns vs).failFlag = s.failFlag := rfl

@[simp] theorem returns_phase (s : State) (vs : List Word) :
    (s.returns vs).phase = s.phase := rfl

@[simp] theorem returns_cm (s : State) (vs : List Word) :
    (s.returns vs).cm = s.cm := rfl

@[simp] theorem returns_spt (s : State) (vs : List Word) :
    (s.returns vs).spt = s.spt := rfl

@[simp] theorem returns_pst (s : State) (vs : List Word) :
    (s.returns vs).pst = s.pst := rfl

@[simp] theorem returns_workers (s : State) (vs : List Word) :
    (s.returns vs).workers = s.workers := rfl

@[simp] theorem returns_ret (s : State) (vs : List Word) :
    (s.returns vs).ret = vs := rfl

@[simp] theorem returns_hostData (s : State) (vs : List Word) :
    (s.returns vs).hostData = s.hostData := rfl

@[simp] theorem returns_sink (s : State) (vs : List Word) :
    (s.returns vs).sink = s.sink := rfl

@[simp] theorem returns_sinkAnswers (s : State) (vs : List Word) :
    (s.returns vs).sinkAnswers = s.sinkAnswers := rfl

@[simp] theorem returns_events (s : State) (vs : List Word) :
    (s.returns vs).events = s.events := rfl

@[simp] theorem returns_turns (s : State) (vs : List Word) :
    (s.returns vs).turns = s.turns := rfl

@[simp] theorem returns_reads (s : State) (vs : List Word) :
    (s.returns vs).reads = s.reads := rfl

@[simp] theorem returns_goTicket (s : State) (vs : List Word) :
    (s.returns vs).goTicket = s.goTicket := rfl

@[simp] theorem returns_goDispatch (s : State) (vs : List Word) :
    (s.returns vs).goDispatch = s.goDispatch := rfl

/-! ## `State.putBitset` -/

@[simp] theorem putBitset_params (s : State) (X : BitsetId) (B : Bitset) :
    (s.putBitset X B).params = s.params := by cases X <;> rfl

@[simp] theorem putBitset_start (s : State) (X : BitsetId) (B : Bitset) :
    (s.putBitset X B).start = s.start := by cases X <;> rfl

@[simp] theorem putBitset_stop (s : State) (X : BitsetId) (B : Bitset) :
    (s.putBitset X B).stop = s.stop := by cases X <;> rfl

@[simp] theorem putBitset_mode (s : State) (X : BitsetId) (B : Bitset) :
    (s.putBitset X B).mode = s.mode := by cases X <;> rfl

@[simp] theorem putBitset_stepCfg (s : State) (X : BitsetId) (B : Bitset) :
    (s.putBitset X B).stepCfg = s.stepCfg := by cases X <;> rfl

@[simp] theorem putBitset_busy (s : State) (X : BitsetId) (B : Bitset) :
    (s.putBitset X B).busy = s.busy := by cases X <;> rfl

@[simp] theorem putBitset_done (s : State) (X : BitsetId) (B : Bitset) :
    (s.putBitset X B).done = s.done := by cases X <;> rfl

@[simp] theorem putBitset_err (s : State) (X : BitsetId) (B : Bitset) :
    (s.putBitset X B).err = s.err := by cases X <;> rfl

@[simp] theorem putBitset_errcode (s : State) (X : BitsetId) (B : Bitset) :
    (s.putBitset X B).errcode = s.errcode := by cases X <;> rfl

@[simp] theorem putBitset_result (s : State) (X : BitsetId) (B : Bitset) :
    (s.putBitset X B).result = s.result := by cases X <;> rfl

@[simp] theorem putBitset_startAdj (s : State) (X : BitsetId) (B : Bitset) :
    (s.putBitset X B).startAdj = s.startAdj := by cases X <;> rfl

@[simp] theorem putBitset_stepSize (s : State) (X : BitsetId) (B : Bitset) :
    (s.putBitset X B).stepSize = s.stepSize := by cases X <;> rfl

@[simp] theorem putBitset_numSegments (s : State) (X : BitsetId) (B : Bitset) :
    (s.putBitset X B).numSegments = s.numSegments := by cases X <;> rfl

@[simp] theorem putBitset_nseed (s : State) (X : BitsetId) (B : Bitset) :
    (s.putBitset X B).nseed = s.nseed := by cases X <;> rfl

@[simp] theorem putBitset_mtpl (s : State) (X : BitsetId) (B : Bitset) :
    (s.putBitset X B).mtpl = s.mtpl := by cases X <;> rfl

@[simp] theorem putBitset_qtab (s : State) (X : BitsetId) (B : Bitset) :
    (s.putBitset X B).qtab = s.qtab := by cases X <;> rfl

@[simp] theorem putBitset_ri (s : State) (X : BitsetId) (B : Bitset) :
    (s.putBitset X B).ri = s.ri := by cases X <;> rfl

@[simp] theorem putBitset_rc (s : State) (X : BitsetId) (B : Bitset) :
    (s.putBitset X B).rc = s.rc := by cases X <;> rfl

@[simp] theorem putBitset_rk (s : State) (X : BitsetId) (B : Bitset) :
    (s.putBitset X B).rk = s.rk := by cases X <;> rfl

@[simp] theorem putBitset_rt (s : State) (X : BitsetId) (B : Bitset) :
    (s.putBitset X B).rt = s.rt := by cases X <;> rfl

@[simp] theorem putBitset_jStart (s : State) (X : BitsetId) (B : Bitset) :
    (s.putBitset X B).jStart = s.jStart := by cases X <;> rfl

@[simp] theorem putBitset_jStop (s : State) (X : BitsetId) (B : Bitset) :
    (s.putBitset X B).jStop = s.jStop := by cases X <;> rfl

@[simp] theorem putBitset_jMode (s : State) (X : BitsetId) (B : Bitset) :
    (s.putBitset X B).jMode = s.jMode := by cases X <;> rfl

@[simp] theorem putBitset_acc (s : State) (X : BitsetId) (B : Bitset) :
    (s.putBitset X B).acc = s.acc := by cases X <;> rfl

@[simp] theorem putBitset_retired (s : State) (X : BitsetId) (B : Bitset) :
    (s.putBitset X B).retired = s.retired := by cases X <;> rfl

@[simp] theorem putBitset_nextDispatch (s : State) (X : BitsetId) (B : Bitset) :
    (s.putBitset X B).nextDispatch = s.nextDispatch := by cases X <;> rfl

@[simp] theorem putBitset_nextTicket (s : State) (X : BitsetId) (B : Bitset) :
    (s.putBitset X B).nextTicket = s.nextTicket := by cases X <;> rfl

@[simp] theorem putBitset_failFlag (s : State) (X : BitsetId) (B : Bitset) :
    (s.putBitset X B).failFlag = s.failFlag := by cases X <;> rfl

@[simp] theorem putBitset_phase (s : State) (X : BitsetId) (B : Bitset) :
    (s.putBitset X B).phase = s.phase := by cases X <;> rfl

@[simp] theorem putBitset_cm (s : State) (X : BitsetId) (B : Bitset) :
    (s.putBitset X B).cm = s.cm := by cases X <;> rfl

@[simp] theorem putBitset_ret (s : State) (X : BitsetId) (B : Bitset) :
    (s.putBitset X B).ret = s.ret := by cases X <;> rfl

@[simp] theorem putBitset_hostData (s : State) (X : BitsetId) (B : Bitset) :
    (s.putBitset X B).hostData = s.hostData := by cases X <;> rfl

@[simp] theorem putBitset_sink (s : State) (X : BitsetId) (B : Bitset) :
    (s.putBitset X B).sink = s.sink := by cases X <;> rfl

@[simp] theorem putBitset_sinkAnswers (s : State) (X : BitsetId) (B : Bitset) :
    (s.putBitset X B).sinkAnswers = s.sinkAnswers := by cases X <;> rfl

@[simp] theorem putBitset_events (s : State) (X : BitsetId) (B : Bitset) :
    (s.putBitset X B).events = s.events := by cases X <;> rfl

@[simp] theorem putBitset_turns (s : State) (X : BitsetId) (B : Bitset) :
    (s.putBitset X B).turns = s.turns := by cases X <;> rfl

@[simp] theorem putBitset_reads (s : State) (X : BitsetId) (B : Bitset) :
    (s.putBitset X B).reads = s.reads := by cases X <;> rfl

@[simp] theorem putBitset_goTicket (s : State) (X : BitsetId) (B : Bitset) :
    (s.putBitset X B).goTicket = s.goTicket := by cases X <;> rfl

@[simp] theorem putBitset_goDispatch (s : State) (X : BitsetId) (B : Bitset) :
    (s.putBitset X B).goDispatch = s.goDispatch := by cases X <;> rfl

/-! ## `State.putMarker` -/

@[simp] theorem putMarker_params (s : State) (M : MarkerId) (m : Marker) :
    (s.putMarker M m).params = s.params := by cases M <;> rfl

@[simp] theorem putMarker_start (s : State) (M : MarkerId) (m : Marker) :
    (s.putMarker M m).start = s.start := by cases M <;> rfl

@[simp] theorem putMarker_stop (s : State) (M : MarkerId) (m : Marker) :
    (s.putMarker M m).stop = s.stop := by cases M <;> rfl

@[simp] theorem putMarker_mode (s : State) (M : MarkerId) (m : Marker) :
    (s.putMarker M m).mode = s.mode := by cases M <;> rfl

@[simp] theorem putMarker_stepCfg (s : State) (M : MarkerId) (m : Marker) :
    (s.putMarker M m).stepCfg = s.stepCfg := by cases M <;> rfl

@[simp] theorem putMarker_busy (s : State) (M : MarkerId) (m : Marker) :
    (s.putMarker M m).busy = s.busy := by cases M <;> rfl

@[simp] theorem putMarker_done (s : State) (M : MarkerId) (m : Marker) :
    (s.putMarker M m).done = s.done := by cases M <;> rfl

@[simp] theorem putMarker_err (s : State) (M : MarkerId) (m : Marker) :
    (s.putMarker M m).err = s.err := by cases M <;> rfl

@[simp] theorem putMarker_errcode (s : State) (M : MarkerId) (m : Marker) :
    (s.putMarker M m).errcode = s.errcode := by cases M <;> rfl

@[simp] theorem putMarker_result (s : State) (M : MarkerId) (m : Marker) :
    (s.putMarker M m).result = s.result := by cases M <;> rfl

@[simp] theorem putMarker_startAdj (s : State) (M : MarkerId) (m : Marker) :
    (s.putMarker M m).startAdj = s.startAdj := by cases M <;> rfl

@[simp] theorem putMarker_stepSize (s : State) (M : MarkerId) (m : Marker) :
    (s.putMarker M m).stepSize = s.stepSize := by cases M <;> rfl

@[simp] theorem putMarker_numSegments (s : State) (M : MarkerId) (m : Marker) :
    (s.putMarker M m).numSegments = s.numSegments := by cases M <;> rfl

@[simp] theorem putMarker_nseed (s : State) (M : MarkerId) (m : Marker) :
    (s.putMarker M m).nseed = s.nseed := by cases M <;> rfl

@[simp] theorem putMarker_mtpl (s : State) (M : MarkerId) (m : Marker) :
    (s.putMarker M m).mtpl = s.mtpl := by cases M <;> rfl

@[simp] theorem putMarker_qtab (s : State) (M : MarkerId) (m : Marker) :
    (s.putMarker M m).qtab = s.qtab := by cases M <;> rfl

@[simp] theorem putMarker_ri (s : State) (M : MarkerId) (m : Marker) :
    (s.putMarker M m).ri = s.ri := by cases M <;> rfl

@[simp] theorem putMarker_rc (s : State) (M : MarkerId) (m : Marker) :
    (s.putMarker M m).rc = s.rc := by cases M <;> rfl

@[simp] theorem putMarker_rk (s : State) (M : MarkerId) (m : Marker) :
    (s.putMarker M m).rk = s.rk := by cases M <;> rfl

@[simp] theorem putMarker_rt (s : State) (M : MarkerId) (m : Marker) :
    (s.putMarker M m).rt = s.rt := by cases M <;> rfl

@[simp] theorem putMarker_jStart (s : State) (M : MarkerId) (m : Marker) :
    (s.putMarker M m).jStart = s.jStart := by cases M <;> rfl

@[simp] theorem putMarker_jStop (s : State) (M : MarkerId) (m : Marker) :
    (s.putMarker M m).jStop = s.jStop := by cases M <;> rfl

@[simp] theorem putMarker_jMode (s : State) (M : MarkerId) (m : Marker) :
    (s.putMarker M m).jMode = s.jMode := by cases M <;> rfl

@[simp] theorem putMarker_acc (s : State) (M : MarkerId) (m : Marker) :
    (s.putMarker M m).acc = s.acc := by cases M <;> rfl

@[simp] theorem putMarker_retired (s : State) (M : MarkerId) (m : Marker) :
    (s.putMarker M m).retired = s.retired := by cases M <;> rfl

@[simp] theorem putMarker_nextDispatch (s : State) (M : MarkerId) (m : Marker) :
    (s.putMarker M m).nextDispatch = s.nextDispatch := by cases M <;> rfl

@[simp] theorem putMarker_nextTicket (s : State) (M : MarkerId) (m : Marker) :
    (s.putMarker M m).nextTicket = s.nextTicket := by cases M <;> rfl

@[simp] theorem putMarker_failFlag (s : State) (M : MarkerId) (m : Marker) :
    (s.putMarker M m).failFlag = s.failFlag := by cases M <;> rfl

@[simp] theorem putMarker_phase (s : State) (M : MarkerId) (m : Marker) :
    (s.putMarker M m).phase = s.phase := by cases M <;> rfl

@[simp] theorem putMarker_spt (s : State) (M : MarkerId) (m : Marker) :
    (s.putMarker M m).spt = s.spt := by cases M <;> rfl

@[simp] theorem putMarker_pst (s : State) (M : MarkerId) (m : Marker) :
    (s.putMarker M m).pst = s.pst := by cases M <;> rfl

@[simp] theorem putMarker_ret (s : State) (M : MarkerId) (m : Marker) :
    (s.putMarker M m).ret = s.ret := by cases M <;> rfl

@[simp] theorem putMarker_hostData (s : State) (M : MarkerId) (m : Marker) :
    (s.putMarker M m).hostData = s.hostData := by cases M <;> rfl

@[simp] theorem putMarker_sink (s : State) (M : MarkerId) (m : Marker) :
    (s.putMarker M m).sink = s.sink := by cases M <;> rfl

@[simp] theorem putMarker_sinkAnswers (s : State) (M : MarkerId) (m : Marker) :
    (s.putMarker M m).sinkAnswers = s.sinkAnswers := by cases M <;> rfl

@[simp] theorem putMarker_events (s : State) (M : MarkerId) (m : Marker) :
    (s.putMarker M m).events = s.events := by cases M <;> rfl

@[simp] theorem putMarker_turns (s : State) (M : MarkerId) (m : Marker) :
    (s.putMarker M m).turns = s.turns := by cases M <;> rfl

@[simp] theorem putMarker_reads (s : State) (M : MarkerId) (m : Marker) :
    (s.putMarker M m).reads = s.reads := by cases M <;> rfl

@[simp] theorem putMarker_goTicket (s : State) (M : MarkerId) (m : Marker) :
    (s.putMarker M m).goTicket = s.goTicket := by cases M <;> rfl

@[simp] theorem putMarker_goDispatch (s : State) (M : MarkerId) (m : Marker) :
    (s.putMarker M m).goDispatch = s.goDispatch := by cases M <;> rfl

/-! ## `State.raise` (R310) -/

@[simp] theorem raise_params (s : State) (e : ErrorCause) :
    (s.raise e).params = s.params := rfl

@[simp] theorem raise_start (s : State) (e : ErrorCause) :
    (s.raise e).start = s.start := rfl

@[simp] theorem raise_stop (s : State) (e : ErrorCause) :
    (s.raise e).stop = s.stop := rfl

@[simp] theorem raise_mode (s : State) (e : ErrorCause) :
    (s.raise e).mode = s.mode := rfl

@[simp] theorem raise_stepCfg (s : State) (e : ErrorCause) :
    (s.raise e).stepCfg = s.stepCfg := rfl

@[simp] theorem raise_busy (s : State) (e : ErrorCause) :
    (s.raise e).busy = false := rfl

@[simp] theorem raise_done (s : State) (e : ErrorCause) :
    (s.raise e).done = false := rfl

@[simp] theorem raise_err (s : State) (e : ErrorCause) :
    (s.raise e).err = true := rfl

@[simp] theorem raise_errcode (s : State) (e : ErrorCause) :
    (s.raise e).errcode = errorCode e := rfl

@[simp] theorem raise_result (s : State) (e : ErrorCause) :
    (s.raise e).result = 0 := rfl

@[simp] theorem raise_startAdj (s : State) (e : ErrorCause) :
    (s.raise e).startAdj = s.startAdj := rfl

@[simp] theorem raise_stepSize (s : State) (e : ErrorCause) :
    (s.raise e).stepSize = s.stepSize := rfl

@[simp] theorem raise_numSegments (s : State) (e : ErrorCause) :
    (s.raise e).numSegments = s.numSegments := rfl

@[simp] theorem raise_nseed (s : State) (e : ErrorCause) :
    (s.raise e).nseed = s.nseed := rfl

@[simp] theorem raise_mtpl (s : State) (e : ErrorCause) :
    (s.raise e).mtpl = s.mtpl := rfl

@[simp] theorem raise_qtab (s : State) (e : ErrorCause) :
    (s.raise e).qtab = s.qtab := rfl

@[simp] theorem raise_ri (s : State) (e : ErrorCause) :
    (s.raise e).ri = s.ri := rfl

@[simp] theorem raise_rc (s : State) (e : ErrorCause) :
    (s.raise e).rc = s.rc := rfl

@[simp] theorem raise_rk (s : State) (e : ErrorCause) :
    (s.raise e).rk = s.rk := rfl

@[simp] theorem raise_rt (s : State) (e : ErrorCause) :
    (s.raise e).rt = s.rt := rfl

@[simp] theorem raise_jStart (s : State) (e : ErrorCause) :
    (s.raise e).jStart = s.jStart := rfl

@[simp] theorem raise_jStop (s : State) (e : ErrorCause) :
    (s.raise e).jStop = s.jStop := rfl

@[simp] theorem raise_jMode (s : State) (e : ErrorCause) :
    (s.raise e).jMode = s.jMode := rfl

@[simp] theorem raise_acc (s : State) (e : ErrorCause) :
    (s.raise e).acc = s.acc := rfl

@[simp] theorem raise_retired (s : State) (e : ErrorCause) :
    (s.raise e).retired = s.retired := rfl

@[simp] theorem raise_nextDispatch (s : State) (e : ErrorCause) :
    (s.raise e).nextDispatch = s.nextDispatch := rfl

@[simp] theorem raise_nextTicket (s : State) (e : ErrorCause) :
    (s.raise e).nextTicket = s.nextTicket := rfl

@[simp] theorem raise_failFlag (s : State) (e : ErrorCause) :
    (s.raise e).failFlag = s.failFlag := rfl

@[simp] theorem raise_phase (s : State) (e : ErrorCause) :
    (s.raise e).phase = .failed := rfl

@[simp] theorem raise_cm (s : State) (e : ErrorCause) :
    (s.raise e).cm = s.cm := rfl

@[simp] theorem raise_spt (s : State) (e : ErrorCause) :
    (s.raise e).spt = s.spt := rfl

@[simp] theorem raise_pst (s : State) (e : ErrorCause) :
    (s.raise e).pst = s.pst := rfl

@[simp] theorem raise_workers (s : State) (e : ErrorCause) :
    (s.raise e).workers = s.workers := rfl

@[simp] theorem raise_ret (s : State) (e : ErrorCause) :
    (s.raise e).ret = s.ret := rfl

@[simp] theorem raise_hostData (s : State) (e : ErrorCause) :
    (s.raise e).hostData = s.hostData := rfl

@[simp] theorem raise_sink (s : State) (e : ErrorCause) :
    (s.raise e).sink = s.sink := rfl

@[simp] theorem raise_sinkAnswers (s : State) (e : ErrorCause) :
    (s.raise e).sinkAnswers = s.sinkAnswers := rfl

@[simp] theorem raise_events (s : State) (e : ErrorCause) :
    (s.raise e).events = s.events := rfl

@[simp] theorem raise_turns (s : State) (e : ErrorCause) :
    (s.raise e).turns = s.turns := rfl

@[simp] theorem raise_reads (s : State) (e : ErrorCause) :
    (s.raise e).reads = s.reads := rfl

@[simp] theorem raise_goTicket (s : State) (e : ErrorCause) :
    (s.raise e).goTicket = s.goTicket := rfl

@[simp] theorem raise_goDispatch (s : State) (e : ErrorCause) :
    (s.raise e).goDispatch = s.goDispatch := rfl

/-! ## `State.acceptGo` (R281) -/

@[simp] theorem acceptGo_params (s : State) (mode : BitVec 2) :
    (s.acceptGo mode).params = s.params := rfl

@[simp] theorem acceptGo_start (s : State) (mode : BitVec 2) :
    (s.acceptGo mode).start = s.start := rfl

@[simp] theorem acceptGo_stop (s : State) (mode : BitVec 2) :
    (s.acceptGo mode).stop = s.stop := rfl

@[simp] theorem acceptGo_mode (s : State) (mode : BitVec 2) :
    (s.acceptGo mode).mode = mode := rfl

@[simp] theorem acceptGo_stepCfg (s : State) (mode : BitVec 2) :
    (s.acceptGo mode).stepCfg = s.stepCfg := rfl

@[simp] theorem acceptGo_busy (s : State) (mode : BitVec 2) :
    (s.acceptGo mode).busy = true := rfl

@[simp] theorem acceptGo_done (s : State) (mode : BitVec 2) :
    (s.acceptGo mode).done = false := rfl

@[simp] theorem acceptGo_err (s : State) (mode : BitVec 2) :
    (s.acceptGo mode).err = false := rfl

@[simp] theorem acceptGo_errcode (s : State) (mode : BitVec 2) :
    (s.acceptGo mode).errcode = 0 := rfl

@[simp] theorem acceptGo_result (s : State) (mode : BitVec 2) :
    (s.acceptGo mode).result = 0 := rfl

@[simp] theorem acceptGo_startAdj (s : State) (mode : BitVec 2) :
    (s.acceptGo mode).startAdj = s.startAdj := rfl

@[simp] theorem acceptGo_stepSize (s : State) (mode : BitVec 2) :
    (s.acceptGo mode).stepSize = s.stepSize := rfl

@[simp] theorem acceptGo_numSegments (s : State) (mode : BitVec 2) :
    (s.acceptGo mode).numSegments = s.numSegments := rfl

@[simp] theorem acceptGo_nseed (s : State) (mode : BitVec 2) :
    (s.acceptGo mode).nseed = s.nseed := rfl

@[simp] theorem acceptGo_mtpl (s : State) (mode : BitVec 2) :
    (s.acceptGo mode).mtpl = s.mtpl := rfl

@[simp] theorem acceptGo_qtab (s : State) (mode : BitVec 2) :
    (s.acceptGo mode).qtab = s.qtab := rfl

@[simp] theorem acceptGo_ri (s : State) (mode : BitVec 2) :
    (s.acceptGo mode).ri = s.ri := rfl

@[simp] theorem acceptGo_rc (s : State) (mode : BitVec 2) :
    (s.acceptGo mode).rc = s.rc := rfl

@[simp] theorem acceptGo_rk (s : State) (mode : BitVec 2) :
    (s.acceptGo mode).rk = s.rk := rfl

@[simp] theorem acceptGo_rt (s : State) (mode : BitVec 2) :
    (s.acceptGo mode).rt = s.rt := rfl

@[simp] theorem acceptGo_jStart (s : State) (mode : BitVec 2) :
    (s.acceptGo mode).jStart = s.jStart := rfl

@[simp] theorem acceptGo_jStop (s : State) (mode : BitVec 2) :
    (s.acceptGo mode).jStop = s.jStop := rfl

@[simp] theorem acceptGo_jMode (s : State) (mode : BitVec 2) :
    (s.acceptGo mode).jMode = s.jMode := rfl

@[simp] theorem acceptGo_acc (s : State) (mode : BitVec 2) :
    (s.acceptGo mode).acc = s.acc := rfl

@[simp] theorem acceptGo_retired (s : State) (mode : BitVec 2) :
    (s.acceptGo mode).retired = s.retired := rfl

@[simp] theorem acceptGo_nextDispatch (s : State) (mode : BitVec 2) :
    (s.acceptGo mode).nextDispatch = s.nextDispatch := rfl

@[simp] theorem acceptGo_nextTicket (s : State) (mode : BitVec 2) :
    (s.acceptGo mode).nextTicket = s.nextTicket := rfl

@[simp] theorem acceptGo_failFlag (s : State) (mode : BitVec 2) :
    (s.acceptGo mode).failFlag = s.failFlag := rfl

@[simp] theorem acceptGo_phase (s : State) (mode : BitVec 2) :
    (s.acceptGo mode).phase = .check := rfl

@[simp] theorem acceptGo_cm (s : State) (mode : BitVec 2) :
    (s.acceptGo mode).cm = s.cm := rfl

@[simp] theorem acceptGo_spt (s : State) (mode : BitVec 2) :
    (s.acceptGo mode).spt = s.spt := rfl

@[simp] theorem acceptGo_pst (s : State) (mode : BitVec 2) :
    (s.acceptGo mode).pst = s.pst := rfl

@[simp] theorem acceptGo_workers (s : State) (mode : BitVec 2) :
    (s.acceptGo mode).workers = s.workers := rfl

@[simp] theorem acceptGo_ret (s : State) (mode : BitVec 2) :
    (s.acceptGo mode).ret = s.ret := rfl

@[simp] theorem acceptGo_hostData (s : State) (mode : BitVec 2) :
    (s.acceptGo mode).hostData = s.hostData := rfl

@[simp] theorem acceptGo_sink (s : State) (mode : BitVec 2) :
    (s.acceptGo mode).sink = s.sink := rfl

@[simp] theorem acceptGo_sinkAnswers (s : State) (mode : BitVec 2) :
    (s.acceptGo mode).sinkAnswers = s.sinkAnswers := rfl

@[simp] theorem acceptGo_events (s : State) (mode : BitVec 2) :
    (s.acceptGo mode).events = s.events := rfl

@[simp] theorem acceptGo_turns (s : State) (mode : BitVec 2) :
    (s.acceptGo mode).turns = s.turns := rfl

@[simp] theorem acceptGo_reads (s : State) (mode : BitVec 2) :
    (s.acceptGo mode).reads = s.reads := rfl

@[simp] theorem acceptGo_goTicket (s : State) (mode : BitVec 2) :
    (s.acceptGo mode).goTicket = s.nextTicket := rfl

@[simp] theorem acceptGo_goDispatch (s : State) (mode : BitVec 2) :
    (s.acceptGo mode).goDispatch = s.nextDispatch := rfl

/-! ## `State.finish` (R270) -/

@[simp] theorem finish_params (s : State) :
    s.finish.params = s.params := rfl

@[simp] theorem finish_start (s : State) :
    s.finish.start = s.start := rfl

@[simp] theorem finish_stop (s : State) :
    s.finish.stop = s.stop := rfl

@[simp] theorem finish_mode (s : State) :
    s.finish.mode = s.mode := rfl

@[simp] theorem finish_stepCfg (s : State) :
    s.finish.stepCfg = s.stepCfg := rfl

@[simp] theorem finish_busy (s : State) :
    s.finish.busy = false := rfl

@[simp] theorem finish_done (s : State) :
    s.finish.done = true := rfl

@[simp] theorem finish_err (s : State) :
    s.finish.err = s.err := rfl

@[simp] theorem finish_errcode (s : State) :
    s.finish.errcode = s.errcode := rfl

@[simp] theorem finish_result (s : State) :
    s.finish.result = s.jobResult := rfl

@[simp] theorem finish_startAdj (s : State) :
    s.finish.startAdj = s.startAdj := rfl

@[simp] theorem finish_stepSize (s : State) :
    s.finish.stepSize = s.stepSize := rfl

@[simp] theorem finish_numSegments (s : State) :
    s.finish.numSegments = s.numSegments := rfl

@[simp] theorem finish_nseed (s : State) :
    s.finish.nseed = s.nseed := rfl

@[simp] theorem finish_mtpl (s : State) :
    s.finish.mtpl = s.mtpl := rfl

@[simp] theorem finish_qtab (s : State) :
    s.finish.qtab = s.qtab := rfl

@[simp] theorem finish_ri (s : State) :
    s.finish.ri = s.ri := rfl

@[simp] theorem finish_rc (s : State) :
    s.finish.rc = s.rc := rfl

@[simp] theorem finish_rk (s : State) :
    s.finish.rk = s.rk := rfl

@[simp] theorem finish_rt (s : State) :
    s.finish.rt = s.rt := rfl

@[simp] theorem finish_jStart (s : State) :
    s.finish.jStart = s.jStart := rfl

@[simp] theorem finish_jStop (s : State) :
    s.finish.jStop = s.jStop := rfl

@[simp] theorem finish_jMode (s : State) :
    s.finish.jMode = s.jMode := rfl

@[simp] theorem finish_acc (s : State) :
    s.finish.acc = s.acc := rfl

@[simp] theorem finish_retired (s : State) :
    s.finish.retired = s.retired := rfl

@[simp] theorem finish_nextDispatch (s : State) :
    s.finish.nextDispatch = s.nextDispatch := rfl

@[simp] theorem finish_nextTicket (s : State) :
    s.finish.nextTicket = s.nextTicket := rfl

@[simp] theorem finish_failFlag (s : State) :
    s.finish.failFlag = s.failFlag := rfl

@[simp] theorem finish_phase (s : State) :
    s.finish.phase = .done := rfl

@[simp] theorem finish_cm (s : State) :
    s.finish.cm = s.cm := rfl

@[simp] theorem finish_spt (s : State) :
    s.finish.spt = s.spt := rfl

@[simp] theorem finish_pst (s : State) :
    s.finish.pst = s.pst := rfl

@[simp] theorem finish_workers (s : State) :
    s.finish.workers = s.workers := rfl

@[simp] theorem finish_ret (s : State) :
    s.finish.ret = s.ret := rfl

@[simp] theorem finish_hostData (s : State) :
    s.finish.hostData = s.hostData := rfl

@[simp] theorem finish_sink (s : State) :
    s.finish.sink = s.sink := rfl

@[simp] theorem finish_sinkAnswers (s : State) :
    s.finish.sinkAnswers = s.sinkAnswers := rfl

@[simp] theorem finish_events (s : State) :
    s.finish.events = s.events := rfl

@[simp] theorem finish_turns (s : State) :
    s.finish.turns = s.turns := rfl

@[simp] theorem finish_reads (s : State) :
    s.finish.reads = s.reads := rfl

@[simp] theorem finish_goTicket (s : State) :
    s.finish.goTicket = s.goTicket := rfl

@[simp] theorem finish_goDispatch (s : State) :
    s.finish.goDispatch = s.goDispatch := rfl

/-! ## `controllerNext` and `workerAdvance`: they move a phase register only -/

@[simp] theorem controllerNext_params (p : Phase) (s : State) :
    (controllerNext p s).params = s.params := by cases p <;> rfl

@[simp] theorem controllerNext_start (p : Phase) (s : State) :
    (controllerNext p s).start = s.start := by cases p <;> rfl

@[simp] theorem controllerNext_stop (p : Phase) (s : State) :
    (controllerNext p s).stop = s.stop := by cases p <;> rfl

@[simp] theorem controllerNext_mode (p : Phase) (s : State) :
    (controllerNext p s).mode = s.mode := by cases p <;> rfl

@[simp] theorem controllerNext_stepCfg (p : Phase) (s : State) :
    (controllerNext p s).stepCfg = s.stepCfg := by cases p <;> rfl

@[simp] theorem controllerNext_busy (p : Phase) (s : State) :
    (controllerNext p s).busy = s.busy := by cases p <;> rfl

@[simp] theorem controllerNext_done (p : Phase) (s : State) :
    (controllerNext p s).done = s.done := by cases p <;> rfl

@[simp] theorem controllerNext_err (p : Phase) (s : State) :
    (controllerNext p s).err = s.err := by cases p <;> rfl

@[simp] theorem controllerNext_errcode (p : Phase) (s : State) :
    (controllerNext p s).errcode = s.errcode := by cases p <;> rfl

@[simp] theorem controllerNext_result (p : Phase) (s : State) :
    (controllerNext p s).result = s.result := by cases p <;> rfl

@[simp] theorem controllerNext_startAdj (p : Phase) (s : State) :
    (controllerNext p s).startAdj = s.startAdj := by cases p <;> rfl

@[simp] theorem controllerNext_stepSize (p : Phase) (s : State) :
    (controllerNext p s).stepSize = s.stepSize := by cases p <;> rfl

@[simp] theorem controllerNext_numSegments (p : Phase) (s : State) :
    (controllerNext p s).numSegments = s.numSegments := by cases p <;> rfl

@[simp] theorem controllerNext_nseed (p : Phase) (s : State) :
    (controllerNext p s).nseed = s.nseed := by cases p <;> rfl

@[simp] theorem controllerNext_mtpl (p : Phase) (s : State) :
    (controllerNext p s).mtpl = s.mtpl := by cases p <;> rfl

@[simp] theorem controllerNext_qtab (p : Phase) (s : State) :
    (controllerNext p s).qtab = s.qtab := by cases p <;> rfl

@[simp] theorem controllerNext_ri (p : Phase) (s : State) :
    (controllerNext p s).ri = s.ri := by cases p <;> rfl

@[simp] theorem controllerNext_rc (p : Phase) (s : State) :
    (controllerNext p s).rc = s.rc := by cases p <;> rfl

@[simp] theorem controllerNext_rk (p : Phase) (s : State) :
    (controllerNext p s).rk = s.rk := by cases p <;> rfl

@[simp] theorem controllerNext_rt (p : Phase) (s : State) :
    (controllerNext p s).rt = s.rt := by cases p <;> rfl

@[simp] theorem controllerNext_jStart (p : Phase) (s : State) :
    (controllerNext p s).jStart = s.jStart := by cases p <;> rfl

@[simp] theorem controllerNext_jStop (p : Phase) (s : State) :
    (controllerNext p s).jStop = s.jStop := by cases p <;> rfl

@[simp] theorem controllerNext_jMode (p : Phase) (s : State) :
    (controllerNext p s).jMode = s.jMode := by cases p <;> rfl

@[simp] theorem controllerNext_acc (p : Phase) (s : State) :
    (controllerNext p s).acc = s.acc := by cases p <;> rfl

@[simp] theorem controllerNext_retired (p : Phase) (s : State) :
    (controllerNext p s).retired = s.retired := by cases p <;> rfl

@[simp] theorem controllerNext_nextDispatch (p : Phase) (s : State) :
    (controllerNext p s).nextDispatch = s.nextDispatch := by cases p <;> rfl

@[simp] theorem controllerNext_nextTicket (p : Phase) (s : State) :
    (controllerNext p s).nextTicket = s.nextTicket := by cases p <;> rfl

@[simp] theorem controllerNext_failFlag (p : Phase) (s : State) :
    (controllerNext p s).failFlag = s.failFlag := by cases p <;> rfl

@[simp] theorem controllerNext_cm (p : Phase) (s : State) :
    (controllerNext p s).cm = s.cm := by cases p <;> rfl

@[simp] theorem controllerNext_spt (p : Phase) (s : State) :
    (controllerNext p s).spt = s.spt := by cases p <;> rfl

@[simp] theorem controllerNext_pst (p : Phase) (s : State) :
    (controllerNext p s).pst = s.pst := by cases p <;> rfl

@[simp] theorem controllerNext_workers (p : Phase) (s : State) :
    (controllerNext p s).workers = s.workers := by cases p <;> rfl

@[simp] theorem controllerNext_ret (p : Phase) (s : State) :
    (controllerNext p s).ret = s.ret := by cases p <;> rfl

@[simp] theorem controllerNext_hostData (p : Phase) (s : State) :
    (controllerNext p s).hostData = s.hostData := by cases p <;> rfl

@[simp] theorem controllerNext_sink (p : Phase) (s : State) :
    (controllerNext p s).sink = s.sink := by cases p <;> rfl

@[simp] theorem controllerNext_sinkAnswers (p : Phase) (s : State) :
    (controllerNext p s).sinkAnswers = s.sinkAnswers := by cases p <;> rfl

@[simp] theorem controllerNext_events (p : Phase) (s : State) :
    (controllerNext p s).events = s.events := by cases p <;> rfl

@[simp] theorem controllerNext_turns (p : Phase) (s : State) :
    (controllerNext p s).turns = s.turns := by cases p <;> rfl

@[simp] theorem controllerNext_reads (p : Phase) (s : State) :
    (controllerNext p s).reads = s.reads := by cases p <;> rfl

@[simp] theorem controllerNext_goTicket (p : Phase) (s : State) :
    (controllerNext p s).goTicket = s.goTicket := by cases p <;> rfl

@[simp] theorem controllerNext_goDispatch (p : Phase) (s : State) :
    (controllerNext p s).goDispatch = s.goDispatch := by cases p <;> rfl

-- the phase register is a field of the worker, so `workers` is the one field that moves
@[simp] theorem workerAdvance_params (w : Nat) (p : WPhase) (s : State) :
    (workerAdvance w p s).params = s.params := by
  unfold workerAdvance; split <;> rfl

@[simp] theorem workerAdvance_start (w : Nat) (p : WPhase) (s : State) :
    (workerAdvance w p s).start = s.start := by
  unfold workerAdvance; split <;> rfl

@[simp] theorem workerAdvance_stop (w : Nat) (p : WPhase) (s : State) :
    (workerAdvance w p s).stop = s.stop := by
  unfold workerAdvance; split <;> rfl

@[simp] theorem workerAdvance_mode (w : Nat) (p : WPhase) (s : State) :
    (workerAdvance w p s).mode = s.mode := by
  unfold workerAdvance; split <;> rfl

@[simp] theorem workerAdvance_stepCfg (w : Nat) (p : WPhase) (s : State) :
    (workerAdvance w p s).stepCfg = s.stepCfg := by
  unfold workerAdvance; split <;> rfl

@[simp] theorem workerAdvance_busy (w : Nat) (p : WPhase) (s : State) :
    (workerAdvance w p s).busy = s.busy := by
  unfold workerAdvance; split <;> rfl

@[simp] theorem workerAdvance_done (w : Nat) (p : WPhase) (s : State) :
    (workerAdvance w p s).done = s.done := by
  unfold workerAdvance; split <;> rfl

@[simp] theorem workerAdvance_err (w : Nat) (p : WPhase) (s : State) :
    (workerAdvance w p s).err = s.err := by
  unfold workerAdvance; split <;> rfl

@[simp] theorem workerAdvance_errcode (w : Nat) (p : WPhase) (s : State) :
    (workerAdvance w p s).errcode = s.errcode := by
  unfold workerAdvance; split <;> rfl

@[simp] theorem workerAdvance_result (w : Nat) (p : WPhase) (s : State) :
    (workerAdvance w p s).result = s.result := by
  unfold workerAdvance; split <;> rfl

@[simp] theorem workerAdvance_startAdj (w : Nat) (p : WPhase) (s : State) :
    (workerAdvance w p s).startAdj = s.startAdj := by
  unfold workerAdvance; split <;> rfl

@[simp] theorem workerAdvance_stepSize (w : Nat) (p : WPhase) (s : State) :
    (workerAdvance w p s).stepSize = s.stepSize := by
  unfold workerAdvance; split <;> rfl

@[simp] theorem workerAdvance_numSegments (w : Nat) (p : WPhase) (s : State) :
    (workerAdvance w p s).numSegments = s.numSegments := by
  unfold workerAdvance; split <;> rfl

@[simp] theorem workerAdvance_nseed (w : Nat) (p : WPhase) (s : State) :
    (workerAdvance w p s).nseed = s.nseed := by
  unfold workerAdvance; split <;> rfl

@[simp] theorem workerAdvance_mtpl (w : Nat) (p : WPhase) (s : State) :
    (workerAdvance w p s).mtpl = s.mtpl := by
  unfold workerAdvance; split <;> rfl

@[simp] theorem workerAdvance_qtab (w : Nat) (p : WPhase) (s : State) :
    (workerAdvance w p s).qtab = s.qtab := by
  unfold workerAdvance; split <;> rfl

@[simp] theorem workerAdvance_ri (w : Nat) (p : WPhase) (s : State) :
    (workerAdvance w p s).ri = s.ri := by
  unfold workerAdvance; split <;> rfl

@[simp] theorem workerAdvance_rc (w : Nat) (p : WPhase) (s : State) :
    (workerAdvance w p s).rc = s.rc := by
  unfold workerAdvance; split <;> rfl

@[simp] theorem workerAdvance_rk (w : Nat) (p : WPhase) (s : State) :
    (workerAdvance w p s).rk = s.rk := by
  unfold workerAdvance; split <;> rfl

@[simp] theorem workerAdvance_rt (w : Nat) (p : WPhase) (s : State) :
    (workerAdvance w p s).rt = s.rt := by
  unfold workerAdvance; split <;> rfl

@[simp] theorem workerAdvance_jStart (w : Nat) (p : WPhase) (s : State) :
    (workerAdvance w p s).jStart = s.jStart := by
  unfold workerAdvance; split <;> rfl

@[simp] theorem workerAdvance_jStop (w : Nat) (p : WPhase) (s : State) :
    (workerAdvance w p s).jStop = s.jStop := by
  unfold workerAdvance; split <;> rfl

@[simp] theorem workerAdvance_jMode (w : Nat) (p : WPhase) (s : State) :
    (workerAdvance w p s).jMode = s.jMode := by
  unfold workerAdvance; split <;> rfl

@[simp] theorem workerAdvance_acc (w : Nat) (p : WPhase) (s : State) :
    (workerAdvance w p s).acc = s.acc := by
  unfold workerAdvance; split <;> rfl

@[simp] theorem workerAdvance_retired (w : Nat) (p : WPhase) (s : State) :
    (workerAdvance w p s).retired = s.retired := by
  unfold workerAdvance; split <;> rfl

@[simp] theorem workerAdvance_nextDispatch (w : Nat) (p : WPhase) (s : State) :
    (workerAdvance w p s).nextDispatch = s.nextDispatch := by
  unfold workerAdvance; split <;> rfl

@[simp] theorem workerAdvance_nextTicket (w : Nat) (p : WPhase) (s : State) :
    (workerAdvance w p s).nextTicket = s.nextTicket := by
  unfold workerAdvance; split <;> rfl

@[simp] theorem workerAdvance_failFlag (w : Nat) (p : WPhase) (s : State) :
    (workerAdvance w p s).failFlag = s.failFlag := by
  unfold workerAdvance; split <;> rfl

@[simp] theorem workerAdvance_phase (w : Nat) (p : WPhase) (s : State) :
    (workerAdvance w p s).phase = s.phase := by
  unfold workerAdvance; split <;> rfl

@[simp] theorem workerAdvance_cm (w : Nat) (p : WPhase) (s : State) :
    (workerAdvance w p s).cm = s.cm := by
  unfold workerAdvance; split <;> rfl

@[simp] theorem workerAdvance_spt (w : Nat) (p : WPhase) (s : State) :
    (workerAdvance w p s).spt = s.spt := by
  unfold workerAdvance; split <;> rfl

@[simp] theorem workerAdvance_pst (w : Nat) (p : WPhase) (s : State) :
    (workerAdvance w p s).pst = s.pst := by
  unfold workerAdvance; split <;> rfl

@[simp] theorem workerAdvance_ret (w : Nat) (p : WPhase) (s : State) :
    (workerAdvance w p s).ret = s.ret := by
  unfold workerAdvance; split <;> rfl

@[simp] theorem workerAdvance_hostData (w : Nat) (p : WPhase) (s : State) :
    (workerAdvance w p s).hostData = s.hostData := by
  unfold workerAdvance; split <;> rfl

@[simp] theorem workerAdvance_sink (w : Nat) (p : WPhase) (s : State) :
    (workerAdvance w p s).sink = s.sink := by
  unfold workerAdvance; split <;> rfl

@[simp] theorem workerAdvance_sinkAnswers (w : Nat) (p : WPhase) (s : State) :
    (workerAdvance w p s).sinkAnswers = s.sinkAnswers := by
  unfold workerAdvance; split <;> rfl

@[simp] theorem workerAdvance_events (w : Nat) (p : WPhase) (s : State) :
    (workerAdvance w p s).events = s.events := by
  unfold workerAdvance; split <;> rfl

@[simp] theorem workerAdvance_turns (w : Nat) (p : WPhase) (s : State) :
    (workerAdvance w p s).turns = s.turns := by
  unfold workerAdvance; split <;> rfl

@[simp] theorem workerAdvance_reads (w : Nat) (p : WPhase) (s : State) :
    (workerAdvance w p s).reads = s.reads := by
  unfold workerAdvance; split <;> rfl

@[simp] theorem workerAdvance_goTicket (w : Nat) (p : WPhase) (s : State) :
    (workerAdvance w p s).goTicket = s.goTicket := by
  unfold workerAdvance; split <;> rfl

@[simp] theorem workerAdvance_goDispatch (w : Nat) (p : WPhase) (s : State) :
    (workerAdvance w p s).goDispatch = s.goDispatch := by
  unfold workerAdvance; split <;> rfl

/-! ## `State.externalReset` (R340) -/

@[simp] theorem externalReset_params (s : State) :
    s.externalReset.params = s.params := rfl

@[simp] theorem externalReset_sink (s : State) :
    s.externalReset.sink = s.sink := rfl

@[simp] theorem externalReset_sinkAnswers (s : State) :
    s.externalReset.sinkAnswers = s.sinkAnswers := rfl

@[simp] theorem externalReset_events (s : State) :
    s.externalReset.events = s.events := rfl

@[simp] theorem externalReset_turns (s : State) :
    s.externalReset.turns = s.turns := rfl

@[simp] theorem externalReset_reads (s : State) :
    s.externalReset.reads = s.reads := rfl

@[simp] theorem externalReset_goTicket (s : State) :
    s.externalReset.goTicket = 0 := rfl

@[simp] theorem externalReset_goDispatch (s : State) :
    s.externalReset.goDispatch = 0 := rfl

@[simp] theorem externalReset_phase (s : State) :
    s.externalReset.phase = .idle := rfl

@[simp] theorem externalReset_busy (s : State) :
    s.externalReset.busy = false := rfl

@[simp] theorem externalReset_done (s : State) :
    s.externalReset.done = false := rfl

@[simp] theorem externalReset_err (s : State) :
    s.externalReset.err = false := rfl

@[simp] theorem externalReset_errcode (s : State) :
    s.externalReset.errcode = 0 := rfl

@[simp] theorem externalReset_failFlag (s : State) :
    s.externalReset.failFlag = false := rfl

@[simp] theorem externalReset_spt (s : State) :
    s.externalReset.spt = Bitset.reset := rfl

@[simp] theorem externalReset_pst (s : State) :
    s.externalReset.pst = Bitset.reset := rfl

@[simp] theorem externalReset_cm (s : State) :
    s.externalReset.cm = Marker.reset := rfl

@[simp] theorem externalReset_nextDispatch (s : State) :
    s.externalReset.nextDispatch = 0 := rfl

@[simp] theorem externalReset_nextTicket (s : State) :
    s.externalReset.nextTicket = 0 := rfl

@[simp] theorem externalReset_retired (s : State) :
    s.externalReset.retired = 0 := rfl

@[simp] theorem externalReset_acc (s : State) :
    s.externalReset.acc = 0 := rfl

@[simp] theorem externalReset_result (s : State) :
    s.externalReset.result = 0 := rfl

@[simp] theorem externalReset_numSegments (s : State) :
    s.externalReset.numSegments = 0 := rfl

@[simp] theorem externalReset_workers (s : State) :
    s.externalReset.workers = List.replicate s.workers.length Worker.reset := rfl

/-! ## What a read of a host register shows (R48, U8) -/

/-- The phase code of a `STATUS` read: the present one, or while `BUSY` one the job has passed through. -/
theorem phaseShown_spec (s : State) (pick : Nat) :
    (s.busy = false → s.phaseShown pick = s.phase.code) ∧
    (s.busy = true → 0 < s.phase.code → 1 ≤ s.phaseShown pick ∧ s.phaseShown pick ≤ s.phase.code) := by
  unfold State.phaseShown
  refine ⟨fun h => by simp [h], fun h hc => ?_⟩
  have := Nat.mod_lt pick hc
  rw [if_pos ⟨h, hc⟩]
  omega

/-- A counter read: the present value, or while `BUSY` the one the job found or one up to the present. -/
theorem counterShown_spec (s : State) (atGo now : Word) (pick : Nat) :
    (s.busy = false → s.counterShown atGo now pick = now) ∧
    (s.busy = true → s.phase = .check ∨ s.phase = .config → s.counterShown atGo now pick = atGo) ∧
    (s.busy = true → s.counterShown atGo now pick = atGo ∨ (s.counterShown atGo now pick).toNat ≤ now.toNat) := by
  unfold State.counterShown
  refine ⟨fun h => by simp [h], fun h hp => ?_, fun h => ?_⟩
  · rw [if_pos h, if_pos (hp.elim .inl fun h => .inr (.inl h))]
  · rw [if_pos h]
    split
    · exact .inl rfl
    · rename_i hc
      have := Nat.mod_lt pick (show 0 < now.toNat + 2 by omega)
      have := Nat.mod_le (pick % (now.toNat + 2)) (2 ^ 64)
      have : pick % (now.toNat + 2) ≠ now.toNat + 1 := fun e => hc (.inr (.inr e))
      right
      rw [BitVec.toNat_ofNat]
      omega

/-! ## Operands after an update -/

theorem worker_lt {s : State} {w : Nat} {k : Worker} (h : s.workers[w]? = some k) : w < s.workers.length := by
  obtain ⟨hw, -⟩ := List.getElem?_eq_some_iff.mp h
  exact hw

@[simp] theorem setWorker_self {s : State} {w : Nat} {k : Worker} (h : s.workers[w]? = some k) (k' : Worker) :
    (s.setWorker w k').workers[w]? = some k' := by
  simp [worker_lt h]

@[simp] theorem setWorker_other (s : State) {w v : Nat} (h : w ≠ v) (k : Worker) :
    (s.setWorker w k).workers[v]? = s.workers[v]? := by
  simp [h]

/-- Worker `v` after one worker was modified. -/
theorem modify_worker (ks : List Worker) (w v : Nat) (f : Worker → Worker) :
    (ks.modify w f)[v]? = (ks[v]?).map fun k => if w = v then f k else k := by
  rw [List.getElem?_modify]
  cases ks[v]? <;> simp

@[simp] theorem putBitset_self {s : State} {X : BitsetId} {B : Bitset} (h : s.bitset? X = some B) (B' : Bitset) :
    (s.putBitset X B').bitset? X = some B' := by
  cases X with
  | spt => rfl
  | pst => rfl
  | sb w =>
    simp only [State.bitset?, Option.map_eq_some_iff] at h
    obtain ⟨k, hk, -⟩ := h
    simp [State.bitset?, State.putBitset, hk]

@[simp] theorem putBitset_other (s : State) {X Y : BitsetId} (h : X ≠ Y) (B : Bitset) :
    (s.putBitset X B).bitset? Y = s.bitset? Y := by
  cases X <;> cases Y <;> simp_all [State.bitset?, State.putBitset]

@[simp] theorem putBitset_marker (s : State) (X : BitsetId) (B : Bitset) (M : MarkerId) :
    (s.putBitset X B).marker? M = s.marker? M := by
  cases X <;> cases M <;> try rfl
  rename_i w v
  simp only [State.marker?, State.putBitset, modify_worker, Option.map_map]
  cases s.workers[v]? with
  | none => rfl
  | some k => by_cases hw : w = v <;> simp [hw]

@[simp] theorem putMarker_self {s : State} {M : MarkerId} {m : Marker} (h : s.marker? M = some m) (m' : Marker) :
    (s.putMarker M m').marker? M = some m' := by
  cases M with
  | cm => rfl
  | m w =>
    simp only [State.marker?, Option.map_eq_some_iff] at h
    obtain ⟨k, hk, -⟩ := h
    simp [State.marker?, State.putMarker, hk]

@[simp] theorem putMarker_other (s : State) {M N : MarkerId} (h : M ≠ N) (m : Marker) :
    (s.putMarker M m).marker? N = s.marker? N := by
  cases M <;> cases N <;> simp_all [State.marker?, State.putMarker]

@[simp] theorem putMarker_bitset (s : State) (M : MarkerId) (m : Marker) (X : BitsetId) :
    (s.putMarker M m).bitset? X = s.bitset? X := by
  cases M <;> cases X <;> try rfl
  rename_i w v
  simp only [State.bitset?, State.putMarker, modify_worker, Option.map_map]
  cases s.workers[v]? with
  | none => rfl
  | some k => by_cases hw : w = v <;> simp [hw]

end Sys2Proof.Laws
end

