-- ==== Sys2Proof/Laws/Outcome.lean ====
section
/-! SUPPORT. How outcomes compose, and what each selection of an operand can do: if a composed computation answers
a value, every part of it did. -/

namespace Sys2Proof.Laws

open Sys2Proof.Machine

@[simp] theorem bind_next {α β : Type} (a : α) (f : α → Res β) :
    Res.bind (Host.Outcome.next a : Res α) f = f a := rfl

@[simp] theorem bind_fault {α β : Type} (r : Fault) (f : α → Res β) :
    Res.bind (Host.Outcome.fault r : Res α) f = .fault r := rfl

@[simp] theorem bind_refused {α β : Type} (r : Refusal) (f : α → Res β) :
    Res.bind (Host.Outcome.refused r : Res α) f = .refused r := rfl

theorem bind_eq_next {α β : Type} {x : Res α} {f : α → Res β} {b : β} :
    Res.bind x f = .next b ↔ ∃ a, x = .next a ∧ f a = .next b := by
  cases x <;> simp

theorem withWorker_of_some {s : State} {w : Nat} {k : Worker} (h : s.workers[w]? = some k) (f : Worker → Res State) :
    s.withWorker w f = f k := by
  simp [State.withWorker, h]

theorem withWorker_eq_next {s t : State} {w : Nat} {f : Worker → Res State} :
    s.withWorker w f = .next t ↔ ∃ k, s.workers[w]? = some k ∧ f k = .next t := by
  unfold State.withWorker
  cases s.workers[w]? <;> simp

theorem withBitset_of_some {s : State} {X : BitsetId} {B : Bitset} (h : s.bitset? X = some B) (f : Bitset → Res State) :
    s.withBitset X f = f B := by
  simp [State.withBitset, h]

theorem withBitset_eq_next {s t : State} {X : BitsetId} {f : Bitset → Res State} :
    s.withBitset X f = .next t ↔ ∃ B, s.bitset? X = some B ∧ f B = .next t := by
  unfold State.withBitset
  cases s.bitset? X <;> simp

theorem withMarker_of_some {s : State} {M : MarkerId} {m : Marker} (h : s.marker? M = some m) (f : Marker → Res State) :
    s.withMarker M f = f m := by
  simp [State.withMarker, h]

theorem withMarker_eq_next {s t : State} {M : MarkerId} {f : Marker → Res State} :
    s.withMarker M f = .next t ↔ ∃ m, s.marker? M = some m ∧ f m = .next t := by
  unfold State.withMarker
  cases s.marker? M <;> simp

end Sys2Proof.Laws
end

