-- ==== Sys2Proof/Laws/Arith.lean ====
section
/-! SUPPORT. Exact arithmetic: what `narrow`, `isqrt`, the wheel codec and the formatter compute. -/

namespace Sys2Proof.Laws

open Sys2Proof.Machine

/-- A result that fits its register is stored as it is. -/
theorem narrow_of_lt {w v : Nat} (h : v < 2 ^ w) : narrow w (v : Int) = BitVec.ofNat w v :=
  if_pos h

/-- A result that does not fit is a free value. -/
theorem narrow_of_ge {w v : Nat} (h : 2 ^ w ≤ v) : narrow w (v : Int) = Config.unrepresentable w v :=
  if_neg (Nat.not_lt.mpr h)

theorem narrow_of_neg {w : Nat} {v : Int} (h : v < 0) : narrow w v = Config.unrepresentable w v := by
  cases v with
  | ofNat n => exact absurd h (by simp)
  | negSucc n => rfl

theorem narrow_toNat {w v : Nat} (h : v < 2 ^ w) : (narrow w (v : Int)).toNat = v := by
  rw [narrow_of_lt h, BitVec.toNat_ofNat, Nat.mod_eq_of_lt h]

/-- The same for a non-negative exact integer. -/
theorem narrow_toNat_int {w : Nat} {v : Int} (h0 : 0 ≤ v) (h : v < 2 ^ w) : ((narrow w v).toNat : Int) = v := by
  obtain ⟨n, rfl⟩ := Int.eq_ofNat_of_zero_le h0
  have : n < 2 ^ w := by exact_mod_cast h
  rw [narrow_toNat this]

/-- A difference of a smaller from a larger register value. -/
theorem narrow_sub_toNat {a b w : Nat} (hb : b ≤ a) (ha : a < 2 ^ w) :
    (narrow w ((a : Int) - b)).toNat = a - b := by
  have h : ((a : Int) - b) = ((a - b : Nat) : Int) := by omega
  rw [h, narrow_toNat (by omega)]

/-- The bits already found are never lost and the bits to come bound the root. -/
theorem isqrtFrom_spec (k x r : Nat) (hr : r * r ≤ x) (hx : x < (r + 2 ^ k) * (r + 2 ^ k)) :
    isqrtFrom k x r * isqrtFrom k x r ≤ x ∧ x < (isqrtFrom k x r + 1) * (isqrtFrom k x r + 1) := by
  induction k generalizing r with
  | zero => exact ⟨hr, by simpa [isqrtFrom] using hx⟩
  | succ k ih =>
    rw [isqrtFrom]
    split
    · rename_i h
      exact ih _ h (by rw [Nat.add_assoc, ← Nat.two_mul, ← Nat.pow_succ']; exact hx)
    · rename_i h
      exact ih _ hr (by omega)

/-- `isqrt` is the exact integer square root of a 64-bit value. -/
theorem isqrt_eq_sqrt {x : Nat} (h : x < 2 ^ 64) : isqrt x = Nat.sqrt x := by
  have hs := isqrtFrom_spec 32 x 0 (by simp) (by norm_num at h ⊢; omega)
  exact (Nat.eq_sqrt.mpr hs)

theorem isqrt_lt {x : Nat} (h : x < 2 ^ 64) : isqrt x < 2 ^ 32 := by
  rw [isqrt_eq_sqrt h]
  exact Nat.sqrt_lt.mpr (by norm_num at h ⊢; omega)

theorem wheelVal_odd {i : Nat} (h : i % 2 = 1) : wheelVal i = 3 * i + 2 := by
  simp [wheelVal, h]

theorem wheelVal_even {i : Nat} (h : i % 2 = 0) : wheelVal i = 3 * i + 1 := by
  simp [wheelVal, h]

theorem wheelVal_strictMono {i j : Nat} (h : i < j) : wheelVal i < wheelVal j := by
  unfold wheelVal
  omega

theorem wheelDecode_toNat {nOff : Word} {i : Nat} (hi : i ≠ 0) (h : nOff.toNat + wheelVal i < 2 ^ 64) :
    (wheelDecode nOff i).toNat = nOff.toNat + wheelVal i := by
  have : ((nOff.toNat : Int) + wheelVal i) = ((nOff.toNat + wheelVal i : Nat) : Int) := by push_cast; rfl
  rw [wheelDecode, if_neg hi, this, narrow_toNat h]

end Sys2Proof.Laws
end

