-- ==== Sys2Proof/Laws/Memory.lean ====
section
/-! SUPPORT. The laws of bitset memories: a read after a write, every other byte left alone, the canonical form
kept by every operation; then the same for bits, for the byte view, and for the whole-array operations. -/

namespace Sys2Proof.Laws

open Sys2Proof.Machine

/-! ## Bytes -/

/-- Every listed index of `m` is above `a`. -/
abbrev Above (a : Nat) (m : Memory) : Prop := ∀ c ∈ m, a < c.1

theorem read_of_above {m : Memory} {a : Nat} (h : Above a m) : Memory.read m a = 0 := by
  induction m with
  | nil => rfl
  | cons c m ih =>
    have hc := h c (by simp)
    rw [Memory.read, if_neg (by omega)]
    exact ih fun d hd => h d (by simp [hd])

theorem wf_cons {c : Host.Cell} {m : Memory} :
    Memory.wf (c :: m) ↔ Above c.1 m ∧ c.2 ≠ 0 ∧ Memory.wf m := by
  simp only [Memory.wf, List.pairwise_cons, List.mem_cons, forall_eq_or_imp]
  tauto

theorem wf_nil : Memory.wf [] := by simp [Memory.wf]

theorem mem_cons_sub {a : Nat} {v : Byte} {m : Memory} {c : Host.Cell} (h : c ∈ Memory.cons a v m) :
    c = (a, v) ∨ c ∈ m := by
  unfold Memory.cons at h
  split at h <;> simp_all

theorem wf_memCons {a : Nat} {v : Byte} {m : Memory} (h : Memory.wf m) (ha : Above a m) :
    Memory.wf (Memory.cons a v m) := by
  unfold Memory.cons
  split
  · exact h
  · exact wf_cons.mpr ⟨ha, by assumption, h⟩

theorem read_memCons {a b : Nat} {v : Byte} {m : Memory} (ha : Above a m) :
    Memory.read (Memory.cons a v m) b = if a = b then v else Memory.read m b := by
  unfold Memory.cons
  split
  · rename_i hv
    split
    · rename_i hb; rw [← hb, read_of_above ha, hv]
    · rfl
  · rfl

theorem mem_write_sub {m : Memory} {a : Nat} {v : Byte} {c : Host.Cell} (h : c ∈ Memory.write m a v) :
    c = (a, v) ∨ c ∈ m := by
  induction m with
  | nil => exact mem_cons_sub h
  | cons d m ih =>
    rw [Memory.write] at h
    split at h
    · exact mem_cons_sub h
    · split at h
      · rcases mem_cons_sub h with h | h
        · exact .inl h
        · exact .inr (by simp [h])
      · rcases List.mem_cons.mp h with h | h
        · exact .inr (by simp [h])
        · rcases ih h with h | h
          · exact .inl h
          · exact .inr (by simp [h])

/-- A write keeps the canonical form. -/
theorem write_wf {m : Memory} (h : Memory.wf m) (a : Nat) (v : Byte) : Memory.wf (Memory.write m a v) := by
  induction m with
  | nil => exact wf_memCons wf_nil (by simp)
  | cons d m ih =>
    obtain ⟨hd, hv, hm⟩ := wf_cons.mp h
    rw [Memory.write]
    split
    · rename_i hlt
      refine wf_memCons h fun c hc => ?_
      rcases List.mem_cons.mp hc with rfl | hc
      · exact hlt
      · exact Nat.lt_trans hlt (hd c hc)
    · split
      · rename_i _ heq
        exact wf_memCons hm fun c hc => heq ▸ hd c hc
      · refine wf_cons.mpr ⟨fun c hc => ?_, hv, ih hm⟩
        rcases mem_write_sub hc with rfl | hc
        · simp only; omega
        · exact hd c hc

/-- A read after a write: the byte written at its own index, every other byte as before. -/
theorem read_write {m : Memory} (h : Memory.wf m) (a b : Nat) (v : Byte) :
    Memory.read (Memory.write m a v) b = if a = b then v else Memory.read m b := by
  induction m with
  | nil => rw [Memory.write, read_memCons (by simp)]
  | cons d m ih =>
    obtain ⟨hd, -, hm⟩ := wf_cons.mp h
    rw [Memory.write]
    split
    · rename_i hlt
      refine read_memCons fun c hc => ?_
      rcases List.mem_cons.mp hc with rfl | hc
      · exact hlt
      · exact Nat.lt_trans hlt (hd c hc)
    · split
      · rename_i _ heq
        rw [read_memCons fun c hc => heq ▸ hd c hc, Memory.read]
        split
        · rfl
        · rename_i hne; rw [if_neg (by omega)]
      · rename_i hlt hne
        rw [Memory.read, Memory.read, ih hm]
        split
        · rename_i hdb; rw [if_neg (by omega)]
        · rfl

/-! ## Bits of a byte -/

theorem cellMask_getLsbD (n b r : Nat) : (cellMask n b).getLsbD r = decide (r < 8 ∧ 8 * b + r < n) := by
  unfold cellMask
  rw [BitVec.getLsbD_ofNat, Nat.testBit_two_pow_sub_one]
  by_cases h : r < 8 <;> by_cases h' : 8 * b + r < n <;> simp [h, h'] <;> omega

theorem setBitOf_getLsbD (v : Byte) (r q : Nat) (x : Bool) (hr : r < 8) :
    (setBitOf v r x).getLsbD q = if q = r then x else v.getLsbD q := by
  unfold setBitOf
  have one : ∀ q, (1#8 <<< r).getLsbD q = decide (q = r) := by
    intro q
    simp only [BitVec.getLsbD_shiftLeft, BitVec.getLsbD_one]
    by_cases hq : q = r
    · subst hq; simp [hr]
    · by_cases h8 : q < 8 <;> simp [hq, h8] <;> omega
  cases x with
  | true =>
    rw [if_pos rfl, BitVec.getLsbD_or, one]
    by_cases hq : q = r <;> simp [hq]
  | false =>
    rw [if_neg (by simp), BitVec.getLsbD_and, BitVec.getLsbD_not, one]
    by_cases hq : q = r
    · simp [hq]
    · by_cases h8 : q < 8
      · simp [hq, h8]
      · have : v.getLsbD q = false := BitVec.getLsbD_of_ge v q (by omega)
        simp [hq, this]

/-! ## Bitsets -/

theorem bit_of_ge {X : Bitset} {p : Nat} (h : X.n.toNat ≤ p) : X.bit p = false := by
  simp [Bitset.bit, Nat.not_lt.mpr h]

theorem bit_of_lt {X : Bitset} {p : Nat} (h : p < X.n.toNat) :
    X.bit p = (Memory.read X.mem (p / 8)).getLsbD (p % 8) := by
  simp [Bitset.bit, h]

theorem bitRead_of_lt {X : Bitset} {p : Nat} (h : p < X.n.toNat) : X.bitRead p = .next (X.bit p) := by
  simp [Bitset.bitRead, h]

theorem bitRead_eq_next {X : Bitset} {p : Nat} {b : Bool} :
    X.bitRead p = .next b ↔ p < X.n.toNat ∧ X.bit p = b := by
  unfold Bitset.bitRead
  split <;> simp [*]

/-- The byte view is the bits of the byte's positions, pad bits reading 0 (R63). -/
theorem byte_getLsbD {X : Bitset} {b r : Nat} (hr : r < 8) : (X.byte b).getLsbD r = X.bit (8 * b + r) := by
  rw [Bitset.byte, BitVec.getLsbD_and, cellMask_getLsbD, Bitset.bit]
  have h1 : (8 * b + r) / 8 = b := by omega
  have h2 : (8 * b + r) % 8 = r := by omega
  rw [h1, h2]
  by_cases h : 8 * b + r < X.n.toNat <;> simp [hr, h]

/-- In the canonical form the stored byte is the byte view. -/
theorem read_eq_byte {X : Bitset} (h : X.wf) (b : Nat) : Memory.read X.mem b = X.byte b := by
  have key : ∀ m : Memory, (∀ c ∈ m, c.2 &&& cellMask X.n.toNat c.1 = c.2) →
      Memory.read m b = Memory.read m b &&& cellMask X.n.toNat b := by
    intro m hm
    induction m with
    | nil => simp [Memory.read]
    | cons c m ih =>
      rw [Memory.read]
      split
      · rename_i hc; rw [← hc]; exact (hm c (by simp)).symm
      · exact ih fun d hd => hm d (by simp [hd])
  exact key _ fun c hc => (h.2 c hc).2

/-- Everything `BitWrite` can do. -/
theorem bitWrite_eq_next {X Y : Bitset} {p : Nat} {x : Bool} :
    X.bitWrite p x = .next Y ↔ p < X.n.toNat ∧
      Y = { X with mem := Memory.write X.mem (p / 8) (setBitOf (Memory.read X.mem (p / 8)) (p % 8) x) } := by
  unfold Bitset.bitWrite
  split <;> simp [*, eq_comm]

theorem bitWrite_of_lt {X : Bitset} {p : Nat} {x : Bool} (h : p < X.n.toNat) :
    ∃ Y, X.bitWrite p x = .next Y := by
  simp [Bitset.bitWrite, h]

theorem bitWrite_n {X Y : Bitset} {p : Nat} {x : Bool} (h : X.bitWrite p x = .next Y) : Y.n = X.n := by
  obtain ⟨-, rfl⟩ := bitWrite_eq_next.mp h
  rfl

/-- `BitWrite` changes one bit (R62). -/
theorem bitWrite_bit {X Y : Bitset} {p : Nat} {x : Bool} (hX : Memory.wf X.mem) (h : X.bitWrite p x = .next Y)
    (q : Nat) : Y.bit q = if q = p then x else X.bit q := by
  obtain ⟨hp, rfl⟩ := bitWrite_eq_next.mp h
  unfold Bitset.bit
  simp only [read_write hX]
  by_cases hb : p / 8 = q / 8
  · rw [if_pos hb, setBitOf_getLsbD _ _ _ _ (by omega)]
    by_cases hq : q = p
    · simp [hq, hp]
    · rw [if_neg (by omega), if_neg hq, hb]
  · rw [if_neg hb, if_neg (by rintro rfl; exact hb rfl)]

theorem bitWrite_wf {X Y : Bitset} {p : Nat} {x : Bool} (hX : X.wf) (h : X.bitWrite p x = .next Y) : Y.wf := by
  obtain ⟨hp, rfl⟩ := bitWrite_eq_next.mp h
  refine ⟨write_wf hX.1 _ _, fun c hc => ?_⟩
  rcases mem_write_sub hc with rfl | hc
  · refine ⟨by simp only [bytesFor]; omega, ?_⟩
    refine BitVec.eq_of_getLsbD_eq fun i hi => ?_
    rw [BitVec.getLsbD_and, cellMask_getLsbD, setBitOf_getLsbD _ _ _ _ (by omega), read_eq_byte hX, byte_getLsbD hi]
    by_cases hn : 8 * (p / 8) + i < X.n.toNat
    · simp [hi, hn]
    · rw [if_neg (by omega), bit_of_ge (by omega), Bool.false_and]
  · exact hX.2 c hc

/-- Everything `MemWrite` can do. -/
theorem memWrite_eq_next {X Y : Bitset} {b : Nat} {v : Byte} :
    X.memWrite b v = .next Y ↔ b < bytesFor X.n.toNat ∧
      Y = { X with mem := Memory.write X.mem b (v &&& cellMask X.n.toNat b) } := by
  unfold Bitset.memWrite
  split <;> simp [*, eq_comm]

theorem memWrite_n {X Y : Bitset} {b : Nat} {v : Byte} (h : X.memWrite b v = .next Y) : Y.n = X.n := by
  obtain ⟨-, rfl⟩ := memWrite_eq_next.mp h
  rfl

/-- `MemWrite` sets the cells of one byte (R63). -/
theorem memWrite_bit {X Y : Bitset} {b : Nat} {v : Byte} (hX : Memory.wf X.mem) (h : X.memWrite b v = .next Y)
    (q : Nat) : Y.bit q = if q / 8 = b ∧ q < X.n.toNat then v.getLsbD (q % 8) else X.bit q := by
  obtain ⟨-, rfl⟩ := memWrite_eq_next.mp h
  unfold Bitset.bit
  simp only [read_write hX]
  by_cases hq : q < X.n.toNat
  · by_cases hb : q / 8 = b
    · subst hb
      rw [if_pos rfl, if_pos ⟨rfl, hq⟩, BitVec.getLsbD_and, cellMask_getLsbD]
      have : 8 * (q / 8) + q % 8 < X.n.toNat := by omega
      simp [hq, this, Nat.mod_lt]
    · rw [if_neg fun h => hb h.symm, if_neg fun h => hb h.1]
  · simp [hq]

theorem memWrite_wf {X Y : Bitset} {b : Nat} {v : Byte} (hX : X.wf) (h : X.memWrite b v = .next Y) : Y.wf := by
  obtain ⟨hb, rfl⟩ := memWrite_eq_next.mp h
  refine ⟨write_wf hX.1 _ _, fun c hc => ?_⟩
  rcases mem_write_sub hc with rfl | hc
  · exact ⟨hb, by simp only [BitVec.and_assoc, BitVec.and_self]⟩
  · exact hX.2 c hc

/-! ## Whole-array operations -/

theorem fillBytes_spec (n k : Nat) (m : Memory) (hm : Memory.wf m) (ha : ∀ c ∈ m, k ≤ c.1) :
    Memory.wf (fillBytes n k m) ∧
    (∀ b, Memory.read (fillBytes n k m) b =
      if b < k then cellMask n b &&& (if b = 0 then 0xFE else 0xFF) else Memory.read m b) ∧
    (∀ c ∈ fillBytes n k m, c ∈ m ∨ (c.1 < k ∧ c.2 &&& cellMask n c.1 = c.2)) := by
  induction k generalizing m with
  | zero => exact ⟨hm, fun b => by simp [fillBytes], fun c hc => .inl hc⟩
  | succ k ih =>
    have hk : Above k m := fun c hc => by have := ha c hc; omega
    have hm' := wf_memCons (v := cellMask n k &&& (if k = 0 then 0xFE else 0xFF)) hm hk
    obtain ⟨h1, h2, h3⟩ := ih _ hm' fun c hc => by
      rcases mem_cons_sub hc with rfl | hc
      · exact Nat.le_refl _
      · have := ha c hc; omega
    refine ⟨h1, fun b => ?_, fun c hc => ?_⟩
    · rw [fillBytes, h2, read_memCons hk]
      by_cases hb : b < k
      · have hb' : b < k + 1 := by omega
        simp only [hb, hb', if_true]
      · by_cases hbk : k = b
        · subst hbk; simp
        · have hb' : ¬b < k + 1 := by omega
          simp only [hb, hbk, hb', if_false]
    · rcases h3 c hc with hc | ⟨hc, he⟩
      · rcases mem_cons_sub hc with rfl | hc
        · refine .inr ⟨by simp, ?_⟩
          simp only
          rw [BitVec.and_assoc, BitVec.and_comm (if k = 0 then _ else _), ← BitVec.and_assoc, BitVec.and_self]
        · exact .inl hc
      · exact .inr ⟨by omega, he⟩

/-- What `BS.FILL` leaves (R121): the canonical form, and every position set but position 0. -/
theorem filled_wf (n : Word) : (Bitset.filled n).wf := by
  obtain ⟨h1, -, h3⟩ := fillBytes_spec n.toNat (bytesFor n.toNat) [] wf_nil (by simp)
  exact ⟨h1, fun c hc => (h3 c hc).resolve_left (by simp)⟩

@[simp] theorem filled_n (n : Word) : (Bitset.filled n).n = n := rfl

theorem filled_bit (n : Word) (p : Nat) : (Bitset.filled n).bit p = decide (p < n.toNat ∧ p ≠ 0) := by
  obtain ⟨-, h2, -⟩ := fillBytes_spec n.toNat (bytesFor n.toNat) [] wf_nil (by simp)
  unfold Bitset.bit
  simp only [Bitset.filled, h2]
  by_cases hp : p < n.toNat
  · have hm : (cellMask n.toNat (p / 8)).getLsbD (p % 8) = true := by
      rw [cellMask_getLsbD]; simp only [decide_eq_true_eq]; omega
    rw [if_pos (by simp only [bytesFor]; omega), BitVec.getLsbD_and, hm]
    by_cases h8 : p / 8 = 0
    · have hp8 : p < 8 := by omega
      rw [if_pos h8]
      interval_cases p <;> simp [hp]
    · rw [if_neg h8]
      have : p % 8 < 8 := Nat.mod_lt _ (by omega)
      have hff : (255#8).getLsbD (p % 8) = true := by interval_cases p % 8 <;> rfl
      have : p ≠ 0 := by rintro rfl; simp at h8
      simp [hp, hff, this]
  · simp [hp]

/-- Everything `BS.FILL` can do. -/
theorem fill_eq_next {cap n : Nat} {X : Bitset} :
    Bitset.fill cap n = .next X ↔ (1 ≤ n ∧ n ≤ cap ∧ n < 2 ^ 64) ∧ X = Bitset.filled (BitVec.ofNat 64 n) := by
  unfold Bitset.fill
  split
  · next h => exact ⟨fun e => ⟨h, by cases e; rfl⟩, fun e => by rw [e.2]⟩
  · next h => exact ⟨nofun, fun e => absurd e.1 h⟩

@[simp] theorem copied_n (X : Bitset) : X.copied.n = X.n := rfl

theorem copied_mem {X : Bitset} {c : Host.Cell} : c ∈ X.copied.mem ↔
    ∃ v, (c.1, v) ∈ X.mem ∧ c.1 < bytesFor X.n.toNat ∧ v &&& cellMask X.n.toNat c.1 ≠ 0 ∧
      c.2 = v &&& cellMask X.n.toNat c.1 := by
  simp only [Bitset.copied, List.mem_filterMap]
  constructor
  · rintro ⟨d, hd, h⟩
    split at h
    · obtain rfl := Option.some.inj h
      exact ⟨d.2, hd, by tauto⟩
    · simp at h
  · rintro ⟨v, hv, h1, h2, h3⟩
    exact ⟨(c.1, v), hv, by rw [if_pos ⟨h1, h2⟩, ← h3]⟩

/-- What `BS.COPY` leaves (R125): the canonical form, the source's length and the source's bits. -/
theorem copied_wf {X : Bitset} (hX : Memory.wf X.mem) : X.copied.wf := by
  refine ⟨⟨?_, fun c hc => ?_⟩, fun c hc => ?_⟩
  · refine List.Pairwise.filterMap _ (fun c d hcd c' hc' d' hd' => ?_) hX.1
    simp only [Option.ite_none_right_eq_some, Option.some.injEq] at hc' hd'
    obtain ⟨-, rfl⟩ := hc'
    obtain ⟨-, rfl⟩ := hd'
    exact hcd
  · obtain ⟨v, -, -, h2, h3⟩ := copied_mem.mp hc
    rw [h3]; exact h2
  · obtain ⟨v, -, h1, -, h3⟩ := copied_mem.mp hc
    exact ⟨h1, by rw [h3, copied_n, BitVec.and_assoc, BitVec.and_self]⟩

theorem read_eq_of_mem {m : Memory} (h : Memory.wf m) {c : Host.Cell} (hc : c ∈ m) : Memory.read m c.1 = c.2 := by
  induction m with
  | nil => simp at hc
  | cons d m ih =>
    obtain ⟨hd, -, hm⟩ := wf_cons.mp h
    rw [Memory.read]
    rcases List.mem_cons.mp hc with rfl | hc
    · rw [if_pos rfl]
    · have := hd c hc
      rw [if_neg (by omega), ih hm hc]

theorem read_ne_zero_mem {m : Memory} {a : Nat} (h : Memory.read m a ≠ 0) : (a, Memory.read m a) ∈ m := by
  induction m with
  | nil => simp [Memory.read] at h
  | cons d m ih =>
    rw [Memory.read] at h ⊢
    split at h
    · rename_i hd
      rw [if_pos hd, ← hd]
      exact List.mem_cons_self
    · rename_i hd; rw [if_neg hd]; exact List.mem_cons_of_mem _ (ih h)

theorem copied_byte {X : Bitset} (hX : Memory.wf X.mem) (b : Nat) (hb : b < bytesFor X.n.toNat) :
    Memory.read X.copied.mem b = X.byte b := by
  by_cases h0 : X.byte b = 0
  · rw [h0]
    by_contra hne
    obtain ⟨v, hv, -, h2, -⟩ := copied_mem.mp (read_ne_zero_mem hne)
    rw [Bitset.byte, read_eq_of_mem hX hv] at h0
    exact h2 h0
  · have hr : Memory.read X.mem b ≠ 0 := by
      intro h; rw [Bitset.byte, h] at h0; simp at h0
    have : (b, X.byte b) ∈ X.copied.mem := copied_mem.mpr ⟨_, read_ne_zero_mem hr, hb, h0, rfl⟩
    exact read_eq_of_mem (copied_wf hX).1 this

theorem copied_bit {X : Bitset} (hX : Memory.wf X.mem) (p : Nat) : X.copied.bit p = X.bit p := by
  by_cases hp : p < X.n.toNat
  · rw [bit_of_lt (by simpa using hp), copied_byte hX _ (by simp only [bytesFor]; omega),
      byte_getLsbD (Nat.mod_lt _ (by omega)), Nat.div_add_mod]
  · rw [bit_of_ge (by simpa using hp), bit_of_ge (by omega)]

/-- Everything `BS.COPY` can do. -/
theorem copy_eq_next {cap : Nat} {X Y : Bitset} :
    Bitset.copy cap X = .next Y ↔ X.n.toNat ≤ cap ∧ Y = X.copied := by
  unfold Bitset.copy
  split <;> simp [*, eq_comm]

/-- Everything a run of `BS.CLR` over `k` positions from `lo` can do (R128). -/
theorem clearFrom_spec {k : Nat} {X Y : Bitset} {lo : Nat} (h : Bitset.clearFrom k X lo = .next Y) :
    Y.n = X.n ∧ (X.wf → Y.wf) ∧
    (Memory.wf X.mem → Memory.wf Y.mem ∧ ∀ q, Y.bit q = (X.bit q && !decide (lo ≤ q ∧ q < lo + k))) := by
  induction k generalizing X lo with
  | zero =>
    simp only [Bitset.clearFrom, Host.Outcome.next.injEq] at h
    subst h
    refine ⟨rfl, id, fun hm => ⟨hm, fun q => ?_⟩⟩
    have : ¬(lo ≤ q ∧ q < lo + 0) := by omega
    rw [decide_eq_false this, Bool.not_false, Bool.and_true]
  | succ k ih =>
    rw [Bitset.clearFrom, bind_eq_next] at h
    obtain ⟨Z, hZ, h⟩ := h
    obtain ⟨h1, h2, h3⟩ := ih h
    have hn := bitWrite_n hZ
    refine ⟨h1.trans hn, fun hw => h2 (bitWrite_wf hw hZ), fun hm => ?_⟩
    have hZm : Memory.wf Z.mem := by
      obtain ⟨-, rfl⟩ := bitWrite_eq_next.mp hZ
      exact write_wf hm _ _
    obtain ⟨h4, h5⟩ := h3 hZm
    refine ⟨h4, fun q => ?_⟩
    rw [h5, bitWrite_bit hm hZ]
    by_cases hq : q = lo
    · subst hq; simp
    · have : (lo + 1 ≤ q ∧ q < lo + 1 + k) ↔ (lo ≤ q ∧ q < lo + (k + 1)) := by omega
      rw [if_neg hq, decide_eq_decide.mpr this]

/-- It ends where every position it clears is one of the bitset's. -/
theorem clearFrom_ends (k : Nat) (X : Bitset) (lo : Nat) (h : k = 0 ∨ lo + k ≤ X.n.toNat) :
    ∃ Y, Bitset.clearFrom k X lo = .next Y := by
  induction k generalizing X lo with
  | zero => exact ⟨X, rfl⟩
  | succ k ih =>
    obtain ⟨Z, hZ⟩ := bitWrite_of_lt (X := X) (p := lo) (x := false) (by omega)
    obtain ⟨Y, hY⟩ := ih Z (lo + 1) (by rw [bitWrite_n hZ]; omega)
    exact ⟨Y, by rw [Bitset.clearFrom, hZ, bind_next, hY]⟩

theorem reset_bitset_wf : Bitset.reset.wf := by decide

end Sys2Proof.Laws
end

