-- ==== Sys2Proof/Laws/Marker.lean ====
section
/-! SUPPORT. The laws of the marking recurrence: what one advance, one stride and one seek leave, and what the
marking loop clears. -/

namespace Sys2Proof.Laws

open Sys2Proof.Machine

@[simp] theorem init_i (m : Marker) : m.init.i = 1 := rfl
@[simp] theorem init_c (m : Marker) : m.init.c = 0 := rfl
@[simp] theorem init_k (m : Marker) : m.init.k = 1 := rfl
@[simp] theorem init_t (m : Marker) : m.init.t = 2 := rfl
@[simp] theorem stride_i (m : Marker) : m.stride.i = m.i := rfl
@[simp] theorem stride_c (m : Marker) : m.stride.c = m.c := rfl
@[simp] theorem stride_k (m : Marker) : m.stride.k = m.k := rfl
@[simp] theorem stride_t (m : Marker) : m.stride.t = m.t := rfl
@[simp] theorem advance_k (m : Marker) : m.advance.k = BitVec.ofNat 2 (3 - m.k.toNat) := rfl
@[simp] theorem advance_j (m : Marker) : m.advance.j = m.advance.c := rfl

/-- `WM.SEEK` moves the walking pair only. -/
theorem seek_frame (m : Marker) (joff : Nat) :
    (m.seek joff).i = m.i ∧ (m.seek joff).c = m.c ∧ (m.seek joff).k = m.k ∧ (m.seek joff).t = m.t := by
  unfold Marker.seek
  split
  · dsimp only; split <;> exact ⟨rfl, rfl, rfl, rfl⟩
  · exact ⟨rfl, rfl, rfl, rfl⟩

theorem stride_j {m : Marker} (h : m.j.toNat + m.ij.toNat < 2 ^ 64) :
    m.stride.j.toNat = m.j.toNat + m.ij.toNat := by
  have : ((m.j.toNat : Int) + m.ij.toNat) = ((m.j.toNat + m.ij.toNat : Nat) : Int) := by push_cast; rfl
  rw [Marker.stride, this, narrow_toNat h]

theorem stride_ij {m : Marker} (h : m.ij.toNat ≤ m.t.toNat) :
    m.stride.ij.toNat = m.t.toNat - m.ij.toNat :=
  narrow_sub_toNat h m.t.isLt

theorem stride_walking {m : Marker} (h : m.walking) : m.stride.walking := by
  obtain ⟨h1, h2⟩ := h
  unfold Marker.walking
  rw [stride_ij (by omega), stride_t]
  omega

/-- After one stride the walk is the same walk, one member on. -/
theorem walkMember_stride (j ij t s : Nat) (h : ij ≤ t) :
    walkMember (j + ij) (t - ij) t s = walkMember j ij t (s + 1) := by
  unfold walkMember
  rcases Nat.mod_two_eq_zero_or_one s with hs | hs
  · have h1 : (s + 1) / 2 = s / 2 := by omega
    have h2 : (s + 1) % 2 = 1 := by omega
    simp only [hs, h1, h2, if_true, if_neg (by omega : ¬(0 = 1))]
    omega
  · have h1 : (s + 1) / 2 = s / 2 + 1 := by omega
    have h2 : (s + 1) % 2 = 0 := by omega
    simp only [hs, h1, h2, if_true, if_neg (by omega : ¬(0 = 1)), Nat.add_mul]
    omega

theorem walkMember_zero (j ij t : Nat) : walkMember j ij t 0 = j := by simp [walkMember]

theorem walkMember_ge (j ij t s : Nat) : j ≤ walkMember j ij t s := by
  unfold walkMember
  omega

/-- Everything a marking loop that ends can do, from any registers: it changes the walking pair and clears bits. -/
theorem markLoop_frame {k : Nat} {m m' : Marker} {X X' : Bitset} {joff mx : Nat}
    (h : Marker.markLoop k m X joff mx = .next (m', X')) :
    m'.i = m.i ∧ m'.c = m.c ∧ m'.k = m.k ∧ m'.t = m.t ∧ X'.n = X.n ∧ (X.wf → X'.wf) ∧
    (Memory.wf X.mem → Memory.wf X'.mem ∧ ∀ q, X'.bit q = true → X.bit q = true) := by
  induction k generalizing m X with
  | zero => simp [Marker.markLoop] at h
  | succ k ih =>
    rw [Marker.markLoop] at h
    split at h
    · simp at h
    · split at h
      · rw [bind_eq_next] at h
        obtain ⟨Y, hY, h⟩ := h
        split at h
        · simp at h
        · obtain ⟨h1, h2, h3, h4, h5, h6, h7⟩ := ih h
          refine ⟨h1, h2, h3, h4, h5.trans (bitWrite_n hY), fun hw => h6 (bitWrite_wf hw hY), fun hm => ?_⟩
          have hYm : Memory.wf Y.mem := by
            obtain ⟨-, rfl⟩ := bitWrite_eq_next.mp hY
            exact write_wf hm _ _
          refine ⟨(h7 hYm).1, fun q hq => ?_⟩
          have := (h7 hYm).2 q hq
          rw [bitWrite_bit hm hY] at this
          split at this
          · simp at this
          · exact this
      · simp only [Host.Outcome.next.injEq, Prod.mk.injEq] at h
        obtain ⟨rfl, rfl⟩ := h
        exact ⟨rfl, rfl, rfl, rfl, rfl, id, fun hm => ⟨hm, fun _ => id⟩⟩

/-- A marking loop in the middle of a walk ends, and clears exactly the walk's members up to `mx` (R153). -/
theorem markLoop_spec (k : Nat) (m : Marker) (X : Bitset) (joff mx : Nat) (hw : m.walking) (hm : Memory.wf X.mem)
    (hj : joff ≤ m.j.toNat) (hmx : mx < X.n.toNat) (hb : joff + mx + m.t.toNat < 2 ^ 64)
    (hk : joff + mx + 1 - m.j.toNat < k) :
    ∃ m' X', Marker.markLoop k m X joff mx = .next (m', X') ∧ m'.walking ∧
      joff + mx < m'.j.toNat ∧ (m'.j.toNat ≤ joff + mx + m.t.toNat ∨ m' = m) ∧
      ∀ q, X'.bit q = true ↔
        X.bit q = true ∧ ¬(q ≤ mx ∧ ∃ s, q + joff = walkMember m.j.toNat m.ij.toNat m.t.toNat s) := by
  induction k generalizing m X with
  | zero => omega
  | succ k ih =>
    obtain ⟨hij0, hijt⟩ := id hw
    rw [Marker.markLoop, if_neg (by omega)]
    by_cases hle : m.j.toNat - joff ≤ mx
    · rw [if_pos hle]
      obtain ⟨Y, hY⟩ := bitWrite_of_lt (X := X) (p := m.j.toNat - joff) (x := false) (by omega)
      have hsj : m.stride.j.toNat = m.j.toNat + m.ij.toNat := stride_j (by omega)
      have hsij : m.stride.ij.toNat = m.t.toNat - m.ij.toNat := stride_ij (by omega)
      have hne : m.stride ≠ m := fun h => by rw [h] at hsj; omega
      have hYm : Memory.wf Y.mem := by
        obtain ⟨-, rfl⟩ := bitWrite_eq_next.mp hY
        exact write_wf hm _ _
      obtain ⟨m', X', h1, h2, h3, h4, h5⟩ := ih m.stride Y (stride_walking hw) hYm (by omega)
        (by rw [bitWrite_n hY]; exact hmx) (by rw [stride_t]; exact hb) (by omega)
      refine ⟨m', X', by rw [hY, bind_next, if_neg hne, h1], h2, h3, ?_, fun q => ?_⟩
      · rcases h4 with h4 | rfl
        · rw [stride_t] at h4; exact .inl h4
        · left; omega
      · rw [h5, bitWrite_bit hm hY, hsj, hsij, stride_t]
        constructor
        · rintro ⟨ha, hb⟩
          by_cases hq : q = m.j.toNat - joff
          · simp [hq] at ha
          · rw [if_neg hq] at ha
            refine ⟨ha, fun ⟨hqm, s, hs⟩ => ?_⟩
            cases s with
            | zero => rw [walkMember_zero] at hs; omega
            | succ s => exact hb ⟨hqm, s, by rw [walkMember_stride _ _ _ _ (by omega)]; exact hs⟩
        · rintro ⟨ha, hb⟩
          have hq : q ≠ m.j.toNat - joff := fun hq =>
            hb ⟨by omega, 0, by rw [walkMember_zero]; omega⟩
          rw [if_neg hq]
          refine ⟨ha, fun ⟨hqm, s, hs⟩ => hb ⟨hqm, s + 1, ?_⟩⟩
          rw [← walkMember_stride _ _ _ _ (by omega)]; exact hs
    · rw [if_neg hle]
      refine ⟨m, X, rfl, hw, by omega, .inr rfl, fun q => ⟨fun h => ⟨h, fun ⟨hqm, s, hs⟩ => ?_⟩, fun h => h.1⟩⟩
      have := walkMember_ge m.j.toNat m.ij.toNat m.t.toNat s
      omega

end Sys2Proof.Laws
end

