-- ==== Sys2Proof/Laws/PerInstr.lean ====
section
/-! SUPPORT. What is said of every operation as syntax, one lemma per constructor: its encoding is a word of its row of
spec/opcode_table.json. -/

namespace Sys2Proof.Laws.EncodedAsRow

/-- The row of spec/opcode_table.json an operation stands in: width, mask and match. -/
def row : Instr → Nat × Nat × Nat
  | .bsFill _ _ => (8, 0xFF, 0x10)
  | .bsGet _ _ => (8, 0xFF, 0x11)
  | .bsSet _ _ => (8, 0xFF, 0x12)
  | .bsClr _ _ => (8, 0xFF, 0x13)
  | .bsPopcnt _ => (8, 0xFF, 0x14)
  | .bsCopy _ _ => (8, 0xFF, 0x15)
  | .bsPutb _ _ _ => (8, 0xFF, 0x16)
  | .bsClrr _ _ _ => (8, 0xFF, 0x17)
  | .wcDec _ _ => (8, 0xFF, 0x20)
  | .wcEnc _ => (8, 0xFF, 0x21)
  | .wmInit _ => (8, 0xFF, 0x30)
  | .wmNext _ => (8, 0xFF, 0x31)
  | .wmSeek _ _ => (8, 0xFF, 0x32)
  | .wmStep _ => (8, 0xFF, 0x33)
  | .wmMark _ _ _ _ => (8, 0xFF, 0x34)
  | .wmLoad _ => (8, 0xFF, 0x35)
  | .orcBuild => (8, 0xFF, 0x40)
  | .tplBuild => (8, 0xFF, 0x41)
  | .orcTest _ => (8, 0xFF, 0x42)
  | .segSetup _ => (8, 0xFF, 0x50)
  | .segCopy _ => (8, 0xFF, 0x51)
  | .segClip _ => (8, 0xFF, 0x52)
  | .segSieve _ => (8, 0xFF, 0x53)
  | .aggCount _ => (8, 0xFF, 0x60)
  | .aggSum _ => (8, 0xFF, 0x61)
  | .aggPrint _ => (8, 0xFF, 0x62)
  | .fmtDec _ _ => (8, 0xFF, 0x63)
  | .schCheck => (8, 0xFF, 0x70)
  | .schConfig => (8, 0xFF, 0x71)
  | .schDispatch _ => (8, 0xFF, 0x72)
  | .schReduce _ => (8, 0xFF, 0x73)
  | .gateWait _ => (8, 0xFF, 0x74)
  | .gateEmit _ => (8, 0xFF, 0x75)
  | .gatePass _ => (8, 0xFF, 0x76)
  | .schJoin => (8, 0xFF, 0x77)
  | .schFail _ => (8, 0xFF, 0x78)
  | .hostRd _ => (72, 0x1, 0x0)
  | .hostWr _ _ => (72, 0x1, 0x1)
  | .sieveCount => (64, 0x7, 0x1)
  | .sieveSum => (64, 0x7, 0x3)
  | .sievePrint => (64, 0x7, 0x5)
  | .sieveRsvd => (64, 0x7, 0x7)
  | .ctrlMode _ => (64, 0x1, 0x0)

/-- The width and the bits of a command. -/
def bits : Command → Nat × Nat
  | .unit code _ => (8, code.toNat)
  | .ctrl data   => (64, data.toNat)
  | .reg access  => (72, access.toNat)

/-- The encoding has the row's width, and under the row's mask it is the row's match. -/
def Statement (i : Instr) : Prop :=
  (bits (encode i)).1 = (row i).1 ∧ (bits (encode i)).2 &&& (row i).2.1 = (row i).2.2

theorem ofUnit {i : Instr} {c : Nat} {k : Wires} (he : encode i = unitCommand c k) (hr : row i = (8, 0xFF, c))
    (hc : c < 256 ∧ c &&& 0xFF = c) : Statement i := by
  simp only [Statement, he, hr, bits, unitCommand, BitVec.toNat_ofNat, Nat.mod_eq_of_lt hc.1, hc.2, and_self]

theorem bsFill (X : BitsetId) (n : Word) : Statement (.bsFill X n) := ofUnit rfl rfl (by decide)
theorem bsGet (X : BitsetId) (p : Word) : Statement (.bsGet X p) := ofUnit rfl rfl (by decide)
theorem bsSet (X : BitsetId) (p : Word) : Statement (.bsSet X p) := ofUnit rfl rfl (by decide)
theorem bsClr (X : BitsetId) (p : Word) : Statement (.bsClr X p) := ofUnit rfl rfl (by decide)
theorem bsPopcnt (X : BitsetId) : Statement (.bsPopcnt X) := ofUnit rfl rfl (by decide)
theorem bsCopy (Xdst : BitsetId) (Xsrc : BitsetId) : Statement (.bsCopy Xdst Xsrc) := ofUnit rfl rfl (by decide)
theorem bsPutb (X : BitsetId) (b : Word) (v : Byte) : Statement (.bsPutb X b v) := ofUnit rfl rfl (by decide)
theorem bsClrr (X : BitsetId) (lo : Word) (hi : Word) : Statement (.bsClrr X lo hi) := ofUnit rfl rfl (by decide)
theorem wcDec (base : IndexBase) (i : Word) : Statement (.wcDec base i) := ofUnit rfl rfl (by decide)
theorem wcEnc (n : Word) : Statement (.wcEnc n) := ofUnit rfl rfl (by decide)
theorem wmInit (M : MarkerId) : Statement (.wmInit M) := ofUnit rfl rfl (by decide)
theorem wmNext (M : MarkerId) : Statement (.wmNext M) := ofUnit rfl rfl (by decide)
theorem wmSeek (M : MarkerId) (joff : Word) : Statement (.wmSeek M joff) := ofUnit rfl rfl (by decide)
theorem wmStep (M : MarkerId) : Statement (.wmStep M) := ofUnit rfl rfl (by decide)
theorem wmMark (M : MarkerId) (X : BitsetId) (joff : Word) (mx : Word) : Statement (.wmMark M X joff mx) := ofUnit rfl rfl (by decide)
theorem wmLoad (w : Nat) : Statement (.wmLoad w) := ofUnit rfl rfl (by decide)
theorem orcBuild : Statement (.orcBuild) := ofUnit rfl rfl (by decide)
theorem tplBuild : Statement (.tplBuild) := ofUnit rfl rfl (by decide)
theorem orcTest (i : Word) : Statement (.orcTest i) := ofUnit rfl rfl (by decide)
theorem segSetup (w : Nat) : Statement (.segSetup w) := ofUnit rfl rfl (by decide)
theorem segCopy (w : Nat) : Statement (.segCopy w) := ofUnit rfl rfl (by decide)
theorem segClip (w : Nat) : Statement (.segClip w) := ofUnit rfl rfl (by decide)
theorem segSieve (w : Nat) : Statement (.segSieve w) := ofUnit rfl rfl (by decide)
theorem aggCount (w : Nat) : Statement (.aggCount w) := ofUnit rfl rfl (by decide)
theorem aggSum (w : Nat) : Statement (.aggSum w) := ofUnit rfl rfl (by decide)
theorem aggPrint (w : Nat) : Statement (.aggPrint w) := ofUnit rfl rfl (by decide)
theorem fmtDec (w : Nat) (v : Word) : Statement (.fmtDec w v) := ofUnit rfl rfl (by decide)
theorem schCheck : Statement (.schCheck) := ofUnit rfl rfl (by decide)
theorem schConfig : Statement (.schConfig) := ofUnit rfl rfl (by decide)
theorem schDispatch (w : Nat) : Statement (.schDispatch w) := ofUnit rfl rfl (by decide)
theorem schReduce (w : Nat) : Statement (.schReduce w) := ofUnit rfl rfl (by decide)
theorem gateWait (w : Nat) : Statement (.gateWait w) := ofUnit rfl rfl (by decide)
theorem gateEmit (w : Nat) : Statement (.gateEmit w) := ofUnit rfl rfl (by decide)
theorem gatePass (w : Nat) : Statement (.gatePass w) := ofUnit rfl rfl (by decide)
theorem schJoin : Statement (.schJoin) := ofUnit rfl rfl (by decide)
theorem schFail (w : Nat) : Statement (.schFail w) := ofUnit rfl rfl (by decide)
theorem hostRd (off : BitVec 7) : Statement (.hostRd off) := ⟨rfl, by
  simp only [bits, encode, row, regAccess, Nat.and_one_is_mod, BitVec.toNat_ofNat, Bool.toNat_false]
  omega⟩
theorem hostWr (off : BitVec 7) (data : Word) : Statement (.hostWr off data) := ⟨rfl, by
  simp only [bits, encode, row, regAccess, Nat.and_one_is_mod, BitVec.toNat_ofNat, Bool.toNat_true]
  omega⟩
theorem sieveCount : Statement (.sieveCount) := ⟨rfl, rfl⟩
theorem sieveSum : Statement (.sieveSum) := ⟨rfl, rfl⟩
theorem sievePrint : Statement (.sievePrint) := ⟨rfl, rfl⟩
theorem sieveRsvd : Statement (.sieveRsvd) := ⟨rfl, rfl⟩
theorem ctrlMode (mode : BitVec 2) : Statement (.ctrlMode mode) := ⟨rfl, by
  simp only [bits, encode, row, ctrlValue, Nat.and_one_is_mod, BitVec.toNat_ofNat, Bool.toNat_false]
  omega⟩

end Sys2Proof.Laws.EncodedAsRow
end

