-- ==== Sys2Proof/Laws/Tables.lean ====
section
/-! SUPPORT. Everything the loops of the table builders, the segment engine and the aggregator can do: if one of
them ends, it kept the length and the canonical form of the bitset it works on. -/

namespace Sys2Proof.Laws

open Sys2Proof.Machine

/-- What a computation on a bitset keeps: the length and the canonical form. -/
abbrev Keeps (X Y : Bitset) : Prop :=
  Y.n = X.n ∧ (X.wf → Y.wf) ∧ (Memory.wf X.mem → Memory.wf Y.mem)

/-- What a computation that only clears keeps besides: no bit becomes set. -/
abbrev Clears (X Y : Bitset) : Prop :=
  Keeps X Y ∧ (Memory.wf X.mem → ∀ q, Y.bit q = true → X.bit q = true)

theorem Keeps.refl (X : Bitset) : Keeps X X := ⟨rfl, id, id⟩

theorem Keeps.trans {X Y Z : Bitset} (h : Keeps X Y) (g : Keeps Y Z) : Keeps X Z :=
  ⟨g.1.trans h.1, fun hw => g.2.1 (h.2.1 hw), fun hw => g.2.2 (h.2.2 hw)⟩

theorem Clears.refl (X : Bitset) : Clears X X := ⟨Keeps.refl X, fun _ _ => id⟩

theorem Clears.trans {X Y Z : Bitset} (h : Clears X Y) (g : Clears Y Z) : Clears X Z :=
  ⟨h.1.trans g.1, fun hw q hq => h.2 hw q (g.2 (h.1.2.2 hw) q hq)⟩

theorem bitWrite_keeps {X Y : Bitset} {p : Nat} {x : Bool} (h : X.bitWrite p x = .next Y) : Keeps X Y := by
  refine ⟨bitWrite_n h, fun hw => bitWrite_wf hw h, fun hm => ?_⟩
  obtain ⟨-, rfl⟩ := bitWrite_eq_next.mp h
  exact write_wf hm _ _

theorem memWrite_keeps {X Y : Bitset} {b : Nat} {v : Byte} (h : X.memWrite b v = .next Y) : Keeps X Y := by
  refine ⟨memWrite_n h, fun hw => memWrite_wf hw h, fun hm => ?_⟩
  obtain ⟨-, rfl⟩ := memWrite_eq_next.mp h
  exact write_wf hm _ _

theorem clearRange_keeps {X Y : Bitset} {lo hi : Nat} (h : X.clearRange lo hi = .next Y) : Keeps X Y :=
  ⟨(clearFrom_spec h).1, (clearFrom_spec h).2.1, fun hm => ((clearFrom_spec h).2.2 hm).1⟩

theorem mark_frame {m m' : Marker} {X X' : Bitset} {joff mx : Nat} (h : m.mark X joff mx = .next (m', X')) :
    m'.i = m.i ∧ m'.c = m.c ∧ m'.k = m.k ∧ m'.t = m.t ∧ Clears X X' := by
  obtain ⟨h1, h2, h3, h4, h5, h6, h7⟩ := markLoop_frame h
  exact ⟨h1, h2, h3, h4, ⟨h5, h6, fun hm => (h7 hm).1⟩, fun hm => (h7 hm).2⟩

theorem oracleLoop_clears {t q : Nat} {m m' : Marker} {X X' : Bitset} (h : oracleLoop t q m X = .next (m', X')) :
    Clears X X' := by
  induction t generalizing m X with
  | zero =>
    rw [oracleLoop] at h
    split at h
    · simp at h
    · simp only [Host.Outcome.next.injEq, Prod.mk.injEq] at h
      obtain ⟨-, rfl⟩ := h
      exact Clears.refl _
  | succ t ih =>
    rw [oracleLoop] at h
    split at h
    · rw [bind_eq_next] at h
      obtain ⟨b, -, h⟩ := h
      split at h
      · rw [bind_eq_next] at h
        obtain ⟨⟨m1, X1⟩, h1, h⟩ := h
        exact (mark_frame h1).2.2.2.2.trans (ih h)
      · exact ih h
    · simp only [Host.Outcome.next.injEq, Prod.mk.injEq] at h
      obtain ⟨-, rfl⟩ := h
      exact Clears.refl _

theorem templateLoop_clears {t joff mx : Nat} {m m' : Marker} {X X' : Bitset}
    (h : templateLoop t joff mx m X = .next (m', X')) : Clears X X' := by
  induction t generalizing m X with
  | zero =>
    simp only [templateLoop, Host.Outcome.next.injEq, Prod.mk.injEq] at h
    obtain ⟨-, rfl⟩ := h
    exact Clears.refl _
  | succ t ih =>
    rw [templateLoop, bind_eq_next] at h
    obtain ⟨⟨m1, X1⟩, h1, h⟩ := h
    exact (mark_frame h1).2.2.2.2.trans (ih h)

theorem sieveLoop_clears {qtab : Nat} {spt : Bitset} {joff mx q t : Nat} {m m' : Marker} {X X' : Bitset}
    (h : sieveLoop qtab spt joff mx q t m X = .next (m', X')) : Clears X X' := by
  induction t generalizing m X with
  | zero =>
    rw [sieveLoop] at h
    split at h
    · simp at h
    · simp only [Host.Outcome.next.injEq, Prod.mk.injEq] at h
      obtain ⟨-, rfl⟩ := h
      exact Clears.refl _
  | succ t ih =>
    rw [sieveLoop] at h
    split at h
    · rw [bind_eq_next] at h
      obtain ⟨b, -, h⟩ := h
      split at h
      · rw [bind_eq_next] at h
        obtain ⟨⟨m1, X1⟩, h1, h⟩ := h
        exact (mark_frame h1).2.2.2.2.trans (ih h)
      · exact ih h
    · simp only [Host.Outcome.next.injEq, Prod.mk.injEq] at h
      obtain ⟨-, rfl⟩ := h
      exact Clears.refl _

/-- Everything writing the seed positions can do (R179, R194): the positions `a' - joff` of the `t` seed indices from
`a` on that lie above `joff` are written, no other. -/
theorem writeSeeds_spec {x : Bool} {t a joff : Nat} {X X' : Bitset} (h : writeSeeds x t a joff X = .next X') :
    Keeps X X' ∧ (Memory.wf X.mem → ∀ q, X'.bit q =
      if 0 < q ∧ a ≤ q + joff ∧ q + joff < a + t then x else X.bit q) := by
  induction t generalizing a X with
  | zero =>
    simp only [writeSeeds, Host.Outcome.next.injEq] at h
    subst h
    refine ⟨Keeps.refl _, fun _ q => ?_⟩
    rw [if_neg (by omega)]
  | succ t ih =>
    rw [writeSeeds] at h
    split at h
    · rename_i hlt
      rw [bind_eq_next] at h
      obtain ⟨Y, hY, h⟩ := h
      obtain ⟨h1, h2⟩ := ih h
      refine ⟨(bitWrite_keeps hY).trans h1, fun hm q => ?_⟩
      rw [h2 ((bitWrite_keeps hY).2.2 hm), bitWrite_bit hm hY]
      split_ifs <;> first | rfl | (exfalso; omega)
    · rename_i hge
      obtain ⟨h1, h2⟩ := ih h
      refine ⟨h1, fun hm q => ?_⟩
      rw [h2 hm]
      split_ifs <;> first | rfl | (exfalso; omega)

/-- It ends where every position it writes is one of the bitset's. -/
theorem writeSeeds_ends (x : Bool) (t a joff : Nat) (X : Bitset) (h : a + t ≤ X.n.toNat + joff) :
    ∃ X', writeSeeds x t a joff X = .next X' := by
  induction t generalizing a X with
  | zero => exact ⟨X, rfl⟩
  | succ t ih =>
    rw [writeSeeds]
    split
    · obtain ⟨Y, hY⟩ := bitWrite_of_lt (X := X) (p := a - joff) (x := x) (by omega)
      rw [hY, bind_next]
      exact ih (a + 1) Y (by rw [bitWrite_n hY]; omega)
    · exact ih (a + 1) X (by omega)

theorem clearSeeds_keeps {sa : Word} {nseed joff : Nat} {X X' : Bitset} (h : clearSeeds sa nseed joff X = .next X') :
    Keeps X X' := by
  unfold clearSeeds at h
  split at h
  · exact memWrite_keeps h
  · exact (writeSeeds_spec h).1

theorem exposeSeeds_keeps {k : Worker} {nseed : Nat} {X X' : Bitset} (h : exposeSeeds k nseed X = .next X') :
    Keeps X X' := by
  unfold exposeSeeds at h
  split at h
  · split at h
    · exact memWrite_keeps h
    · exact (writeSeeds_spec h).1
  · simp only [Host.Outcome.next.injEq] at h
    subst h; exact Keeps.refl _

theorem clipBelow_keeps {k : Worker} {js : Word} {p d : Nat} {X X' : Bitset} (h : clipBelow k js p d X = .next X') :
    Keeps X X' := by
  unfold clipBelow at h
  split at h
  · exact bitWrite_keeps h
  · simp only [Host.Outcome.next.injEq] at h
    subst h; exact Keeps.refl _

theorem clipLow_keeps {k : Worker} {js : Word} {X X' : Bitset} (h : clipLow k js X = .next X') : Keeps X X' := by
  unfold clipLow at h
  split at h
  · rw [bind_eq_next] at h
    obtain ⟨Y, hY, h⟩ := h
    exact (clipBelow_keeps hY).trans (clipBelow_keeps h)
  · simp only [Host.Outcome.next.injEq] at h
    subst h; exact Keeps.refl _

theorem clipHigh_keeps {k : Worker} {ns mtpl : Word} {X X' : Bitset} (h : clipHigh k ns mtpl X = .next X') :
    Keeps X X' := by
  unfold clipHigh at h
  split at h
  · exact clearRange_keeps h
  · simp only [Host.Outcome.next.injEq] at h
    subst h; exact Keeps.refl _

/-- A sum loop ends where every position it reads is one of the bitset's; its value is the sum over the set ones. -/
theorem sumFrom_spec (nOff : Word) (X : Bitset) (t L acc : Nat) (h : L + t ≤ X.n.toNat ∨ t = 0) :
    sumFrom nOff X t L acc =
      .next (acc + ((List.range' L t).map fun p => if X.bit p then (wheelDecode nOff p).toNat else 0).sum) := by
  induction t generalizing L acc with
  | zero => simp [sumFrom]
  | succ t ih =>
    rw [sumFrom, bitRead_of_lt (by omega), bind_next, ih _ _ (by omega), List.range'_succ, List.map_cons, List.sum_cons]
    congr 1
    split <;> omega

/-- The same for the text: the lines of the set positions in ascending order. -/
theorem printFrom_spec (nOff : Word) (X : Bitset) (t L : Nat) (text : List Byte) (h : L + t ≤ X.n.toNat ∨ t = 0) :
    printFrom nOff X t L text =
      .next (text ++ (List.range' L t).flatMap fun p => if X.bit p then decimalLine (wheelDecode nOff p) else []) := by
  induction t generalizing L text with
  | zero => simp [printFrom]
  | succ t ih =>
    rw [printFrom, bitRead_of_lt (by omega), bind_next, ih _ _ (by omega), List.range'_succ, List.flatMap_cons]
    split <;> simp

/-- The bitset memories of the reset state have the canonical form. -/
theorem reset_memWf : State.reset.memWf := by decide

end Sys2Proof.Laws
end

