-- ==== Sys2Proof/Tests/Slice0.lean ====
section
/-! SUPPORT. The model's own tests: the well-formedness checks, every operation's decoding from a word written out
from the spec's encoding tables, one step of every operation on the spec's own examples (95_test_vectors.md and the
examples of the rules), and for every statement with hypotheses a state and operands that meet them. -/

namespace Sys2Proof.Tests

open Sys2Proof.Machine

/-! ## Well-formedness: each check refuses an ill-formed term -/

theorem test_wf_fill_length_zero : (Instr.bsFill .spt 0).wellFormed = false := by decide
theorem test_wf_decode_index_zero : (Instr.wcDec .absolute 0).wellFormed = false := by decide
theorem test_wf_test_index_zero : (Instr.orcTest 0).wellFormed = false := by decide
theorem test_wf_read_offset : (Instr.hostRd 0x04).wellFormed = false ∧ (Instr.hostRd 0x58).wellFormed = false := by decide
theorem test_wf_write_offset : (Instr.hostWr 0x51 0).wellFormed = false ∧ (Instr.hostWr 0x50 7).wellFormed = true := by decide

/-! ## Decoding: the codes of R95, the `CTRL` values of R92, the accesses of R91 -/

theorem test_decode_unit1 :
    decodeTableWord 8 0b00010000 = some (.bsFill .spt 1) ∧ decodeTableWord 8 0b00010001 = some (.bsGet .spt 0) ∧
    decodeTableWord 8 0b00010010 = some (.bsSet .spt 0) ∧ decodeTableWord 8 0b00010011 = some (.bsClr .spt 0) ∧
    decodeTableWord 8 0b00010100 = some (.bsPopcnt .spt) ∧ decodeTableWord 8 0b00010101 = some (.bsCopy .spt .pst) ∧
    decodeTableWord 8 0b00010110 = some (.bsPutb .spt 0 0) ∧ decodeTableWord 8 0b00010111 = some (.bsClrr .spt 0 0) := by
  decide

theorem test_decode_units2and3 :
    decodeTableWord 8 0b00100000 = some (.wcDec .absolute 1) ∧ decodeTableWord 8 0b00100001 = some (.wcEnc 0) ∧
    decodeTableWord 8 0b00110000 = some (.wmInit .cm) ∧ decodeTableWord 8 0b00110001 = some (.wmNext .cm) ∧
    decodeTableWord 8 0b00110010 = some (.wmSeek .cm 0) ∧ decodeTableWord 8 0b00110011 = some (.wmStep .cm) ∧
    decodeTableWord 8 0b00110100 = some (.wmMark .cm .spt 0 0) ∧ decodeTableWord 8 0b00110101 = some (.wmLoad 0) := by
  decide

theorem test_decode_units4and5 :
    decodeTableWord 8 0b01000000 = some .orcBuild ∧ decodeTableWord 8 0b01000001 = some .tplBuild ∧
    decodeTableWord 8 0b01000010 = some (.orcTest 1) ∧ decodeTableWord 8 0b01010000 = some (.segSetup 0) ∧
    decodeTableWord 8 0b01010001 = some (.segCopy 0) ∧ decodeTableWord 8 0b01010010 = some (.segClip 0) ∧
    decodeTableWord 8 0b01010011 = some (.segSieve 0) := by decide

theorem test_decode_units6and7 :
    decodeTableWord 8 0b01100000 = some (.aggCount 0) ∧ decodeTableWord 8 0b01100001 = some (.aggSum 0) ∧
    decodeTableWord 8 0b01100010 = some (.aggPrint 0) ∧ decodeTableWord 8 0b01100011 = some (.fmtDec 0 2) ∧
    decodeTableWord 8 0b01110000 = some .schCheck ∧ decodeTableWord 8 0b01110001 = some .schConfig ∧
    decodeTableWord 8 0b01110010 = some (.schDispatch 0) ∧ decodeTableWord 8 0b01110011 = some (.schReduce 0) ∧
    decodeTableWord 8 0b01110100 = some (.gateWait 0) ∧ decodeTableWord 8 0b01110101 = some (.gateEmit 0) ∧
    decodeTableWord 8 0b01110110 = some (.gatePass 0) ∧ decodeTableWord 8 0b01110111 = some .schJoin ∧
    decodeTableWord 8 0b01111000 = some (.schFail 0) := by decide

theorem test_decode_host :
    decodeTableWord 64 0b001 = some .sieveCount ∧ decodeTableWord 64 0b011 = some .sieveSum ∧
    decodeTableWord 64 0b101 = some .sievePrint ∧ decodeTableWord 64 0b111 = some .sieveRsvd ∧
    decodeTableWord 64 0b100 = some (.ctrlMode 2) ∧ decodeTableWord 64 0xFFFFFFFFFFFFFFF9 = some .sieveCount ∧
    decodeTableWord 72 (0 + 2 * 0x28) = some (.hostRd 0x28) ∧
    decodeTableWord 72 (1 + 2 * 0x08 + 256 * 1000) = some (.hostWr 0x08 1000) := by decide

theorem test_decode_refuses :
    decodeTableWord 8 0x18 = none ∧ decodeTableWord 8 0x00 = none ∧ decodeTableWord 8 0x80 = none ∧
    decodeTableWord 16 0x10 = none := by decide

/-- Every operand of the issuer's wires reaches the operation (R93). -/
theorem test_decode_wires :
    decodeUnit 0x34 { marker := .m 3, x := .sb 2, joff := 7, mx := 9 } = .ok (.wmMark (.m 3) (.sb 2) 7 9) ∧
    decodeUnit 0x16 { x := .pst, b := 5, v := 0xC0 } = .ok (.bsPutb .pst 5 0xC0) := ⟨rfl, rfl⟩

/-! ## A small state -/

/-- What a computation's next state shows; none where it stopped. -/
def got {α : Type} (r : Res State) (f : State → α) : Option α :=
  match r with
  | .next t    => some (f t)
  | .fault _   => none
  | .refused _ => none

/-- The bytes `FE 0F`: twelve positions, all set but position 0 (R121). -/
def feOf : Bitset := { n := 12, mem := [(0, 0xFE), (1, 0x0F)] }

/-- Why a computation refused; none where it did not. -/
def refusal (r : Res State) : Option Refusal :=
  match r with
  | .next _    => none
  | .fault _   => none
  | .refused e => some e

/-- A marker set just after `WM.NEXT` of index 1 (R155). -/
def one : Marker := { i := 2, c := 8, k := 2, t := 10, j := 8, ij := 3 }

/-- A state whose `SPT` and `SB[1]` hold `FE 0F`, with worker 1 changed by `f` and the rest by `g`. -/
def demo (f : Worker → Worker := id) (g : State → State := id) : State :=
  g { State.reset with spt := feOf, cm := one, workers := [Worker.reset, f { Worker.reset with sb := feOf, m := one }] }

/-- The bytes of `SB[1]` and of `SPT`. -/
def bytes (t : State) : List Host.Cell × List Host.Cell :=
  (((t.workers[1]?).map (·.sb.mem)).getD [], t.spt.mem)

/-! ## Bitsets (95_test_vectors.md section 2) -/

theorem test_fill : (demo.bitset? (.sb 1)).isSome ∧ 1 ≤ (12 : Word).toNat ∧ (12 : Word).toNat ≤ demo.capacity (.sb 1) ∧
    got (exec (.bsFill (.sb 1) 12) demo) bytes = some ([(0, 0xFE), (1, 0x0F)], [(0, 0xFE), (1, 0x0F)]) ∧
    got (exec (.bsFill (.sb 1) 1) demo) bytes = some ([], [(0, 0xFE), (1, 0x0F)]) := by decide

theorem test_get : demo.bitset? .spt = some feOf ∧ (11 : Word).toNat < feOf.n.toNat ∧
    got (exec (.bsGet .spt 0) demo) (·.ret) = some [0] ∧ got (exec (.bsGet .spt 11) demo) (·.ret) = some [1] := by decide

theorem test_set_and_clear : feOf.wf ∧ (8 : Word).toNat < feOf.n.toNat ∧ (11 : Word).toNat < feOf.n.toNat ∧
    got (exec (.bsClr .spt 8) demo) (·.spt.mem) = some [(0, 0xFE), (1, 0x0E)] ∧
    got (runOps [.bsClr .spt 8, .bsSet .spt 8] demo) (·.spt.mem) = some [(0, 0xFE), (1, 0x0F)] ∧
    feOf.bit 8 = true ∧ feOf.bit 0 = false := by decide

theorem test_outside : refusal (exec (.bsGet .spt 12) demo) = some .outsideBitset ∧
    refusal (exec (.bsSet .spt 12) demo) = some .outsideBitset ∧ refusal (exec (.bsClr .spt 12) demo) = some .outsideBitset ∧
    refusal (exec (.bsPutb .spt 2 0) demo) = some .outsideBitset ∧ refusal (exec (.bsClrr .spt 12 12) demo) = some .outsideBitset ∧
    refusal (exec (.bsFill .spt 0) demo) = some .lengthOutsideCapacity ∧
    refusal (exec (.bsFill .spt 1431655768) demo) = some .lengthOutsideCapacity ∧
    refusal (exec (.segSetup 2) demo) = some (.noSuchWorker 2) ∧ demo.workers.length ≤ 2 ∧
    refusal (exec (.hostRd 0x51) demo) = some (.outsideInterface 0x51) ∧
    refusal (exec (.hostWr 0x58 0) demo) = some (.outsideInterface 0x58) := by
  decide +kernel

/-- The accesses outside of the operations with no operand of their own for it, each just past its bound. -/
theorem test_outside_composites :
    let small := { demo with params := { qCap := none, sptCapBits := 11, segCapBits := 11, scaleTable := [], flushThreshold := 1, hostBase := 0 } }
    refusal (exec (.bsCopy (.sb 0) .spt) small) = some .lengthOutsideCapacity ∧
    refusal (exec (.wmMark .cm .spt 9 20) demo) = some .outsideBitset ∧
    refusal (exec (.wmMark .cm .spt 0 20) { demo with cm := { one with j := 12 } }) = some .outsideBitset ∧
    refusal (exec (.orcTest 12) { demo with qtab := 12 }) = some .outsideBitset ∧
    refusal (exec .orcBuild { small with qtab := 10 }) = some .lengthOutsideCapacity ∧
    refusal (exec .tplBuild { small with mtpl := 11 }) = some .lengthOutsideCapacity ∧
    refusal (exec (.segCopy 1) { small with pst := feOf }) = some .lengthOutsideCapacity ∧
    refusal (exec (.segClip 1) { demo fun k => { k with mseg := 11 } with numSegments := 1, mtpl := 12 }) = some .outsideBitset ∧
    refusal (exec (.segSieve 1) { demo fun k => { k with q := 6 } with qtab := 6, spt := { n := 6, mem := [] } }) =
      some .outsideBitset ∧
    refusal (exec (.aggSum 1) (demo fun k => { k with mseg := 12 })) = some .outsideBitset ∧
    refusal (exec (.aggPrint 1) (demo fun k => { k with mseg := 12 })) = some .outsideBitset := by decide +kernel

theorem test_no_such_worker : demo.workers.length ≤ 2 ∧
    (∀ i ∈ workerOperations 2, refusal (exec i demo) = some (.noSuchWorker 2)) ∧
    refusal (exec (.bsCopy (.sb 2) .spt) demo) = some (.noSuchWorker 2) ∧
    refusal (exec (.bsCopy .spt (.sb 2)) demo) = some (.noSuchWorker 2) ∧
    refusal (exec (.wmMark (.m 2) .spt 0 0) demo) = some (.noSuchWorker 2) ∧
    refusal (exec (.wmMark .cm (.sb 2) 0 0) demo) = some (.noSuchWorker 2) ∧
    refusal (exec (.wcDec (.segment 2) 1) demo) = some (.noSuchWorker 2) ∧
    refusal (exec (.fmtDec 2 2) demo) = some (.noSuchWorker 2) := by decide +kernel

theorem test_copy : demo.bitset? .spt = some feOf ∧ (demo.bitset? (.sb 0)).isSome ∧ feOf.n.toNat ≤ demo.capacity (.sb 0) ∧
    got (exec (.bsCopy (.sb 0) .spt) demo) (fun t => (t.workers[0]?).map (·.sb)) = some (some feOf) := by decide

theorem test_putb : (1 : Word).toNat < (feOf.n.toNat + 7) / 8 ∧
    got (exec (.bsPutb .spt 1 0xFF) demo) (·.spt.mem) = some [(0, 0xFE), (1, 0x0F)] ∧
    got (exec (.bsPutb .spt 0 0xC0) demo) (·.spt.mem) = some [(0, 0xC0), (1, 0x0F)] := by decide

theorem test_popcnt : feOf.wf ∧ got (exec (.bsPopcnt .spt) demo) (·.ret) = some [11] ∧
    got (runOps [.bsClr .spt 8, .bsPopcnt .spt] demo) (·.ret) = some [10] := by decide

theorem test_clrr : (11 : Word).toNat < feOf.n.toNat ∧
    got (exec (.bsClrr .spt 9 11) demo) (·.spt.mem) = some [(0, 0xFE), (1, 0x01)] ∧
    got (exec (.bsClrr .spt 5 4) demo) (·.spt.mem) = some [(0, 0xFE), (1, 0x0F)] := by decide

/-! ## The wheel and the recurrence (95_test_vectors.md section 3) -/

theorem test_dec : got (exec (.wcDec .absolute 8) demo) (·.ret) = some [25] ∧
    got (exec (.wcDec (.segment 1) 1) (demo fun k => { k with nOff := 6126090 })) (·.ret) = some [6126095] ∧
    3 * (6148914691236517204 : Word).toNat + 1 + (6148914691236517204 : Word).toNat % 2 < 2 ^ 64 := by decide

theorem test_enc : got (exec (.wcEnc 6126090) demo) (·.ret) = some [2042030] ∧
    got (exec (.wcEnc 997) demo) (·.ret) = some [332] := by decide

theorem test_init_and_load : demo.marker? (.m 1) = some one ∧
    got (exec (.wmInit .cm) demo) (·.cm) = some { one with i := 1, c := 0, k := 1, t := 2 } ∧
    got (exec (.wmLoad 1) demo) (fun t => (t.workers[1]?).map (·.m)) =
      some (some { one with i := 6, c := 96, k := 2, t := 34 }) := by decide

theorem test_next : one.i.toNat + 1 < 2 ^ 32 ∧ one.c.toNat + 4 * (3 - one.k.toNat) * one.i.toNat < 2 ^ 64 ∧
    one.t.toNat + 4 * (3 - one.k.toNat) < 2 ^ 64 ∧
    got (exec (.wmNext .cm) demo) (fun t => (t.cm, t.ret)) =
      some ({ i := 3, c := 16, k := 1, t := 14, j := 16, ij := 9 }, [2, 16, 9]) := by decide

/-- Row 11 of R155. -/
theorem test_next_eleven_times : got (runOps (.wmInit .cm :: List.replicate 11 (.wmNext .cm)) demo) (·.cm) =
    some { i := 12, c := 408, k := 2, t := 70, j := 408, ij := 23 } := by decide

theorem test_stride : one.ij.toNat ≤ one.t.toNat ∧ one.j.toNat + one.t.toNat < 2 ^ 64 ∧
    got (exec (.wmStep .cm) demo) (fun t => (t.cm.j, t.cm.ij)) = some (11, 7) ∧
    got (runOps [.wmStep .cm, .wmStep .cm] demo) (fun t => (t.cm.j, t.cm.ij)) = some (18, 3) := by decide

/-- Each clause at its boundary: `joff = MJ`, `joff = MJ + 1`, `joff` one past the first jump. -/
theorem test_seek : one.walking ∧ (12 : Word).toNat + one.t.toNat < 2 ^ 64 ∧ one.j.toNat + one.t.toNat < 2 ^ 64 ∧
    got (exec (.wmSeek .cm 8) demo) (fun t => (t.cm.j, t.cm.ij)) = some (8, 3) ∧
    got (exec (.wmSeek .cm 9) demo) (fun t => (t.cm.j, t.cm.ij)) = some (11, 7) ∧
    got (exec (.wmSeek .cm 12) demo) (fun t => (t.cm.j, t.cm.ij)) = some (18, 3) := by decide

theorem test_seek_index_nine :
    got (exec (.wmSeek .cm 2042030) (demo id fun s => { s with cm := { one with j := 280, ij := 19, t := 58 } }))
      (fun t => (t.cm.j, t.cm.ij)) = some (2042054, 19) := by decide

theorem test_mark : one.walking ∧ feOf.wf ∧ (0 : Word).toNat ≤ one.j.toNat ∧ (10 : Word).toNat < feOf.n.toNat ∧
    (0 : Word).toNat + (10 : Word).toNat + one.t.toNat < 2 ^ 64 ∧
    got (exec (.wmMark .cm .spt 0 10) demo) (fun t => (t.spt.mem, t.cm.j, t.cm.ij)) = some ([(0, 0xFE), (1, 0x0E)], 11, 7) ∧
    got (exec (.wmMark .cm .spt 0 11) demo) (fun t => (t.spt.mem, t.cm.j, t.cm.ij)) = some ([(0, 0xFE), (1, 0x06)], 18, 3) := by
  decide

/-! ## Tables and segments (95_test_vectors.md section 4) -/

theorem test_oracle : (10 : BitVec 32).toNat ≤ 1431655765 ∧ (10 : BitVec 32).toNat + 2 ≤ demo.params.sptCapBits ∧
    got (exec .orcBuild (demo id fun s => { s with qtab := 10 })) (fun t => (t.spt.n, t.spt.mem)) =
      some (12, [(0, 0xFE), (1, 0x0E)]) ∧
    got (exec .orcBuild (demo id fun s => { s with qtab := 0 })) (fun t => (t.spt.n, t.spt.mem)) =
      some (2, [(0, 0x02)]) := by decide

theorem test_oracle_test :
    let s := demo id fun s => { s with qtab := 7, spt := { feOf with n := 9, mem := [(0, 0xFE)] } }
    got (exec (.orcTest 7) s) (·.ret) = some [1] ∧ got (exec (.orcTest 8) s) (·.ret) = some [0] ∧
    got (exec (.orcTest 9) s) (·.ret) = some [1] ∧ got (exec (.orcTest 16) s) (·.ret) = some [1] ∧
    (7 : Word).toNat ≤ s.qtab.toNat ∧ (7 : Word).toNat < s.spt.n.toNat ∧ s.qtab.toNat < (8 : Word).toNat := by decide

theorem test_nine_stands_for_a_prime : 7 < 9 ∧ 2 ≤ 9 ∧ Nat.Prime (3 * 9 + 1 + 9 % 2) := by norm_num

/-- A job at `TPL.BUILD`, its window cut to 7 positions. -/
def template (nseed : BitVec 3) (sa : Word) : State :=
  demo id fun s => { s with nseed := nseed, startAdj := sa, mtpl := 7 }

/-- The first byte of the rows `START_ADJ` = 1 (both seed counts) and 7. -/
theorem test_template :
    (template 5 7).nseed.toNat = 5 ∧ (template 6 1).nseed.toNat = 6 ∧ (template 5 7).startAdj.toNat % 6 = 1 ∧
    7 ≤ (template 5 7).mtpl.toNat ∧ (template 5 7).mtpl.toNat < 2 ^ 62 ∧
    (template 5 7).mtpl.toNat + 1 ≤ (template 5 7).params.segCapBits ∧
    got (exec .tplBuild (template 5 7)) (·.pst.mem) = some [(0, 0xB0)] ∧
    got (exec .tplBuild (template 5 1)) (·.pst.mem) = some [(0, 0xC0)] ∧
    got (exec .tplBuild (template 6 1)) (·.pst.mem) = some [(0, 0x80)] := by decide +kernel

theorem test_template_resume :
    got (exec .tplBuild (template 5 7)) (fun t => (t.ri, t.rc, t.rk, t.rt)) = some (6, 96, 2, 34) ∧
    got (exec .tplBuild (template 6 1)) (fun t => (t.ri, t.rc, t.rk, t.rt)) = some (7, 120, 1, 38) := by decide +kernel

/-- A job of `num` segments whose worker 0 is at `SEG.SETUP` of segment 0. -/
def setup (num : Word) : State := demo id fun s =>
  { s with startAdj := 6126091, stepSize := 6126120, numSegments := num, mtpl := 2042040, jStop := 6126200 }

/-- The example of R191, as the only segment and as one before the last. -/
theorem test_setup :
    1 ≤ (setup 1).startAdj.toNat + (setup 1).stepSize.toNat * Worker.reset.segN.toNat ∧
    (setup 1).startAdj.toNat + (setup 1).stepSize.toNat * Worker.reset.segN.toNat ≤ (setup 1).jStop.toNat ∧
    Worker.reset.segN.toNat + 1 = (setup 1).numSegments.toNat ∧
    Worker.reset.segN.toNat + 1 < (setup 2).numSegments.toNat ∧
    got (exec (.segSetup 0) (setup 1)) (fun t => (t.workers[0]?).map fun k => (k.low, k.high, k.nOff)) =
      some (some (6126091, 6126200, 6126090)) ∧
    got (exec (.segSetup 0) (setup 1)) (fun t => (t.workers[0]?).map fun k => (k.jOff, k.q, k.mseg)) =
      some (some (2042030, 825, 36)) ∧
    got (exec (.segSetup 0) (setup 2)) (fun t => (t.workers[0]?).map (·.mseg)) = some (some 2042040) := by decide +kernel

theorem test_mseg : mseg 10 = 2 ∧ mseg 1000 = 332 ∧ mseg 110 = 36 ∧ mseg 1 = 0 ∧ mseg 4 = 0 ∧ mseg 5 = 1 ∧ mseg 7 = 2 := by
  decide

/-- The two examples of R194, and a later segment. -/
theorem test_segment_copy :
    let pst (b : Byte) : Bitset := { n := 9, mem := [(0, b)] }
    let s (b : Byte) (n low jo : Word) := demo (fun k => { k with segN := n, low := low, jOff := jo })
      fun s => { s with pst := pst b, nseed := 5 }
    (s 0xC0 0 1 0).pst.wf ∧ 8 ≤ (s 0xC0 0 1 0).pst.n.toNat ∧
    (s 0xC0 0 1 0).pst.n.toNat ≤ (s 0xC0 0 1 0).params.segCapBits ∧
    got (exec (.segCopy 1) (s 0xC0 0 1 0)) (fun t => (bytes t).1) = some [(0, 0xFE)] ∧
    got (exec (.segCopy 1) (s 0xB0 0 7 2)) (fun t => (bytes t).1) = some [(0, 0xBE)] ∧
    got (exec (.segCopy 1) (s 0xB0 1 7 2)) (fun t => (bytes t).1) = some [(0, 0xB0)] := by decide

/-- The example of R195, on a window of 41 positions. -/
theorem test_clip :
    let s := demo (fun k => { k with nOff := 6126090, mseg := 36, sb := Bitset.filled 41 })
      fun s => { s with jStart := 6126100, mtpl := 40, numSegments := 1 }
    (Bitset.filled 41).wf ∧ 3 ≤ (Bitset.filled 41).n.toNat ∧ s.mtpl.toNat < (Bitset.filled 41).n.toNat ∧
    got (exec (.segClip 1) s) (fun t => (bytes t).1) = some [(0, 0xF8), (1, 0xFF), (2, 0xFF), (3, 0xFF), (4, 0x1F)] := by decide

/-- Index 6 of R199: 361, 437 are cleared (positions 120, 145 of 151). -/
theorem test_sieve :
    let s := demo (fun k => { k with q := 6, mseg := 150, sb := Bitset.filled 151 })
      fun s => { s with qtab := 6, spt := { n := 8, mem := [(0, 0xFE)] }, nseed := 5 }
    s.resumeOk ∧ s.qtab.toNat < s.spt.n.toNat ∧ (Bitset.filled 151).wf ∧ 150 < (Bitset.filled 151).n.toNat ∧
    (6 : BitVec 32).toNat ≤ 1431655765 ∧ 0 + 150 + 2 ^ 34 < 2 ^ 64 ∧
    got (exec (.segSieve 1) s) (fun t => (t.workers[1]?).map fun k =>
      ((List.range 151).filter (fun p => !k.sb.bit p), k.m.i)) = some (some ([0, 120, 145], 7)) := by decide

/-! ## The aggregator (95_test_vectors.md section 5) -/

/-- V1: bytes `06`, positions 1 and 2 set, 2 and 3 in range. -/
def v1 : State := demo (fun k => { k with low := 1, mseg := 2, sb := { n := 9, mem := [(0, 0x06)] } })
  fun s => { s with jStart := 1, jStop := 10 }

theorem test_count_and_sum : ({ n := 9, mem := [(0, 0x06)] } : Bitset).wf ∧
    ({ n := 9, mem := [(0, 0x06)] } : Bitset).ones + 1 + 1 < 2 ^ 64 ∧
    got (exec (.aggCount 1) v1) (fun t => (t.workers[1]?).map (·.lacc)) = some (some 4) ∧
    got (exec (.aggSum 1) v1) (fun t => (t.workers[1]?).map (·.lacc)) = some (some 17) := by decide

theorem test_print : (2 : Word).toNat < ({ n := 9, mem := [(0, 0x06)] } : Bitset).n.toNat ∧
    (∀ L < 3, (Worker.reset.nOff).toNat + 3 * L + 1 + L % 2 < 2 ^ 64) ∧
    got (exec (.aggPrint 1) v1) (fun t => (t.workers[1]?).map (·.obuf)) =
      some (some [0x32, 0x0A, 0x33, 0x0A, 0x35, 0x0A, 0x37, 0x0A]) := by decide

theorem test_decimal : 1 ≤ (2 : Word).toNat ∧ decimalLine 2 = [0x32, 0x0A] ∧
    got (exec (.fmtDec 1 6126139) demo) (fun t => (t.workers[1]?).map (·.obuf)) =
      some (some [0x36, 0x31, 0x32, 0x36, 0x31, 0x33, 0x39, 0x0A]) ∧
    decimalLine 18446744073709551557 = [0x31, 0x38, 0x34, 0x34, 0x36, 0x37, 0x34, 0x34, 0x30, 0x37, 0x33, 0x37, 0x30,
      0x39, 0x35, 0x35, 0x31, 0x35, 0x35, 0x37, 0x0A] := by decide

/-! ## The scheduler and the gate (95_test_vectors.md section 6) -/

/-- The outcomes of the input checks of section 7: the status word after `SCH.CHECK`. -/
theorem test_check :
    let s (start stop : Word) (mode : BitVec 2) := demo id fun s =>
      { s with start := start, stop := stop, mode := mode, busy := true, phase := .check }
    got (exec .schCheck (s 0 10 0)) (·.statusWord) = some 0x80C ∧
    got (exec .schCheck (s 11 10 0)) (·.statusWord) = some 0x80C ∧
    got (exec .schCheck (s 1 18446744073709551609 0)) (·.statusWord) = some 0x201 ∧
    got (exec .schCheck (s 1 18446744073709551610 0)) (·.statusWord) = some 0x80C ∧
    got (exec .schCheck (s 1 10 3)) (·.statusWord) = some 0x80C := by decide

/-- A job at `SCH.CONFIG`. -/
def config (start stop cfg : Word) (cap : Nat) : State := demo id fun s =>
  { s with jStart := start, jStop := stop, stepCfg := cfg, busy := true, phase := .config,
           params := { s.params with segCapBits := cap } }

theorem test_config : 1 ≤ (config 6126100 6126200 0 2042041).jStart.toNat ∧
    (config 6126100 6126200 0 2042041).jStart.toNat ≤ (config 6126100 6126200 0 2042041).jStop.toNat ∧
    (config 6126100 6126200 0 2042041).jStop.toNat < 10 ^ 12 ∧
    (if (config 1 10000000000000 0 6466461).jStop.toNat < 10 ^ 12 then 6126120
      else 9699690 * 2 ^ scaleExp (config 1 10000000000000 0 6466461).params.scaleTable 10000000000000) < 2 ^ 62 ∧
    got (exec .schConfig (config 6126100 6126200 0 2042041)) (fun t => (t.startAdj, t.nseed, t.stepSize)) =
      some (6126091, 5, 6126120) ∧
    got (exec .schConfig (config 6126100 6126200 0 2042041)) (fun t => (t.mtpl, t.numSegments, t.qtab)) =
      some (2042040, 1, 825) ∧
    got (exec .schConfig (config 1 10000000000000 0 6466461)) (fun t => (t.startAdj, t.nseed, t.stepSize)) =
      some (1, 6, 19399380) ∧
    got (exec .schConfig (config 1 10000000000000 0 6466461)) (fun t => (t.mtpl, t.numSegments, t.qtab)) =
      some (6466460, 515481, 1054092) ∧
    got (exec .schConfig (config 12 6200000 0 2042041)) (fun t => (t.startAdj, t.numSegments)) = some (7, 2) := by
  decide +kernel

theorem test_config_errors : (7 : Word).toNat % 510510 ≠ 0 ∧
    got (exec .schConfig (config 1 1000 7 2042041)) (fun t => (t.statusWord, t.startAdj, t.stepSize)) =
      some (0x814, 1, 0) ∧
    got (exec .schConfig (config 1 10 0 2042040)) (fun t => (t.statusWord, t.stepSize)) = some (0x81C, 6126120) ∧
    got (exec .schConfig (config 1 10 510510 2042040)) (·.statusWord) = some 0x301 ∧
    got (exec .schConfig (config 1 1000000000000 6126120 9999999)) (·.statusWord) = some 0x814 := by decide +kernel

theorem test_partition : startAdjOf 12 = 7 ∧ (segmentsOf 6200000 7 6126120).toNat = 2 ∧ 6 ∣ 6126120 ∧
    (segmentsOf 6126121 1 6126120).toNat = 2 ∧ (segmentsOf 6126120 1 6126120).toNat = 1 := by decide

/-- The parallel region of V12: worker 1 holds segment 0 in phase `p`, worker 0 holds segment 1 at the gate. -/
def region (p : WPhase) (obuf : List Byte) (answers : List SinkAnswer) : State :=
  { State.reset with
      phase := .parallel, busy := true, jMode := 2, numSegments := 2, nextDispatch := 2, sinkAnswers := answers,
      workers := [{ Worker.reset with wphase := .gate, segN := 1 }, { Worker.reset with wphase := p, obuf := obuf }] }

theorem test_dispatch :
    let s := { region .idle [] [] with nextDispatch := 1 }
    (s.workers[1]?).map (·.wphase) = some .idle ∧ s.nextDispatch.toNat < s.numSegments.toNat ∧ s.failFlag = false ∧
    got (exec (.schDispatch 1) s) (fun t => ((t.workers[1]?).map fun k => (k.segN, k.wphase), t.nextDispatch)) =
      some (some (1, .setup), 2) := by decide

theorem test_reduce :
    let s := { demo fun k => { k with lacc := 0, wphase := .reduce } with acc := 420923 }
    s.retired.toNat + 1 < 2 ^ 64 ∧ 0 < s.workers.length ∧ 1 < s.workers.length ∧
    got (exec (.schReduce 1) s) (fun t => (t.acc, t.retired, (t.workers[1]?).map (·.wphase))) =
      some (420923, 1, some .idle) := by decide

theorem test_gate_wait :
    got (exec (.gateWait 1) (region .gate [] [])) (fun t => (t.workers[1]?).map (·.wphase)) = some (some .emit) ∧
    got (exec (.gateWait 0) { region .emit [] [] with failFlag := true }) (fun t => (t.workers[0]?).map (·.wphase)) =
      some (some .retire) := by decide

/-- The waits: the turn of segment 1 has not come, the sink has not answered, no segment is left to hand out, nothing
runs after reset. -/
theorem test_waiting :
    let s := region .emit [0x32] []
    (s.workers[0]?).map (·.segN) ≠ some s.nextTicket ∧ s.failFlag = false ∧ s.sinkAnswers = [] ∧
    s.numSegments.toNat ≤ s.nextDispatch.toNat ∧ State.reset.phase = .idle ∧ State.reset.events = [] ∧
    got (exec (.gateWait 0) s) id = some s ∧ got (exec (.gateEmit 1) s) id = some s ∧
    got (exec (.schDispatch 0) s) id = some s ∧ got (step State.reset) id = some State.reset := by decide

theorem test_emit :
    got (exec (.gateEmit 1) (region .emit [0x32, 0x0A] [.ok])) (fun t => (t.sink, (t.workers[1]?).map (·.obuf))) =
      some ([0x32], some [0x0A]) ∧
    got (exec (.gateEmit 1) (region .emit [0x33] [.fail]))
      (fun t => (t.sink, t.failFlag, (t.workers[1]?).map (·.wphase))) = some ([], true, some .retire) ∧
    got (exec (.gateEmit 1) (region .emit [] [])) (fun t => (t.workers[1]?).map (·.wphase)) = some (some .pass) := by
  decide

theorem test_pass_and_fail : (region .pass [] []).retired.toNat + 1 < 2 ^ 64 ∧
    (region .pass [] []).nextTicket.toNat + 1 < 2 ^ 64 ∧
    got (exec (.gatePass 1) (region .pass [] [])) (fun t => (t.nextTicket, t.retired, (t.workers[1]?).map (·.wphase))) =
      some (1, 1, some .idle) ∧
    got (exec (.schFail 1) (region .retire [0x32] []))
      (fun t => (t.nextTicket, t.retired, (t.workers[1]?).map fun k => (k.wphase, k.obuf))) =
      some (0, 1, some (.idle, [])) := by decide

theorem test_join :
    let s (m : BitVec 2) (f : Bool) := { demo with phase := .join, busy := true, jMode := m, acc := 4, failFlag := f }
    got (exec .schJoin (s 0 false)) (fun t => (t.statusWord, t.result)) = some (0x702, 4) ∧
    got (exec .schJoin (s 1 false)) (fun t => (t.statusWord, t.result)) = some (0x702, 4) ∧
    got (exec .schJoin (s 2 false)) (fun t => (t.statusWord, t.result)) = some (0x702, 0) ∧
    got (exec .schJoin (s 2 true)) (fun t => (t.statusWord, t.result)) = some (0x824, 0) := by decide

/-! ## The sequencers -/

/-- The controller's turn in every phase it has an operation in, and the worker's. -/
theorem test_sequencers : demo.hardwired ∧ demo.flagsAgree ∧
    got (step (demo id fun s => { s with events := [.command (.ctrl 1)] })) (·.phase) = some .check ∧
    got (takeTurn .controller { demo with phase := .check, start := 1, stop := 10 }) (·.phase) = some .config ∧
    got (takeTurn .controller { demo with phase := .oracle, qtab := 1 }) (·.phase) = some .template ∧
    got (takeTurn .controller { demo with phase := .parallel }) (·.phase) = some .join ∧
    got (takeTurn .controller (region .pass [] [])) (·.phase) = some .parallel ∧
    got (takeTurn (.worker 1) { v1 with phase := .parallel, workers := v1.workers.modify 1 fun k => { k with wphase := .agg } })
      (fun t => (t.workers[1]?).map fun k => (k.wphase, k.lacc)) = some (some (.reduce, 4)) := by decide

/-- The turn of a worker of a print job in every phase of the table, and outside phase `PARALLEL`. -/
theorem test_worker_turns :
    let turn (p : WPhase) := got (takeTurn (.worker 1) (region p [] [])) fun t => (t.workers[1]?).map (·.wphase)
    [WPhase.setup, .copy, .clip, .sieve, .agg, .reduce, .gate, .emit, .pass, .retire, .idle].map turn =
      [.copy, .clip, .sieve, .agg, .gate, .idle, .emit, .pass, .idle, .idle, .idle].map fun p => some (some p) := by
  decide +kernel

theorem test_worker_waits_outside_parallel :
    let s := { region .setup [] [] with phase := .join }
    s.phase ≠ .parallel ∧ got (takeTurn (.worker 1) s) id = some s ∧ got (takeTurn (.dispatch 0) s) id = some s := by
  decide

theorem test_worker_phase_codes : (WPhase.idle.code, WPhase.setup.code, WPhase.copy.code, WPhase.clip.code) = (0, 1, 2, 3) ∧
    (WPhase.sieve.code, WPhase.agg.code, WPhase.reduce.code, WPhase.gate.code) = (4, 5, 6, 7) ∧
    (WPhase.emit.code, WPhase.pass.code, WPhase.retire.code) = (8, 9, 10) := by decide

/-! ## The host (95_test_vectors.md section 7) and reset -/

theorem test_read : demo.busy = false ∧ got (exec (.hostRd 0x20) State.reset) (·.hostData) = some 0 ∧
    got (exec (.hostRd 0x48) { demo with nextTicket := 5 }) (fun t => (t.hostData, t.reads)) = some (5, 1) ∧
    got (runOps [.hostWr 0x10 4, .hostRd 0x10] demo) (·.hostData) = some 4 := by decide

/-- While `BUSY`: a counter before `SCH.CONFIG` still holds what `GO` found; one that was never but 0 reads 0; what is no
progress register is exact. -/
theorem test_read_busy :
    got (exec (.hostRd 0x50) { region .emit [] [] with phase := .check, goDispatch := 7, nextDispatch := 7 }) (·.hostData) =
      some 7 ∧
    got (exec (.hostRd 0x48) (region .emit [] [])) (·.hostData) = some 0 ∧
    got (exec (.hostRd 0x40) (region .emit [] [])) (·.hostData) = some 2 := by
  refine ⟨by decide, ?_, by decide⟩
  have h := (Laws.counterShown_spec (region .emit [] []) 0 0 (Config.stale 0)).2.2 rfl
  have hz : (region .emit [] []).counterShown 0 0 (Config.stale 0) = 0 := by
    rcases h with h | h
    · exact h
    · exact BitVec.eq_of_toNat_eq (Nat.le_zero.mp h)
  exact congrArg some hz

theorem test_write : got (exec (.hostWr 0x08 1000) demo) (·.stop) = some 1000 ∧
    got (exec (.hostWr 0x00 5) (region .emit [] [])) (·.start) = some 0 ∧
    got (exec (.hostWr 0x28 5) demo) (·.result) = some 0 ∧
    got (exec (.hostWr 0x10 0xFFFFFFFFFFFFFFF9) demo) (fun t => (t.phase, t.mode)) = some (.check, 0) := by decide

/-- A `GO` notes what the job finds in the counters, and a step of the job keeps it. -/
theorem test_go_notes_the_counters : demo.busy = false ∧
    got (runOps [.sievePrint, .schCheck] { demo with nextTicket := 3, nextDispatch := 4 })
      (fun t => (t.goTicket, t.goDispatch, t.busy)) = some (3, 4, false) ∧
    got (exec .sievePrint { demo with nextTicket := 3, nextDispatch := 4 }) (fun t => (t.goTicket, t.goDispatch, t.busy)) =
      some (3, 4, true) ∧
    got (step { region .emit [0x32] [.ok] with goTicket := 3, events := [.turn (.worker 1)] }) (·.goTicket) = some 3 := by
  decide

theorem test_go : got (exec .sieveCount demo) (·.statusWord) = some 0x101 ∧
    got (exec .sieveSum demo) (fun t => (t.statusWord, t.mode)) = some (0x101, 1) ∧
    got (exec .sievePrint (region .emit [] [])) (fun t => (t.phase, t.mode)) = some (.parallel, 0) ∧
    got (runOps [.sieveRsvd, .schCheck] demo) (·.statusWord) = some 0x80C ∧
    got (exec (.ctrlMode 2) demo) (fun t => (t.statusWord, t.mode)) = some (0, 2) := by decide

theorem test_job : got (runCommands (jobCommands 2 1 510540 510510) demo)
    (fun t => (t.start, t.stop, t.stepCfg, t.mode, t.statusWord)) = some (1, 510540, 510510, 2, 0x101) := by decide

theorem test_presented_command :
    (demo id fun s => { s with events := [.command (.unit 0x12 { x := .spt, p := 0 }), .reset] }).events.length = 2 ∧
    got (step (demo id fun s => { s with events := [.command (.unit 0x12 { x := .spt, p := 0 }), .reset] }))
      (fun t => (t.spt.mem, t.events.length)) = some ([(0, 0xFF), (1, 0x0F)], 1) ∧
    decodeTableWord 8 0x14 = some (.bsPopcnt .spt) ∧
    got (step (demo.withFetchWord 8 0x14)) (fun t => (t.ret, t.events.length)) = some ([11], 0) := by decide

theorem test_external_reset :
    got (step { region .emit [0x33] [.ok] with sink := [0x32], events := [.reset] })
      (fun t => (t.phase, t.sink, t.workers.length, t.workers.all fun k => k.obuf.isEmpty)) =
      some (.idle, [0x32], 2, true) := by decide

/-! ## States that meet the invariants -/

theorem test_invariants_hold_in_demo : demo.memWf ∧ demo.zeroClear ∧ demo.hardwired ∧
    got (step (demo id fun s => { s with events := [.command (.reg (regAccess true 0 7))] })) (·.start) = some 7 := by
  decide

/-- A worker emits segment 0 while another waits with segment 1. -/
theorem test_region_gate_safe : (region .emit [0x32] [.ok]).hardwired ∧ (region .emit [0x32] [.ok]).flagsAgree ∧
    (region .emit [0x32] [.ok]).gateSafe := by
  refine ⟨by decide, by decide, ?_⟩
  constructor
  case distinct =>
    intro v w k l hv hw _ _ h
    rcases v with _ | _ | v <;> rcases w with _ | _ | w <;> simp [region] at hv hw ⊢ <;> subst hv hw <;>
      simp [Worker.reset] at h
  all_goals decide

/-- The bytes of its two segments are `32` and none; the sink is empty so far. -/
theorem test_region_streamed : (region .emit [0x32] [.ok]).streamed [] fun n => if n = 0 then [0x32] else [] := by
  constructor
  case emitting =>
    intro k hk h
    simp only [region, List.mem_cons, List.not_mem_nil, or_false] at hk
    rcases hk with rfl | rfl
    · exact absurd h (by decide)
    · exact ⟨[], rfl, rfl⟩
  case failed => intro _ h; exact absurd h (by decide)
  all_goals decide

/-- The same job with both segments passed, ready to join. -/
def passed : State :=
  { State.reset with
      phase := .parallel, busy := true, jMode := 2, numSegments := 2, nextDispatch := 2, retired := 2, nextTicket := 2,
      sink := [0x32] }

theorem test_passed_streamed : passed.gateSafe ∧ passed.streamed [] (fun n => if n = 0 then [0x32] else []) ∧
    passed.joinReady = true ∧ passed.failFlag = false := by
  refine ⟨?_, ?_, by decide, by decide⟩
  · constructor
    case distinct =>
      intro v w k l hv _ hk
      have := List.mem_of_getElem? hv
      simp [passed, State.reset, State.resetOf] at this
      simp [this, Worker.reset] at hk
    all_goals decide
  · constructor
    case emitting =>
      intro k hk h
      simp [passed, State.reset, State.resetOf] at hk
      exact absurd (hk.2 ▸ h) (by decide)
    case failed => intro _ h; exact absurd h (by decide)
    all_goals decide

theorem test_region_steps : got (step { region .emit [0x32] [.ok] with events := [.turn (.worker 1)] }) (·.sink) =
    some [0x32] := by decide

/-! ### A job whose tables are built -/

/-- The byte of the positions `8b ... 8b + 7` where `f` holds. -/
def byteOf (f : Nat → Bool) (b : Nat) : Byte :=
  BitVec.ofFnLE fun r : Fin 8 => f (8 * b + r)

/-- The bytes `0 ... k-1` of the set positions of `f`, in front of `m`. -/
def bytesWhere (f : Nat → Bool) : Nat → Memory → Memory
  | 0,     m => m
  | k + 1, m => bytesWhere f k (Memory.cons k (byteOf f k) m)

/-- The bitset of `n` positions that holds 1 where `f` does. -/
def bitsetWhere (n : Nat) (f : Nat → Bool) : Bitset :=
  { n := BitVec.ofNat 64 n, mem := bytesWhere (fun p => decide (p < n) && f p) (bytesFor n) [] }

theorem byteOf_getLsbD (f : Nat → Bool) (b r : Nat) (hr : r < 8) : (byteOf f b).getLsbD r = f (8 * b + r) := by
  simp [byteOf, hr]

theorem bytesWhere_spec (f : Nat → Bool) (k : Nat) (m : Memory) (hm : Memory.wf m) (ha : ∀ c ∈ m, k ≤ c.1) :
    Memory.wf (bytesWhere f k m) ∧
    (∀ b, Memory.read (bytesWhere f k m) b = if b < k then byteOf f b else Memory.read m b) ∧
    (∀ c ∈ bytesWhere f k m, c ∈ m ∨ (c.1 < k ∧ c.2 = byteOf f c.1)) := by
  induction k generalizing m with
  | zero => exact ⟨hm, fun b => by simp [bytesWhere], fun c hc => .inl hc⟩
  | succ k ih =>
    have hk : Laws.Above k m := fun c hc => by have := ha c hc; omega
    obtain ⟨h1, h2, h3⟩ := ih _ (Laws.wf_memCons (v := byteOf f k) hm hk) fun c hc => by
      rcases Laws.mem_cons_sub hc with rfl | hc
      · exact Nat.le_refl _
      · have := ha c hc; omega
    refine ⟨h1, fun b => ?_, fun c hc => ?_⟩
    · rw [bytesWhere, h2, Laws.read_memCons hk]
      split_ifs <;> first | rfl | omega | (subst_vars; rfl)
    · rcases h3 c hc with hc | ⟨hc, he⟩
      · rcases Laws.mem_cons_sub hc with rfl | hc
        · exact .inr ⟨by simp, rfl⟩
        · exact .inl hc
      · exact .inr ⟨by omega, he⟩

theorem bitsetWhere_bit (n : Nat) (f : Nat → Bool) (hn : n < 2 ^ 64) (p : Nat) :
    (bitsetWhere n f).bit p = (decide (p < n) && f p) := by
  obtain ⟨-, h2, -⟩ := bytesWhere_spec (fun p => decide (p < n) && f p) (bytesFor n) [] Laws.wf_nil (by simp)
  simp only [Bitset.bit, bitsetWhere, h2, BitVec.toNat_ofNat, Nat.mod_eq_of_lt hn]
  by_cases hp : p < n
  · rw [if_pos (by simp only [bytesFor]; omega), byteOf_getLsbD _ _ _ (Nat.mod_lt _ (by omega)), Nat.div_add_mod]
    simp [hp]
  · simp [hp]

theorem bitsetWhere_wf (n : Nat) (f : Nat → Bool) (hn : n < 2 ^ 64) : (bitsetWhere n f).wf := by
  obtain ⟨h1, -, h3⟩ := bytesWhere_spec (fun p => decide (p < n) && f p) (bytesFor n) [] Laws.wf_nil (by simp)
  refine ⟨h1, fun c hc => ?_⟩
  simp only [bitsetWhere, BitVec.toNat_ofNat, Nat.mod_eq_of_lt hn] at hc ⊢
  obtain ⟨hc, he⟩ := (h3 c hc).resolve_left (by simp)
  refine ⟨hc, BitVec.eq_of_getLsbD_eq fun i hi => ?_⟩
  rw [he, BitVec.getLsbD_and, Laws.cellMask_getLsbD, byteOf_getLsbD _ _ _ hi]
  by_cases h : 8 * c.1 + i < n <;> simp [h, hi]

/-- Job V12 with its tables: `START = 1`, `STOP = 510540`, `STEP_CFG = 510510`, two segments, worker 1 holding the last
one; the small-primes table capped at `QTAB = 1`. -/
def ready : State :=
  { demo (fun k => { k with segN := 1 }) with
      jStart := 1, jStop := 510540, startAdj := 1, nseed := 5, stepSize := 510510, mtpl := 170170, numSegments := 2,
      qtab := 1, spt := { n := 3, mem := [(0, 0x06)] },
      pst := bitsetWhere 170171 fun L => L != 0 && [5, 7, 11, 13, 17].all fun p => wheelVal L % p != 0 }

theorem test_ready : ready.tablesReady ∧ (ready.workers[1]?).map (·.segN.toNat) = some 1 ∧ 1 < ready.numSegments.toNat := by
  refine ⟨?_, by decide, by decide⟩
  constructor
  case pstWf => exact bitsetWhere_wf _ _ (by decide)
  case pstZero => exact (bitsetWhere_bit _ _ (by decide) 0).trans (by decide)
  case pstContent =>
    intro L h1 h2
    rw [show ready.mtpl.toNat = 170170 from rfl] at h2
    rw [show ready.pst.bit L = _ from bitsetWhere_bit _ _ (by decide) L]
    have e : (ready.startAdj.toNat - 1) / 3 + L = L := by
      rw [show (ready.startAdj.toNat - 1) / 3 = 0 from rfl, Nat.zero_add]
    rw [e, show seedPrimes ready.nseed.toNat = [5, 7, 11, 13, 17] from rfl]
    have h3 : L < 170171 := by omega
    have h4 : L ≠ 0 := by omega
    simp [h3, h4, Nat.dvd_iff_mod_eq_zero]
  case sptContent =>
    intro i h1 h2
    rw [show ready.qtab.toNat = 1 from rfl] at h2
    obtain rfl : i = 1 := by omega
    have hb : ready.spt.bit 1 = true := by decide
    rw [hb, show wheelVal 1 = 5 from rfl]
    exact ⟨fun _ => ⟨by omega, fun d hd => (Nat.dvd_prime Nat.prime_five).mp hd⟩, fun _ => rfl⟩
  all_goals decide +kernel

end Sys2Proof.Tests
end

section
/-! What an agent's turn can do (R30, R31): each turn as the operation its phase issues, and for a worker the list of
everything its turn or a hand-out can leave. -/

namespace Sys2Proof.Proofs

open Sys2Proof.Machine Sys2Proof.Laws

@[simp] theorem bind_next_self {α : Type} (x : Res α) : (x.bind fun a => .next a) = x := by
  cases x <;> rfl

/-! ## The controller's turn -/

theorem controllerTurn_of_code {s : State} {p : Phase} {c : Nat} (hp : s.phase = p) (hc : controllerCode p = some c) :
    controllerTurn s = (runCommand (unitCommand c {}) s).bind fun t => .next (controllerNext p t) := by
  simp [controllerTurn, hp, hc]

theorem controllerTurn_check {s : State} (hp : s.phase = .check) : controllerTurn s = execSchCheck s :=
  (controllerTurn_of_code hp rfl).trans (bind_next_self _)

theorem controllerTurn_config {s : State} (hp : s.phase = .config) : controllerTurn s = execSchConfig s :=
  (controllerTurn_of_code hp rfl).trans (bind_next_self _)

theorem controllerTurn_oracle {s : State} (hp : s.phase = .oracle) :
    controllerTurn s = (execOrcBuild s).bind fun t => .next { t with phase := .template } :=
  controllerTurn_of_code hp rfl

theorem controllerTurn_template {s : State} (hp : s.phase = .template) :
    controllerTurn s = (execTplBuild s).bind fun t => .next { t with phase := .parallel } :=
  controllerTurn_of_code hp rfl

theorem controllerTurn_join {s : State} (hp : s.phase = .join) : controllerTurn s = execSchJoin s :=
  (controllerTurn_of_code hp rfl).trans (bind_next_self _)

theorem controllerTurn_parallel {s : State} (hp : s.phase = .parallel) :
    controllerTurn s = .next (if s.joinReady then { s with phase := .join } else s) := by
  simp [controllerTurn, hp, controllerCode]

theorem controllerTurn_quiescent {s : State} (hp : s.phase.quiescent = true) : controllerTurn s = .next s := by
  cases h : s.phase <;> simp [h, Phase.quiescent, controllerTurn, controllerCode] at hp ⊢

/-- `ORC.BUILD` writes `CM` and `SPT` only. -/
theorem execOrcBuild_frame {s t : State} (h : execOrcBuild s = .next t) :
    ∃ m X, t = { s with cm := m, spt := X } := by
  simp only [execOrcBuild, bind_eq_next] at h
  obtain ⟨X, -, r, -, h⟩ := h
  cases h
  exact ⟨_, _, rfl⟩

/-- `TPL.BUILD` writes `CM`, `PST` and the resume registers only. -/
theorem execTplBuild_frame {s t : State} (h : execTplBuild s = .next t) :
    ∃ m X i c k r, t = { s with cm := m, pst := X, ri := i, rc := c, rk := k, rt := r } := by
  simp only [execTplBuild, bind_eq_next] at h
  obtain ⟨X, -, r, -, X', -, h⟩ := h
  cases h
  exact ⟨_, _, _, _, _, _, rfl⟩

/-! ## A worker's turn -/

theorem workerTurn_of_code {s : State} {w c : Nat} {k : Worker} {p : WPhase} (hk : s.workers[w]? = some k)
    (hp : s.phase = .parallel) (hw : k.wphase = p) (hc : workerCode p s.jMode = some c) :
    workerTurn w s = (runCommand (unitCommand c { w := w }) s).bind fun t => .next (workerAdvance w p t) := by
  simp [workerTurn, hk, hp, hw, hc]

theorem workerTurn_of_no_code {s : State} {w : Nat} {k : Worker} {p : WPhase} (hk : s.workers[w]? = some k)
    (hw : k.wphase = p) (hc : workerCode p s.jMode = none) : workerTurn w s = .next s := by
  simp [workerTurn, hk, hw, hc]

/-- Replacing a worker and then moving it on is replacing it once. -/
theorem workerAdvance_setWorker {s : State} {w : Nat} {l : Worker} {p p' : WPhase}
    (hn : workerNext p s.jMode = some p') :
    workerAdvance w p (s.setWorker w l) = s.setWorker w { l with wphase := p' } := by
  have hset : (s.workers.set w l).modify w (fun k => { k with wphase := p' }) =
      s.workers.set w { l with wphase := p' } := by
    apply List.ext_getElem?
    intro v
    rw [modify_worker, List.getElem?_set, List.getElem?_set]
    split <;> cases s.workers[v]? <;> simp_all
  simp [workerAdvance, hn, State.setWorker, hset]

/-- `t` is `s` with worker `w` replaced by one that holds the same segment and the same buffer. -/
def ComputesOn (s : State) (w : Nat) (k : Worker) (t : State) : Prop :=
  ∃ l : Worker, t = s.setWorker w l ∧ l.segN = k.segN ∧ l.obuf = k.obuf

section
variable {s t : State} {w : Nat} {k : Worker} (hk : s.workers[w]? = some k)
include hk

theorem execSegSetup_computes (h : execSegSetup w s = .next t) : ComputesOn s w k t := by
  simp only [execSegSetup, withWorker_of_some hk] at h
  cases h
  exact ⟨_, rfl, rfl, rfl⟩

theorem execSegCopy_computes (h : execSegCopy w s = .next t) : ComputesOn s w k t := by
  simp only [execSegCopy, withWorker_of_some hk, bind_eq_next] at h
  obtain ⟨X, -, X', -, h⟩ := h
  cases h
  exact ⟨_, rfl, rfl, rfl⟩

theorem execSegClip_computes (h : execSegClip w s = .next t) : ComputesOn s w k t := by
  simp only [execSegClip, withWorker_of_some hk, bind_eq_next] at h
  obtain ⟨X, -, X', -, h⟩ := h
  cases h
  exact ⟨_, rfl, rfl, rfl⟩

theorem execSegSieve_computes (h : execSegSieve w s = .next t) : ComputesOn s w k t := by
  simp only [execSegSieve, withWorker_of_some hk, bind_eq_next] at h
  obtain ⟨r, -, h⟩ := h
  cases h
  exact ⟨_, rfl, rfl, rfl⟩

theorem execAggCount_computes (h : execAggCount w s = .next t) : ComputesOn s w k t := by
  simp only [execAggCount, withWorker_of_some hk] at h
  cases h
  exact ⟨_, rfl, rfl, rfl⟩

theorem execAggSum_computes (h : execAggSum w s = .next t) : ComputesOn s w k t := by
  simp only [execAggSum, withWorker_of_some hk, bind_eq_next] at h
  obtain ⟨n, -, h⟩ := h
  cases h
  exact ⟨_, rfl, rfl, rfl⟩

/-- `AGG.PRINT` writes the buffer only. -/
theorem execAggPrint_frame (h : execAggPrint w s = .next t) : ∃ text, t = s.setWorker w { k with obuf := text } := by
  simp only [execAggPrint, withWorker_of_some hk, bind_eq_next] at h
  obtain ⟨text, -, h⟩ := h
  cases h
  exact ⟨_, rfl⟩

end

/-- Everything that a turn of worker `w`, which is `k`, or a hand-out to it can leave, where it is not a wait. -/
inductive WorkerMove (s : State) (w : Nat) (k : Worker) : State → Prop
  /-- `SCH.DISPATCH` hands it the next segment (R250) -/
  | dispatch (hidle : k.wphase = .idle) (hnext : s.nextDispatch.toNat < s.numSegments.toNat)
      (hfail : s.failFlag = false) :
      WorkerMove s w k { s.setWorker w { k with segN := s.nextDispatch, wphase := .setup } with
        nextDispatch := narrow 64 (s.nextDispatch.toNat + 1) }
  /-- an operation on its own segment, but for `AGG.PRINT` -/
  | compute (l : Worker) (hnext : workerNext k.wphase s.jMode = some l.wphase) (hgate : l.wphase ≠ .gate)
      (hseg : l.segN = k.segN) (hbuf : l.obuf = k.obuf) : WorkerMove s w k (s.setWorker w l)
  /-- `AGG.PRINT` leaves the segment's text in the buffer (R225) -/
  | print (text : List Byte) (hphase : k.wphase = .agg) (hmode : s.jMode = 2) :
      WorkerMove s w k (s.setWorker w { k with obuf := text, wphase := .gate })
  /-- `SCH.REDUCE` (R252) -/
  | reduce (hphase : k.wphase = .reduce) :
      WorkerMove s w k { s.setWorker w { k with wphase := .idle } with
        acc := s.acc + k.lacc, retired := narrow 64 (s.retired.toNat + 1) }
  /-- `GATE.WAIT` gives it the turn (R261) -/
  | takeGate (hphase : k.wphase = .gate) (hfail : s.failFlag = false) (hturn : k.segN = s.nextTicket) :
      WorkerMove s w k (s.setWorker w { k with wphase := .emit })
  /-- `GATE.WAIT` after a failed write (R261) -/
  | giveUp (hphase : k.wphase = .gate) (hfail : s.failFlag = true) :
      WorkerMove s w k (s.setWorker w { k with wphase := .retire })
  /-- `GATE.EMIT` with an empty buffer (R262) -/
  | drained (hphase : k.wphase = .emit) (hbuf : k.obuf = []) :
      WorkerMove s w k (s.setWorker w { k with wphase := .pass })
  /-- `GATE.EMIT`: the sink takes the byte (R262) -/
  | accepted (b : Byte) (rest : List Byte) (more : List SinkAnswer) (hphase : k.wphase = .emit)
      (hbuf : k.obuf = b :: rest) :
      WorkerMove s w k { s.setWorker w { k with obuf := rest } with sink := s.sink ++ [b], sinkAnswers := more }
  /-- `GATE.EMIT`: the write fails (R262) -/
  | failed (more : List SinkAnswer) (hphase : k.wphase = .emit) (hbuf : k.obuf ≠ []) :
      WorkerMove s w k { s.setWorker w { k with wphase := .retire } with failFlag := true, sinkAnswers := more }
  /-- `GATE.PASS` (R263) -/
  | pass (hphase : k.wphase = .pass) :
      WorkerMove s w k { s.setWorker w { k with wphase := .idle } with
        nextTicket := narrow 64 (s.nextTicket.toNat + 1), retired := narrow 64 (s.retired.toNat + 1) }
  /-- `SCH.FAIL` (R264) -/
  | drop (hphase : k.wphase = .retire) :
      WorkerMove s w k { s.setWorker w { k with wphase := .idle, obuf := [] } with
        retired := narrow 64 (s.retired.toNat + 1) }

section
variable {s t : State} {w : Nat} {k : Worker}

/-- An operation on the worker's own segment, with the phase that follows it, is one `compute` move. -/
theorem ComputesOn.move {x : Res State} {p p' : WPhase} (hx : ∀ u, x = .next u → ComputesOn s w k u)
    (hw : k.wphase = p) (hn : workerNext p s.jMode = some p') (hgate : p' ≠ .gate)
    (h : (x.bind fun u => .next (workerAdvance w p u)) = .next t) : WorkerMove s w k t := by
  obtain ⟨u, hu, h⟩ := bind_eq_next.mp h
  obtain ⟨l, rfl, hseg, hbuf⟩ := hx u hu
  rw [workerAdvance_setWorker hn] at h
  cases h
  exact .compute _ (hw ▸ hn) hgate hseg hbuf

section
variable (hk : s.workers[w]? = some k)
include hk

/-- In phase `W_AGG` the mode chooses the operation (R31). -/
theorem workerTurn_agg (hp : s.phase = .parallel) (hw : k.wphase = .agg) (h : workerTurn w s = .next t) :
    t = s ∨ WorkerMove s w k t := by
  have hmode : s.jMode = 0 ∨ s.jMode = 1 ∨ s.jMode = 2 ∨ s.jMode = 3 := by
    generalize s.jMode = m
    revert m
    decide
  rcases hmode with hm | hm | hm | hm
  · have h := (workerTurn_of_code hk hp hw (c := 0x60) (by rw [hm]; rfl)).symm.trans h
    exact .inr (ComputesOn.move (fun _ => execAggCount_computes hk) hw (p' := .reduce) (by rw [hm]; rfl) nofun h)
  · have h := (workerTurn_of_code hk hp hw (c := 0x61) (by rw [hm]; rfl)).symm.trans h
    exact .inr (ComputesOn.move (fun _ => execAggSum_computes hk) hw (p' := .reduce) (by rw [hm]; rfl) nofun h)
  · have h := (workerTurn_of_code hk hp hw (c := 0x62) (by rw [hm]; rfl)).symm.trans h
    obtain ⟨u, hu, h⟩ := bind_eq_next.mp h
    obtain ⟨text, rfl⟩ := execAggPrint_frame hk hu
    rw [workerAdvance_setWorker (p' := .gate) (by rw [hm]; rfl)] at h
    cases h
    exact .inr (.print text hw hm)
  · have h := (workerTurn_of_no_code hk hw (by rw [hm]; rfl)).symm.trans h
    exact .inl (Host.Outcome.next.inj h).symm

theorem execSchReduce_move (hw : k.wphase = .reduce) (h : execSchReduce w s = .next t) : WorkerMove s w k t := by
  simp only [execSchReduce, withWorker_of_some hk] at h
  cases h
  exact .reduce hw

theorem execGateWait_move (hw : k.wphase = .gate) (h : execGateWait w s = .next t) : t = s ∨ WorkerMove s w k t := by
  simp only [execGateWait, withWorker_of_some hk, Host.Outcome.next.injEq] at h
  split at h
  · next hf => exact .inr (h ▸ .giveUp hw hf)
  · next hf =>
    split at h
    · next ht => exact .inr (h ▸ .takeGate hw (by simpa using hf) ht.symm)
    · exact .inl h.symm

theorem execGateEmit_move (hw : k.wphase = .emit) (h : execGateEmit w s = .next t) : t = s ∨ WorkerMove s w k t := by
  simp only [execGateEmit, withWorker_of_some hk] at h
  split at h
  · next hb => cases h; exact .inr (.drained hw hb)
  · next b rest hb =>
    split at h
    · exact .inl (Host.Outcome.next.inj h).symm
    · cases h; exact .inr (.accepted b rest _ hw hb)
    · cases h; exact .inr (.failed _ hw (by simp [hb]))

theorem execGatePass_move (hw : k.wphase = .pass) (h : execGatePass w s = .next t) : WorkerMove s w k t := by
  simp only [execGatePass, withWorker_of_some hk] at h
  cases h
  exact .pass hw

theorem execSchFail_move (hw : k.wphase = .retire) (h : execSchFail w s = .next t) : WorkerMove s w k t := by
  simp only [execSchFail, withWorker_of_some hk] at h
  cases h
  exact .drop hw

theorem execSchDispatch_move (h : execSchDispatch w s = .next t) : t = s ∨ WorkerMove s w k t := by
  simp only [execSchDispatch, withWorker_of_some hk, Host.Outcome.next.injEq] at h
  split at h
  · next he =>
    simp only [State.dispatchEnabled, Bool.and_eq_true, beq_iff_eq, decide_eq_true_eq, Bool.not_eq_true'] at he
    obtain ⟨⟨⟨-, hidle⟩, hnext⟩, hfail⟩ := he
    exact .inr (h ▸ .dispatch hidle hnext hfail)
  · exact .inl h.symm

/-- What the turn of a worker of the block can do in phase `PARALLEL`, by its phase (R31). -/
theorem workerTurn_move (hp : s.phase = .parallel) (h : workerTurn w s = .next t) : t = s ∨ WorkerMove s w k t := by
  have turn {p : WPhase} {c : Nat} (hw : k.wphase = p) (hc : workerCode p s.jMode = some c) :=
    (workerTurn_of_code hk hp hw hc).symm.trans h
  cases hw : k.wphase with
  | idle => exact .inl (Host.Outcome.next.inj ((workerTurn_of_no_code hk hw rfl).symm.trans h)).symm
  | setup => exact .inr (ComputesOn.move (fun _ => execSegSetup_computes hk) hw rfl nofun (turn hw rfl))
  | copy => exact .inr (ComputesOn.move (fun _ => execSegCopy_computes hk) hw rfl nofun (turn hw rfl))
  | clip => exact .inr (ComputesOn.move (fun _ => execSegClip_computes hk) hw rfl nofun (turn hw rfl))
  | sieve => exact .inr (ComputesOn.move (fun _ => execSegSieve_computes hk) hw rfl nofun (turn hw rfl))
  | agg => exact workerTurn_agg hk hp hw h
  | reduce => exact .inr (execSchReduce_move hk hw ((bind_next_self _).symm.trans (turn hw rfl)))
  | gate => exact execGateWait_move hk hw ((bind_next_self _).symm.trans (turn hw rfl))
  | emit => exact execGateEmit_move hk hw ((bind_next_self _).symm.trans (turn hw rfl))
  | pass => exact .inr (execGatePass_move hk hw ((bind_next_self _).symm.trans (turn hw rfl)))
  | retire => exact .inr (execSchFail_move hk hw ((bind_next_self _).symm.trans (turn hw rfl)))

end

/-- A worker's turn waits or is a move of a worker of the block in phase `PARALLEL`. -/
theorem workerTurn_cases (h : workerTurn w s = .next t) :
    t = s ∨ ∃ k, s.workers[w]? = some k ∧ s.phase = .parallel ∧ WorkerMove s w k t := by
  cases hk : s.workers[w]? with
  | none => exact .inl (by simpa [workerTurn, hk, eq_comm] using h)
  | some k =>
    by_cases hp : s.phase = .parallel
    · exact (workerTurn_move hk hp h).imp_right fun hm => ⟨k, rfl, hp, hm⟩
    · exact .inl (by simpa [workerTurn, hk, hp, eq_comm] using h)

/-- A hand-out does nothing or is a move of a worker of the block in phase `PARALLEL`. -/
theorem dispatchTurn_cases (h : dispatchTurn w s = .next t) :
    t = s ∨ ∃ k, s.workers[w]? = some k ∧ s.phase = .parallel ∧ WorkerMove s w k t := by
  unfold dispatchTurn at h
  split at h
  · next hp =>
    obtain ⟨hp, hw⟩ := hp
    have hk := List.getElem?_eq_getElem hw
    exact (execSchDispatch_move hk h).imp_right fun hm => ⟨_, hk, hp, hm⟩
  · exact .inl (Host.Outcome.next.inj h).symm

end

end Sys2Proof.Proofs
end

section
/-! What a step driven by the host or the agents can do to the parallel region (R15, R30, R31, R281, R340). -/

namespace Sys2Proof.Proofs

open Sys2Proof.Machine Sys2Proof.Laws

/-- `t` agrees with `s` in all that the invariants of the parallel region look at, but for the phase. -/
structure SameRegion (s t : State) : Prop where
  workers      : t.workers = s.workers
  jMode        : t.jMode = s.jMode
  numSegments  : t.numSegments = s.numSegments
  retired      : t.retired = s.retired
  nextDispatch : t.nextDispatch = s.nextDispatch
  nextTicket   : t.nextTicket = s.nextTicket
  failFlag     : t.failFlag = s.failFlag
  sink         : t.sink = s.sink

/-- What a step can do to the parallel region. -/
inductive RegionMove (s t : State) : Prop
  /-- a worker's turn or a hand-out -/
  | worker (w : Nat) (k : Worker) (hk : s.workers[w]? = some k) (hp : s.phase = .parallel) (hm : WorkerMove s w k t)
  /-- at most the phase moves: no job starts to count, and `PARALLEL` is left through the join condition only -/
  | keep (same : SameRegion s t) (hcount : t.phase.counting → s.phase.counting)
      (hleave : t.phase ≠ .parallel → s.phase ≠ .parallel ∨ s.joinReady = true)
  /-- `SCH.CONFIG` clears the counters (R241) -/
  | start (hp : s.phase = .config) (ht : t = s.configSized.configDone)
  /-- an operation outside the parallel region whose job does not count yet -/
  | rest (hs : s.phase ≠ .parallel) (hcount : ¬ t.phase.counting) (hworkers : t.workers = s.workers)
  /-- the external reset (R340) -/
  | reset (ht : t = s.externalReset)

section
variable {s t : State}

/-- What the region does not look at may change in any phase. -/
theorem RegionMove.hold (same : SameRegion s t) (hp : t.phase = s.phase) : RegionMove s t :=
  .keep same (fun h => hp ▸ h) (fun h => .inl (hp ▸ h))

theorem RegionMove.refl (s : State) : RegionMove s s := .hold (by constructor <;> rfl) rfl

/-! ## The agents' turns -/

theorem execSchCheck_move (hp : s.phase = .check) (h : execSchCheck s = .next t) : RegionMove s t := by
  simp only [execSchCheck, Host.Outcome.next.injEq] at h
  refine .rest (by simp [hp]) ?_ ?_ <;> (rw [← h]; split <;> simp)

theorem execSchConfig_move (hp : s.phase = .config) (h : execSchConfig s = .next t) : RegionMove s t := by
  simp only [execSchConfig, Host.Outcome.next.injEq] at h
  split at h
  · exact .rest (by simp [hp]) (by simp [← h]) (by rw [← h]; rfl)
  · split at h
    · exact .rest (by simp [hp]) (by simp [← h]) (by rw [← h]; rfl)
    · exact .start hp h.symm

theorem execSchJoin_move (hp : s.phase = .join) (h : execSchJoin s = .next t) : RegionMove s t := by
  simp only [execSchJoin, Host.Outcome.next.injEq] at h
  refine .rest (by simp [hp]) ?_ ?_ <;> (rw [← h]; split <;> simp [State.finish])

theorem controllerTurn_move (h : controllerTurn s = .next t) : RegionMove s t := by
  have quiet (hq : s.phase.quiescent = true) : RegionMove s t := by
    cases (controllerTurn_quiescent hq).symm.trans h
    exact .refl s
  cases hp : s.phase with
  | idle => exact quiet (hp ▸ rfl)
  | check => exact execSchCheck_move hp (controllerTurn_check hp ▸ h)
  | config => exact execSchConfig_move hp (controllerTurn_config hp ▸ h)
  | oracle =>
    obtain ⟨u, hu, h⟩ := bind_eq_next.mp (controllerTurn_oracle hp ▸ h)
    obtain ⟨m, X, rfl⟩ := execOrcBuild_frame hu
    cases h
    exact .keep (by constructor <;> rfl) (by simp [hp, Phase.counting]) (by simp [hp])
  | template =>
    obtain ⟨u, hu, h⟩ := bind_eq_next.mp (controllerTurn_template hp ▸ h)
    obtain ⟨m, X, i, c, k, r, rfl⟩ := execTplBuild_frame hu
    cases h
    exact .keep (by constructor <;> rfl) (by simp [hp, Phase.counting]) (by simp [hp])
  | parallel =>
    have h := Host.Outcome.next.inj ((controllerTurn_parallel hp).symm.trans h)
    split at h
    · next hj => exact h ▸ .keep (by constructor <;> rfl) (by simp [hp, Phase.counting]) (fun _ => .inr hj)
    · exact h ▸ .refl s
  | join => exact execSchJoin_move hp (controllerTurn_join hp ▸ h)
  | done => exact quiet (hp ▸ rfl)
  | failed => exact quiet (hp ▸ rfl)

theorem takeTurn_move {a : Turn} (h : takeTurn a s = .next t) : RegionMove s t := by
  have agent {w : Nat} (hc : t = s ∨ ∃ k, s.workers[w]? = some k ∧ s.phase = .parallel ∧ WorkerMove s w k t) :
      RegionMove s t := by
    obtain rfl | ⟨k, hk, hp, hm⟩ := hc
    · exact .refl _
    · exact .worker w k hk hp hm
  cases a with
  | controller => exact controllerTurn_move h
  | dispatch w => exact agent (dispatchTurn_cases h)
  | worker w => exact agent (workerTurn_cases h)

/-! ## The host's commands -/

/-- A value written to `CTRL` runs as the one write it stands for (R92, R283). -/
theorem exec_decodeCtrl (data : Word) (s : State) : exec (decodeCtrl data) s = .next (s.ctrlWrite data) := by
  have hmode : ∀ m : BitVec 2, m = 0 ∨ m = 1 ∨ m = 2 ∨ m = 3 := by decide
  unfold decodeCtrl State.ctrlWrite
  split
  · rcases hmode (ctrlModeField data) with h | h | h | h <;> rw [h] <;> rfl
  · rfl

/-- A block that is not `BUSY` is in a quiescent phase (R29, R45). -/
theorem quiescent_of_not_busy (hf : s.flagsAgree) (hb : s.busy = false) : s.phase.quiescent = true := by
  obtain ⟨hbusy, -⟩ := hf
  rw [hb] at hbusy
  cases hp : s.phase <;> simp [hp, Phase.quiescent] at hbusy ⊢

theorem ctrlWrite_move (hf : s.flagsAgree) (data : Word) : RegionMove s (s.ctrlWrite data) := by
  unfold State.ctrlWrite State.go State.storeMode
  split_ifs with hg hb hb
  · exact .refl s
  · have hq := quiescent_of_not_busy hf (by simpa using hb)
    refine .keep (by constructor <;> rfl) (by simp) (fun _ => .inl fun hp => ?_)
    simp [hp, Phase.quiescent] at hq
  · exact .refl s
  · exact .hold (by constructor <;> rfl) rfl

theorem regWrite_move (hf : s.flagsAgree) (off : BitVec 7) (data : Word) : RegionMove s (s.regWrite off data) := by
  unfold State.regWrite
  split
  case h_3 => exact ctrlWrite_move hf data
  all_goals exact .hold (by constructor <;> rfl) rfl

theorem execHostWr_move {off : BitVec 7} {data : Word} (hf : s.flagsAgree) (h : execHostWr off data s = .next t) :
    RegionMove s t := by
  unfold execHostWr at h
  split_ifs at h with ho hb
  · exact Host.Outcome.next.inj h ▸ .refl s
  · exact Host.Outcome.next.inj h ▸ regWrite_move hf off data

theorem execHostRd_move {off : BitVec 7} (h : execHostRd off s = .next t) : RegionMove s t := by
  unfold execHostRd at h
  split at h
  · exact Host.Outcome.next.inj h ▸ .hold (by constructor <;> rfl) rfl
  · cases h

/-! ## The step -/

theorem takeEvent_move {e : Event} (hf : s.flagsAgree) (he : e.fromOutside = true) (h : takeEvent e s = .next t) :
    RegionMove s t := by
  match e with
  | .command (.unit _ _) => cases he
  | .command (.ctrl data) =>
    have h : exec (decodeCtrl data) s = .next t := h
    rw [exec_decodeCtrl] at h
    exact Host.Outcome.next.inj h ▸ ctrlWrite_move hf data
  | .command (.reg access) =>
    have h : exec (decodeReg access) s = .next t := h
    unfold decodeReg at h
    split at h
    · exact execHostWr_move hf h
    · exact execHostRd_move h
  | .reset => exact .reset (Host.Outcome.next.inj h).symm
  | .turn a => exact takeTurn_move h

/-- A step takes what it presents from the environment's part of the state, and then is a move of the region. -/
theorem step_move (hw : s.hardwired) (hf : s.flagsAgree) (h : step s = .next t) :
    ∃ es n, RegionMove { s with events := es, turns := n } t := by
  unfold step at h
  split at h
  · next e rest he => exact ⟨rest, s.turns, takeEvent_move hf (hw e (by simp [he])) h⟩
  · next he =>
    unfold freeTurn at h
    split at h
    · exact ⟨s.events, s.turns, Host.Outcome.next.inj h ▸ .refl s⟩
    · exact ⟨s.events, s.turns + 1, takeTurn_move h⟩

end

end Sys2Proof.Proofs
end

section
/-! Every step keeps the gate safe (R260, R265). The invariants fall into what each worker meets for itself, `SafeAt`,
that no two workers hold one segment, and the counters' own, `Counted`; a worker's move changes one worker, so one
rule, `gateSafe_of_set`, carries all of them over. -/

namespace Sys2Proof.Proofs

open Sys2Proof.Machine Sys2Proof.Laws

/-! ## The invariants, worker by worker -/

/-- The registers that what is asked of a worker depends on. -/
structure Gate where
  phase        : Phase
  jMode        : BitVec 2
  nextDispatch : Word
  nextTicket   : Word
  failFlag     : Bool

def gateOf (s : State) : Gate := ⟨s.phase, s.jMode, s.nextDispatch, s.nextTicket, s.failFlag⟩

/-- What `State.gateSafe` asks of one worker. -/
structure SafeAt (g : Gate) (k : Worker) : Prop where
  idleOutside    : g.phase ≠ .parallel → k.wphase = .idle
  emptyBuffer    : k.wphase ≠ .gate → k.wphase ≠ .emit → k.wphase ≠ .retire → k.obuf = []
  dispatched     : k.busy → k.segN.toNat < g.nextDispatch.toNat
  turnIsTicket   : k.holdsTurn → k.segN = g.nextTicket
  gateInPrint    : k.holdsTurn ∨ k.wphase = .gate ∨ k.wphase = .retire → g.jMode = 2
  reduceNotPrint : k.wphase = .reduce → g.jMode ≠ 2
  retireFailed   : k.wphase = .retire → g.failFlag = true
  noWriteAfter   : g.failFlag = true → ¬ k.holdsTurn
  heldAbove      : g.phase.counting → g.jMode = 2 → k.busy →
                     g.nextTicket.toNat ≤ k.segN.toNat ∧
                     (g.failFlag = true → k.segN = g.nextTicket → k.wphase = .retire)

/-- What `State.gateSafe` asks of the counters. -/
structure Counted (s : State) : Prop where
  retiredCount  : s.phase.counting →
                    s.retired.toNat + s.busyCount = s.nextDispatch.toNat ∧ s.nextDispatch.toNat ≤ s.numSegments.toNat
  failInPrint   : s.phase.counting → s.failFlag = true → s.jMode = 2
  ticketRetired : s.phase.counting → s.jMode = 2 → s.failFlag = false → s.nextTicket = s.retired

section
variable {s t : State} {w : Nat} {k l : Worker} {g : Gate}

theorem counting_of_parallel (hp : s.phase = .parallel) : s.phase.counting := .inr (.inr (.inl hp))

theorem SafeAt.of_idle (hw : k.wphase = .idle) (hb : k.obuf = []) : SafeAt g k := by
  constructor <;> simp [hw, hb]

/-- What `SafeAt` asks of a worker for the phase it is in. -/
structure PhaseSafe (g : Gate) (k : Worker) : Prop where
  buffer : k.wphase ≠ .gate → k.wphase ≠ .emit → k.wphase ≠ .retire → k.obuf = []
  turn   : k.holdsTurn → k.segN = g.nextTicket ∧ g.failFlag = false
  print  : k.holdsTurn ∨ k.wphase = .gate ∨ k.wphase = .retire → g.jMode = 2
  reduce : k.wphase = .reduce → g.jMode ≠ 2
  retire : k.wphase = .retire → g.failFlag = true

/-- A worker that goes on with its segment keeps what is asked for the segment; the rest is asked for its new phase. -/
theorem SafeAt.advance (h : SafeAt g k) (hp : g.phase = .parallel) (hb : k.busy) (hret : k.wphase ≠ .retire)
    (hseg : l.segN = k.segN) (hl : PhaseSafe g l) : SafeAt g l where
  idleOutside hn := absurd hp hn
  emptyBuffer := hl.buffer
  dispatched _ := hseg ▸ h.dispatched hb
  turnIsTicket ht := (hl.turn ht).1
  gateInPrint := hl.print
  reduceNotPrint := hl.reduce
  retireFailed := hl.retire
  noWriteAfter hf ht := absurd ((hl.turn ht).2.symm.trans hf) nofun
  heldAbove hc hm _ := by
    obtain ⟨hle, hne⟩ := h.heldAbove hc hm hb
    exact ⟨hseg ▸ hle, fun hf ht => absurd (hne hf (hseg ▸ ht)) hret⟩

theorem safeAt_of_gateSafe (h : s.gateSafe) (hk : s.workers[w]? = some k) : SafeAt (gateOf s) k where
  idleOutside hp := h.idleOutside hp k (List.mem_of_getElem? hk)
  emptyBuffer := h.emptyBuffers k (List.mem_of_getElem? hk)
  dispatched := h.dispatched k (List.mem_of_getElem? hk)
  turnIsTicket := h.turnIsTicket k (List.mem_of_getElem? hk)
  gateInPrint := h.gateInPrint k (List.mem_of_getElem? hk)
  reduceNotPrint := h.reduceNotPrint k (List.mem_of_getElem? hk)
  retireFailed := h.retireFailed k (List.mem_of_getElem? hk)
  noWriteAfter hf := h.noWriteAfter hf k (List.mem_of_getElem? hk)
  heldAbove hc hm := h.heldAbove hc hm k (List.mem_of_getElem? hk)

theorem gateSafe_of_safeAt (safe : ∀ k ∈ s.workers, SafeAt (gateOf s) k)
    (distinct : ∀ (v w : Nat) (k l : Worker), s.workers[v]? = some k → s.workers[w]? = some l →
      k.busy → l.busy → k.segN = l.segN → v = w)
    (counted : Counted s) : s.gateSafe where
  idleOutside hp k hk := (safe k hk).idleOutside hp
  emptyBuffers k hk := (safe k hk).emptyBuffer
  dispatched k hk := (safe k hk).dispatched
  distinct := distinct
  turnIsTicket k hk := (safe k hk).turnIsTicket
  retiredCount := counted.retiredCount
  gateInPrint k hk := (safe k hk).gateInPrint
  reduceNotPrint k hk := (safe k hk).reduceNotPrint
  failInPrint := counted.failInPrint
  retireFailed k hk := (safe k hk).retireFailed
  ticketRetired := counted.ticketRetired
  noWriteAfter hf k hk := (safe k hk).noWriteAfter hf
  heldAbove hc hm k hk := (safe k hk).heldAbove hc hm

/-- With every worker idle and no counting job nothing else is asked. -/
theorem gateSafe_of_rest (hcount : ¬ s.phase.counting) (hidle : ∀ k ∈ s.workers, k.wphase = .idle ∧ k.obuf = []) :
    s.gateSafe := by
  refine gateSafe_of_safeAt (fun k hk => .of_idle (hidle k hk).1 (hidle k hk).2) ?_
    ⟨fun h => absurd h hcount, fun h => absurd h hcount, fun h => absurd h hcount⟩
  intro v _ k _ hk _ hb
  exact absurd (hidle k (List.mem_of_getElem? hk)).1 hb

/-! ## One worker changes -/

/-- A worker after one was replaced: the new one, or one of the others. -/
theorem set_cases {ks : List Worker} {v : Nat} {x : Worker} (hx : (ks.set w l)[v]? = some x) :
    v = w ∧ x = l ∨ v ≠ w ∧ ks[v]? = some x := by
  rw [List.getElem?_set] at hx
  split at hx
  · next hwv =>
    split at hx
    · exact .inl ⟨hwv.symm, (Option.some.inj hx).symm⟩
    · cases hx
  · next hwv => exact .inr ⟨Ne.symm hwv, hx⟩

theorem mem_set_cases {ks : List Worker} {x : Worker} (hx : x ∈ ks.set w l) :
    x = l ∨ ∃ v, v ≠ w ∧ ks[v]? = some x := by
  obtain ⟨v, hv⟩ := List.mem_iff_getElem?.mp hx
  exact (set_cases hv).imp And.right fun h => ⟨v, h⟩

theorem mem_cases {x : Worker} (hk : s.workers[w]? = some k) (hx : x ∈ s.workers) :
    x = k ∨ ∃ v, v ≠ w ∧ s.workers[v]? = some x := by
  obtain ⟨v, hv⟩ := List.mem_iff_getElem?.mp hx
  by_cases hvw : v = w
  · subst hvw
    exact .inl (Option.some.inj (hv.symm.trans hk))
  · exact .inr ⟨v, hvw, hv⟩

/-- Replacing a worker counts it anew. -/
theorem busyCount_setWorker (hk : s.workers[w]? = some k) (l : Worker) :
    (s.setWorker w l).busyCount + (k.wphase != .idle).toNat = s.busyCount + (l.wphase != .idle).toNat := by
  obtain ⟨hw, rfl⟩ := List.getElem?_eq_some_iff.mp hk
  unfold State.busyCount
  rw [setWorker_workers, List.countP_set hw]
  have hpos : (s.workers[w].wphase != .idle) = true → 0 < s.workers.countP fun k => k.wphase != .idle :=
    fun h => List.countP_pos_iff.mpr ⟨_, List.getElem_mem hw, h⟩
  cases h : s.workers[w].wphase != .idle <;> cases h' : l.wphase != .idle <;> simp_all

theorem busyCount_of_advance (hk : s.workers[w]? = some k) (hb : k.busy) (hl : l.busy) :
    (s.setWorker w l).busyCount = s.busyCount := by
  have h := busyCount_setWorker hk l
  rwa [bne_iff_ne.mpr hb, bne_iff_ne.mpr hl, Nat.add_right_cancel_iff] at h

theorem busyCount_of_dispatch (hk : s.workers[w]? = some k) (hi : k.wphase = .idle) (hl : l.busy) :
    (s.setWorker w l).busyCount = s.busyCount + 1 := by
  have h := busyCount_setWorker hk l
  rwa [hi, bne_iff_ne.mpr hl] at h

theorem busyCount_of_release (hk : s.workers[w]? = some k) (hb : k.busy) (hl : l.wphase = .idle) :
    (s.setWorker w l).busyCount + 1 = s.busyCount := by
  have h := busyCount_setWorker hk l
  rwa [hl, bne_iff_ne.mpr hb] at h

/-- The rule for a move of one worker: it keeps its own part, the others keep theirs, its segment is nobody else's,
and the counters agree. -/
theorem gateSafe_of_set (hs : s.gateSafe) (ht : t.workers = s.workers.set w l) (own : SafeAt (gateOf t) l)
    (others : ∀ v x, v ≠ w → s.workers[v]? = some x → SafeAt (gateOf t) x)
    (apart : l.busy → ∀ v x, v ≠ w → s.workers[v]? = some x → x.busy → x.segN ≠ l.segN) (counted : Counted t) :
    t.gateSafe := by
  refine gateSafe_of_safeAt (fun x hx => ?_) ?_ counted
  · obtain rfl | ⟨v, hvw, hv⟩ := mem_set_cases (ht ▸ hx)
    · exact own
    · exact others v x hvw hv
  · intro u v x y hx hy hbx hby hseg
    obtain ⟨rfl, rfl⟩ | ⟨huw, hu⟩ := set_cases (ht ▸ hx) <;>
      obtain ⟨rfl, rfl⟩ | ⟨hvw, hv⟩ := set_cases (ht ▸ hy)
    · rfl
    · exact absurd hseg.symm (apart hbx v y hvw hv hby)
    · exact absurd hseg (apart hby u x huw hu hbx)
    · exact hs.distinct u v x y hu hv hbx hby hseg

/-- No other worker holds a busy worker's segment. -/
theorem segN_ne_of_ne (hs : s.gateSafe) (hk : s.workers[w]? = some k) (hb : k.busy) {v : Nat} {x : Worker}
    (hvw : v ≠ w) (hx : s.workers[v]? = some x) (hbx : x.busy) : x.segN ≠ k.segN :=
  fun h => hvw (hs.distinct v w x k hx hk hbx hb h)

theorem busy_of_holdsTurn (h : k.holdsTurn) : k.busy := by
  rcases h with h | h <;> simp [h]

/-- A worker has the turn in print mode only, before any failed write, and with segment `NEXT_TICKET` (R260, R265). -/
theorem turn_facts (hs : s.gateSafe) (hk : s.workers[w]? = some k) (ht : k.holdsTurn) :
    s.jMode = 2 ∧ s.failFlag = false ∧ k.segN = s.nextTicket := by
  have hself := safeAt_of_gateSafe hs hk
  refine ⟨hself.gateInPrint (.inl ht), ?_, hself.turnIsTicket ht⟩
  cases hf : s.failFlag with
  | false => rfl
  | true => exact absurd ht (hself.noWriteAfter hf)

/-- While a worker holds segment `NEXT_TICKET`, no other worker has the turn. -/
theorem not_holdsTurn_of_ne (hs : s.gateSafe) (hk : s.workers[w]? = some k) (hb : k.busy) (hseg : k.segN = s.nextTicket)
    {v : Nat} {x : Worker} (hvw : v ≠ w) (hx : s.workers[v]? = some x) : ¬ x.holdsTurn := fun h =>
  segN_ne_of_ne hs hk hb hvw hx (busy_of_holdsTurn h) (((safeAt_of_gateSafe hs hx).turnIsTicket h).trans hseg.symm)

/-! ## The workers' moves -/

/-- A worker goes on with its segment; at most the sink and its answers change with it. -/
theorem gateSafe_of_advance (hs : s.gateSafe) (hp : s.phase = .parallel) (hk : s.workers[w]? = some k)
    (hl : PhaseSafe (gateOf s) l) (hb : k.busy) (hret : k.wphase ≠ .retire) (hlb : l.busy) (hseg : l.segN = k.segN)
    (sink : List Byte) (answers : List SinkAnswer) :
    State.gateSafe { s.setWorker w l with sink := sink, sinkAnswers := answers } := by
  have own : SafeAt (gateOf s) l := (safeAt_of_gateSafe hs hk).advance hp hb hret hseg hl
  refine gateSafe_of_set hs rfl own (fun v x _ hx => (safeAt_of_gateSafe hs hx : SafeAt (gateOf s) x))
    (fun _ v x hvw hx hbx => hseg ▸ segN_ne_of_ne hs hk hb hvw hx hbx)
    ⟨fun hc => ?_, hs.failInPrint, hs.ticketRetired⟩
  change s.retired.toNat + (s.setWorker w l).busyCount = _ ∧ _
  rw [busyCount_of_advance hk hb hlb]
  exact hs.retiredCount hc

/-- A worker in this phase holds a segment and is not yet at the gate. -/
def BeforeGate (p : WPhase) : Prop := p ≠ .idle ∧ p ≠ .gate ∧ p ≠ .emit ∧ p ≠ .pass ∧ p ≠ .retire

/-- An operation on the worker's own segment leads from and to phases before the gate, but for `AGG.PRINT` (R31). -/
theorem workerNext_beforeGate {p p' : WPhase} {m : BitVec 2} (h : workerNext p m = some p') (hgate : p' ≠ .gate) :
    BeforeGate p ∧ BeforeGate p' ∧ (p' = .reduce → m ≠ 2) := by
  cases p <;> simp only [workerNext, Option.some.injEq, reduceCtorEq] at h <;> subst h
  case agg =>
    have hn : m.toNat ≠ 2 := fun hn => hgate (if_pos hn)
    have hm : m ≠ 2 := fun hm => hn (hm ▸ rfl)
    rw [if_neg hn]
    exact ⟨by simp [BeforeGate], by simp [BeforeGate], fun _ => hm⟩
  all_goals simp [BeforeGate]

theorem obuf_of_beforeGate (h : SafeAt g k) (hk : BeforeGate k.wphase) : k.obuf = [] := by
  obtain ⟨-, hgate, hemit, -, hret⟩ := hk
  exact h.emptyBuffer hgate hemit hret

/-- An operation on the worker's own segment, but for `AGG.PRINT` (R31). -/
theorem gateSafe_compute (hs : s.gateSafe) (hp : s.phase = .parallel) (hk : s.workers[w]? = some k)
    (hnext : workerNext k.wphase s.jMode = some l.wphase) (hgate : l.wphase ≠ .gate) (hseg : l.segN = k.segN)
    (hbuf : l.obuf = k.obuf) : (s.setWorker w l).gateSafe := by
  obtain ⟨hfrom, ⟨hlb, -, hemit, hpass, hret⟩, hred⟩ := workerNext_beforeGate hnext hgate
  have hself := safeAt_of_gateSafe hs hk
  have hempty : l.obuf = [] := hbuf.trans (obuf_of_beforeGate hself hfrom)
  obtain ⟨hb, -, -, -, hkret⟩ := hfrom
  have hl : PhaseSafe (gateOf s) l := by
    refine ⟨fun _ _ _ => hempty, ?_, ?_, hred, ?_⟩ <;> simp [hemit, hpass, hgate, hret]
  exact gateSafe_of_advance hs hp hk hl hb hkret hlb hseg s.sink s.sinkAnswers

/-- `RETIRED` has room for one more while a worker holds a segment. -/
theorem retired_room (hs : s.gateSafe) (hc : s.phase.counting) (hk : s.workers[w]? = some k) (hb : k.busy)
    (hl : l.wphase = .idle) :
    (narrow 64 (s.retired.toNat + 1)).toNat = s.retired.toNat + 1 ∧
    s.retired.toNat + 1 + (s.setWorker w l).busyCount = s.nextDispatch.toNat := by
  obtain ⟨hret, -⟩ := hs.retiredCount hc
  have hcount := busyCount_of_release hk hb hl
  exact ⟨narrow_toNat (v := s.retired.toNat + 1) (by omega), by omega⟩

/-- While a worker has the turn, `NEXT_TICKET` is `RETIRED` and has room for one more. -/
theorem nextTicket_room (hs : s.gateSafe) (hc : s.phase.counting) (hk : s.workers[w]? = some k) (ht : k.holdsTurn) :
    s.nextTicket = s.retired ∧ (narrow 64 (s.nextTicket.toNat + 1)).toNat = s.nextTicket.toNat + 1 := by
  obtain ⟨hmode, hfail, -⟩ := turn_facts hs hk ht
  have hticket := hs.ticketRetired hc hmode hfail
  obtain ⟨hroom, -⟩ := retired_room (l := Worker.reset) hs hc hk (busy_of_holdsTurn ht) rfl
  exact ⟨hticket, hticket ▸ hroom⟩

/-- A worker gives its segment up, and `RETIRED` counts it; `n` is the ticket from then on. -/
theorem gateSafe_of_release (hs : s.gateSafe) (hk : s.workers[w]? = some k) (hb : k.busy) (hl : l.wphase = .idle)
    (hbuf : l.obuf = []) (acc n : Word)
    (others : ∀ v x, v ≠ w → s.workers[v]? = some x → SafeAt { gateOf s with nextTicket := n } x)
    (hticket : s.jMode = 2 → s.failFlag = false → n = narrow 64 (s.retired.toNat + 1)) :
    State.gateSafe { s.setWorker w l with acc := acc, nextTicket := n, retired := narrow 64 (s.retired.toNat + 1) } := by
  refine gateSafe_of_set hs rfl (.of_idle hl hbuf) others (fun hl' => absurd hl hl')
    ⟨fun hc => ?_, hs.failInPrint, fun _ => hticket⟩
  obtain ⟨hroom, hcount⟩ := retired_room hs hc hk hb hl
  exact ⟨(congrArg (· + _) hroom).trans hcount, (hs.retiredCount hc).2⟩

/-- `SCH.DISPATCH` (R250): the segment handed out is nobody's, as every held one lies below it. -/
theorem gateSafe_dispatch (hs : s.gateSafe) (hp : s.phase = .parallel) (hk : s.workers[w]? = some k)
    (hidle : k.wphase = .idle) (hnext : s.nextDispatch.toNat < s.numSegments.toNat) (hfail : s.failFlag = false) :
    State.gateSafe { s.setWorker w { k with segN := s.nextDispatch, wphase := .setup } with
      nextDispatch := narrow 64 (s.nextDispatch.toNat + 1) } := by
  have hroom : (narrow 64 (s.nextDispatch.toNat + 1)).toNat = s.nextDispatch.toNat + 1 :=
    narrow_toNat (v := s.nextDispatch.toNat + 1) (by omega)
  have hcounting := counting_of_parallel hp
  obtain ⟨hret, -⟩ := hs.retiredCount hcounting
  have hempty : k.obuf = [] :=
    (safeAt_of_gateSafe hs hk).emptyBuffer (by simp [hidle]) (by simp [hidle]) (by simp [hidle])
  refine gateSafe_of_set hs rfl ?own (fun v x hvw hx => ?others) (fun _ v x hvw hx hbx hseg => ?apart)
    ⟨fun _ => ?counted, hs.failInPrint, hs.ticketRetired⟩
  case own =>
    have hticket := hs.ticketRetired hcounting
    constructor <;> simp [gateOf, hempty, hroom, hp, hfail]
    intro _ hm
    rw [hticket hm hfail]
    omega
  case others =>
    have hx := safeAt_of_gateSafe hs hx
    refine { hx with dispatched := fun hbx => ?_ }
    have hd : x.segN.toNat < s.nextDispatch.toNat := hx.dispatched hbx
    exact hroom ▸ Nat.lt_succ_of_lt hd
  case apart =>
    have hd : x.segN.toNat < s.nextDispatch.toNat := (safeAt_of_gateSafe hs hx).dispatched hbx
    rw [hseg] at hd
    exact Nat.lt_irrefl _ hd
  case counted =>
    change s.retired.toNat + (s.setWorker w _).busyCount = (narrow 64 _).toNat ∧
      (narrow 64 _).toNat ≤ s.numSegments.toNat
    rw [busyCount_of_dispatch hk hidle (by simp), hroom]
    omega

/-- `GATE.EMIT` whose write fails (R262): the only worker with the turn gives it up. -/
theorem gateSafe_failed (hs : s.gateSafe) (hp : s.phase = .parallel) (hk : s.workers[w]? = some k)
    (hemit : k.wphase = .emit) (more : List SinkAnswer) :
    State.gateSafe { s.setWorker w { k with wphase := .retire } with failFlag := true, sinkAnswers := more } := by
  have hb : k.busy := by simp [hemit]
  have hself := safeAt_of_gateSafe hs hk
  obtain ⟨hmode, -, hseg⟩ := turn_facts hs hk (.inl hemit)
  refine gateSafe_of_set hs rfl ?own (fun v x hvw hx => ?others)
    (fun _ v x hvw hx hbx => segN_ne_of_ne hs hk hb hvw hx hbx) ⟨fun hc => ?counted, fun _ _ => hmode, nofun⟩
  case own =>
    have hdisp := hself.dispatched hb
    have habove := hself.heldAbove
    constructor <;> simp_all [gateOf]
  case others =>
    have hturn := not_holdsTurn_of_ne hs hk hb hseg hvw hx
    have hne := segN_ne_of_ne hs hk hb hvw hx
    have hx := safeAt_of_gateSafe hs hx
    exact { hx with
      retireFailed := fun _ => rfl
      noWriteAfter := fun _ => hturn
      heldAbove := fun hc hm hbx => ⟨(hx.heldAbove hc hm hbx).1, fun _ h => absurd (h.trans hseg.symm) (hne hbx)⟩ }
  case counted =>
    change s.retired.toNat + (s.setWorker w _).busyCount = _ ∧ _
    rw [busyCount_of_advance hk hb (by simp)]
    exact hs.retiredCount hc

/-- `GATE.PASS` (R263): the turn goes to the next segment, and every other held one lies above the one passed. -/
theorem gateSafe_pass (hs : s.gateSafe) (hp : s.phase = .parallel) (hk : s.workers[w]? = some k)
    (hpass : k.wphase = .pass) :
    State.gateSafe { s.setWorker w { k with wphase := .idle } with
      nextTicket := narrow 64 (s.nextTicket.toNat + 1), retired := narrow 64 (s.retired.toNat + 1) } := by
  have hb : k.busy := by simp [hpass]
  have hself := safeAt_of_gateSafe hs hk
  obtain ⟨-, hfail, hseg⟩ := turn_facts hs hk (.inr hpass)
  have hempty : k.obuf = [] := hself.emptyBuffer (by simp [hpass]) (by simp [hpass]) (by simp [hpass])
  obtain ⟨hticket, hroom⟩ := nextTicket_room hs (counting_of_parallel hp) hk (.inr hpass)
  refine gateSafe_of_release (l := { k with wphase := .idle }) hs hk hb rfl hempty s.acc
    (narrow 64 (s.nextTicket.toNat + 1)) (fun v x hvw hx => ?_) (fun _ _ => by rw [hticket])
  have hturn := not_holdsTurn_of_ne hs hk hb hseg hvw hx
  have hne := segN_ne_of_ne hs hk hb hvw hx
  have hx := safeAt_of_gateSafe hs hx
  refine { hx with
    turnIsTicket := fun h => absurd h hturn
    heldAbove := fun hc hm hbx => ⟨?_, fun hf => absurd (hfail.symm.trans hf) nofun⟩ }
  have hle : s.nextTicket.toNat ≤ x.segN.toNat := (hx.heldAbove hc hm hbx).1
  have hlt : s.nextTicket.toNat ≠ x.segN.toNat := fun h => hne hbx (hseg ▸ (BitVec.eq_of_toNat_eq h).symm)
  change (narrow 64 _).toNat ≤ _
  omega

/-- Every move of a worker keeps the gate safe. -/
theorem gateSafe_of_workerMove (hs : s.gateSafe) (hp : s.phase = .parallel) (hk : s.workers[w]? = some k)
    (hm : WorkerMove s w k t) : t.gateSafe := by
  have hself := safeAt_of_gateSafe hs hk
  have others : ∀ v x, v ≠ w → s.workers[v]? = some x → SafeAt (gateOf s) x :=
    fun _ _ _ hx => safeAt_of_gateSafe hs hx
  cases hm with
  | dispatch hidle hnext hfail => exact gateSafe_dispatch hs hp hk hidle hnext hfail
  | compute l hnext hgate hseg hbuf => exact gateSafe_compute hs hp hk hnext hgate hseg hbuf
  | print text hphase hmode =>
    have hl : PhaseSafe (gateOf s) { k with obuf := text, wphase := .gate } := by
      constructor <;> simp [gateOf, hmode]
    exact gateSafe_of_advance hs hp hk hl (by simp [hphase]) (by simp [hphase]) (by simp) rfl s.sink s.sinkAnswers
  | reduce hphase =>
    have hbuf : k.obuf = [] := obuf_of_beforeGate hself (by simp [BeforeGate, hphase])
    exact gateSafe_of_release (l := { k with wphase := .idle }) hs hk (by simp [hphase]) rfl hbuf _ _ others
      fun hm => absurd hm (hself.reduceNotPrint hphase)
  | takeGate hphase hfail hturn =>
    have hmode : s.jMode = 2 := hself.gateInPrint (.inr (.inl hphase))
    have hl : PhaseSafe (gateOf s) { k with wphase := .emit } := by
      constructor <;> simp [gateOf, hmode, hfail, hturn]
    exact gateSafe_of_advance hs hp hk hl (by simp [hphase]) (by simp [hphase]) (by simp) rfl s.sink s.sinkAnswers
  | giveUp hphase hfail =>
    have hmode : s.jMode = 2 := hself.gateInPrint (.inr (.inl hphase))
    have hl : PhaseSafe (gateOf s) { k with wphase := .retire } := by
      constructor <;> simp [gateOf, hmode, hfail]
    exact gateSafe_of_advance hs hp hk hl (by simp [hphase]) (by simp [hphase]) (by simp) rfl s.sink s.sinkAnswers
  | drained hphase hbuf =>
    obtain ⟨hmode, hfail, hturn⟩ := turn_facts hs hk (.inl hphase)
    have hl : PhaseSafe (gateOf s) { k with wphase := .pass } := by
      constructor <;> simp [gateOf, hmode, hfail, hturn, hbuf]
    exact gateSafe_of_advance hs hp hk hl (by simp [hphase]) (by simp [hphase]) (by simp) rfl s.sink s.sinkAnswers
  | accepted b rest more hphase hbuf =>
    obtain ⟨hmode, hfail, hturn⟩ := turn_facts hs hk (.inl hphase)
    have hl : PhaseSafe (gateOf s) { k with obuf := rest } := by
      constructor <;> simp [gateOf, hphase, hmode, hfail, hturn]
    exact gateSafe_of_advance hs hp hk hl (by simp [hphase]) (by simp [hphase]) (by simp [hphase]) rfl _ more
  | failed more hphase hbuf => exact gateSafe_failed hs hp hk hphase more
  | pass hphase => exact gateSafe_pass hs hp hk hphase
  | drop hphase =>
    exact gateSafe_of_release (l := { k with wphase := .idle, obuf := [] }) hs hk (by simp [hphase]) rfl rfl _ _ others
      fun _ hf => absurd (hf.symm.trans (hself.retireFailed hphase)) nofun

/-! ## Every move -/

/-- Outside `PARALLEL` every worker is idle with an empty buffer. -/
theorem idle_outside (hs : s.gateSafe) (hp : s.phase ≠ .parallel) (hk : k ∈ s.workers) :
    k.wphase = .idle ∧ k.obuf = [] := by
  have hi := hs.idleOutside hp k hk
  exact ⟨hi, hs.emptyBuffers k hk (by simp [hi]) (by simp [hi]) (by simp [hi])⟩

theorem busyCount_eq_zero (h : ∀ k ∈ s.workers, k.wphase = .idle) : s.busyCount = 0 :=
  List.countP_eq_zero.mpr fun k hk => by simp [h k hk]

/-- The join condition finds every worker idle (R270). -/
theorem idle_of_joinReady (h : s.joinReady = true) : ∀ k ∈ s.workers, k.wphase = .idle := by
  obtain ⟨hall, -⟩ := Bool.and_eq_true_iff.mp h
  simpa using hall

/-- The controller and the host leave every worker as it is; where `PARALLEL` is left, all of them are idle. -/
theorem gateSafe_of_keep (hs : s.gateSafe) (same : SameRegion s t) (hcount : t.phase.counting → s.phase.counting)
    (hleave : t.phase ≠ .parallel → s.phase ≠ .parallel ∨ s.joinReady = true) : t.gateSafe := by
  obtain ⟨hw, hm, hn, hr, hd, ht, hf, -⟩ := same
  have hgate : gateOf t = { gateOf s with phase := t.phase } := by simp [gateOf, hm, hd, ht, hf]
  refine gateSafe_of_safeAt (fun k hk => ?_) (hw ▸ hs.distinct) ⟨fun hc => ?_, fun hc => ?_, fun hc => ?_⟩
  · rw [hw] at hk
    obtain ⟨v, hv⟩ := List.mem_iff_getElem?.mp hk
    have hself := safeAt_of_gateSafe hs hv
    exact hgate ▸ { hself with
      idleOutside := fun hp => (hleave hp).elim hself.idleOutside fun hj => idle_of_joinReady hj k hk
      heldAbove := fun hc => hself.heldAbove (hcount hc) }
  · rw [hr, hd, hn, State.busyCount, hw]
    exact hs.retiredCount (hcount hc)
  · rw [hf, hm]
    exact hs.failInPrint (hcount hc)
  · rw [hm, hf, ht, hr]
    exact hs.ticketRetired (hcount hc)

/-- `SCH.CONFIG` starts the count with no segment in work (R241). -/
theorem gateSafe_start (hs : s.gateSafe) (hp : s.phase = .config) : s.configSized.configDone.gateSafe := by
  have hidle {k : Worker} (hk : k ∈ s.workers) := idle_outside hs (by simp [hp]) hk
  refine gateSafe_of_safeAt (fun k hk => .of_idle (hidle hk).1 (hidle hk).2) (fun v w k l hk _ hb => ?_)
    ⟨fun _ => ?_, nofun, fun _ _ _ => rfl⟩
  · exact absurd (hidle (List.mem_of_getElem? hk)).1 hb
  · have hzero : s.configSized.configDone.busyCount = 0 := busyCount_eq_zero fun k hk => (hidle hk).1
    rw [hzero]
    exact ⟨rfl, Nat.zero_le _⟩

theorem gateSafe_reset (s : State) : s.externalReset.gateSafe := by
  refine gateSafe_of_rest (by simp [Phase.counting]) fun k hk => ?_
  rw [externalReset_workers] at hk
  obtain ⟨-, rfl⟩ := List.mem_replicate.mp hk
  exact ⟨rfl, rfl⟩

/-- Every step of the host or an agent keeps the gate safe. -/
theorem gateSafe_of_move (hs : s.gateSafe) (hm : RegionMove s t) : t.gateSafe := by
  cases hm with
  | worker w k hk hp hm => exact gateSafe_of_workerMove hs hp hk hm
  | keep same hcount hleave => exact gateSafe_of_keep hs same hcount hleave
  | start hp ht => exact ht ▸ gateSafe_start hs hp
  | rest hp hcount hw => exact gateSafe_of_rest hcount fun k hk => idle_outside hs hp (hw ▸ hk)
  | reset ht => exact ht ▸ gateSafe_reset s

/-- What the environment has still to present is nothing to the gate. -/
theorem gateSafe_withEvents (hs : s.gateSafe) (es : List Event) (n : Nat) :
    State.gateSafe { s with events := es, turns := n } :=
  gateSafe_of_keep hs (by constructor <;> rfl) id fun h => .inl h

end

end Sys2Proof.Proofs
end

section
/-! Every step keeps the sink at the bytes of the segments below `NEXT_TICKET`, in segment order (R72 d, R265 c, R266,
R271). Only the worker with the turn writes, and `AGG.PRINT` settles a segment's text before its worker reaches the
gate. -/

namespace Sys2Proof.Proofs

open Sys2Proof.Machine Sys2Proof.Laws

section
variable {s t : State} {w : Nat} {k l : Worker} {base : List Byte} {text : Nat → List Byte}

/-! ## The text of the segments passed -/

/-- Text settled for a segment that is not passed yet changes nothing of what is passed. -/
theorem passedText_update (s : State) (text : Nat → List Byte) {n : Nat} (bytes : List Byte)
    (h : s.nextTicket.toNat ≤ n) :
    s.passedText (Function.update text n bytes) = s.passedText text := by
  unfold State.passedText
  refine List.flatMap_congr fun i hi => ?_
  rw [Function.update_of_ne]
  exact Nat.ne_of_lt (Nat.lt_of_lt_of_le (List.mem_range.mp hi) h)

/-- Passing segment `NEXT_TICKET` appends its text. -/
theorem passedText_succ (ht : t.nextTicket.toNat = s.nextTicket.toNat + 1) (text : Nat → List Byte) :
    t.passedText text = s.passedText text ++ text s.nextTicket.toNat := by
  simp [State.passedText, ht, List.range_succ]

/-! ## One worker changes -/

theorem not_holdsTurn_of_idle (h : k.wphase = .idle) : ¬ k.holdsTurn := fun ht => busy_of_holdsTurn ht h

/-- Where no job counts and every worker is idle, nothing is asked of the sink. -/
theorem streamed_of_rest (hcount : ¬ s.phase.counting) (hidle : ∀ k ∈ s.workers, k.wphase = .idle) (base : List Byte)
    (text : Nat → List Byte) : s.streamed base text where
  waiting k hk hg := absurd ((hidle k hk).symm.trans hg) nofun
  passed hc := absurd hc hcount
  emitting k hk ht := absurd ht (not_holdsTurn_of_idle (hidle k hk))
  failed hc := absurd hc hcount

/-- If nobody has the turn once a worker without it has moved, nobody had it before. -/
theorem no_turn_before (hk : s.workers[w]? = some k) (hkt : ¬ k.holdsTurn)
    (h : ∀ x ∈ s.workers.set w l, ¬ x.holdsTurn) : ∀ x ∈ s.workers, ¬ x.holdsTurn := by
  intro x hx
  obtain rfl | ⟨v, hvw, hv⟩ := mem_cases hk hx
  · exact hkt
  · exact h x (List.mem_of_getElem? ((setWorker_other s hvw.symm l).trans hv))

/-- A worker without the turn moves, and neither takes it nor reaches the gate: the sink and the ticket stay. -/
theorem streamed_of_quiet (hst : s.streamed base text) (hk : s.workers[w]? = some k) (hkt : ¬ k.holdsTurn)
    (hlt : ¬ l.holdsTurn) (hgate : l.wphase ≠ .gate) (acc d r : Word) :
    State.streamed { s.setWorker w l with acc := acc, nextDispatch := d, retired := r } base text where
  waiting x hx hg := by
    obtain rfl | ⟨v, -, hv⟩ := mem_set_cases hx
    · exact absurd hg hgate
    · exact hst.waiting x (List.mem_of_getElem? hv) hg
  passed hc hf hno := hst.passed hc hf (no_turn_before hk hkt hno)
  emitting x hx ht := by
    obtain rfl | ⟨v, -, hv⟩ := mem_set_cases hx
    · exact absurd ht hlt
    · exact hst.emitting x (List.mem_of_getElem? hv) ht
  failed := hst.failed

/-- The worker that holds segment `NEXT_TICKET` moves on past the gate: what the sink holds is its affair alone. -/
theorem streamed_of_turn (hs : s.gateSafe) (hst : s.streamed base text) (hk : s.workers[w]? = some k) (hb : k.busy)
    (hseg : k.segN = s.nextTicket) (hw : t.workers = s.workers.set w l) (hgate : l.wphase ≠ .gate)
    (emitting : l.holdsTurn → ∃ out, out ++ l.obuf = text l.segN.toNat ∧ t.sink = base ++ t.passedText text ++ out)
    (passed : t.failFlag = false → ¬ l.holdsTurn → t.sink = base ++ t.passedText text)
    (failed : t.failFlag = true →
      ∃ out rest, rest ≠ [] ∧ out ++ rest = text t.nextTicket.toNat ∧ t.sink = base ++ t.passedText text ++ out) :
    t.streamed base text where
  waiting x hx hg := by
    obtain rfl | ⟨v, -, hv⟩ := mem_set_cases (hw ▸ hx)
    · exact absurd hg hgate
    · exact hst.waiting x (List.mem_of_getElem? hv) hg
  passed _ hf hno := passed hf (hno l (hw ▸ List.mem_set (worker_lt hk) l))
  emitting x hx ht := by
    obtain rfl | ⟨v, hvw, hv⟩ := mem_set_cases (hw ▸ hx)
    · exact emitting ht
    · exact absurd ht (not_holdsTurn_of_ne hs hk hb hseg hvw hv)
  failed _ := failed

/-! ## The workers' moves -/

/-- `AGG.PRINT` settles the text of a segment that is not passed yet, and of no other (R225). -/
theorem streamed_print (hs : s.gateSafe) (hst : s.streamed base text) (hp : s.phase = .parallel)
    (hk : s.workers[w]? = some k) (hphase : k.wphase = .agg) (hmode : s.jMode = 2) (bytes : List Byte) :
    (s.setWorker w { k with obuf := bytes, wphase := .gate }).streamed base (Function.update text k.segN.toNat bytes) := by
  have hb : k.busy := by simp [hphase]
  have hc := counting_of_parallel hp
  obtain ⟨habove, hfailed⟩ := hs.heldAbove hc hmode k (List.mem_of_getElem? hk) hb
  have hpassed := (passedText_update s text bytes habove).symm
  have hother {v : Nat} {x : Worker} (hvw : v ≠ w) (hx : s.workers[v]? = some x) (hbx : x.busy) :
      Function.update text k.segN.toNat bytes x.segN.toNat = text x.segN.toNat :=
    Function.update_of_ne (fun h => segN_ne_of_ne hs hk hb hvw hx hbx (BitVec.eq_of_toNat_eq h)) bytes text
  constructor
  case waiting =>
    intro x hx hg
    obtain rfl | ⟨v, hvw, hv⟩ := mem_set_cases hx
    · exact (Function.update_self (f := text) ..).symm
    · rw [hother hvw hv (by simp [hg])]
      exact hst.waiting x (List.mem_of_getElem? hv) hg
  case passed =>
    intro _ hf hno
    have hsink := hst.passed hc hf (no_turn_before hk (by simp [hphase]) hno)
    exact hsink.trans (congrArg (base ++ ·) hpassed)
  case emitting =>
    intro x hx ht
    obtain rfl | ⟨v, hvw, hv⟩ := mem_set_cases hx
    · simp [Worker.holdsTurn] at ht
    · obtain ⟨out, hout, hsink⟩ := hst.emitting x (List.mem_of_getElem? hv) ht
      exact ⟨out, hout.trans (hother hvw hv (busy_of_holdsTurn ht)).symm,
        hsink.trans (congrArg (base ++ · ++ out) hpassed)⟩
  case failed =>
    intro _ hf
    obtain ⟨out, rest, hrest, hout, hsink⟩ := hst.failed hc hf
    have hne : s.nextTicket.toNat ≠ k.segN.toNat := fun h =>
      absurd (hphase.symm.trans (hfailed hf (BitVec.eq_of_toNat_eq h).symm)) nofun
    exact ⟨out, rest, hrest, hout.trans (Function.update_of_ne hne bytes text).symm,
      hsink.trans (congrArg (base ++ · ++ out) hpassed)⟩

/-- `GATE.WAIT` gives the turn to segment `NEXT_TICKET` between two emissions (R261). -/
theorem streamed_takeGate (hs : s.gateSafe) (hst : s.streamed base text) (hp : s.phase = .parallel)
    (hk : s.workers[w]? = some k) (hphase : k.wphase = .gate) (hfail : s.failFlag = false)
    (hturn : k.segN = s.nextTicket) : (s.setWorker w { k with wphase := .emit }).streamed base text := by
  have hb : k.busy := by simp [hphase]
  have hsink : s.sink = base ++ s.passedText text := by
    refine hst.passed (counting_of_parallel hp) hfail fun x hx => ?_
    obtain rfl | ⟨v, hvw, hv⟩ := mem_cases hk hx
    · simp [hphase]
    · exact not_holdsTurn_of_ne hs hk hb hturn hvw hv
  refine streamed_of_turn hs hst hk hb hturn rfl (by simp) (fun _ => ?_) (fun _ h => absurd (.inl rfl) h) (fun hf => ?_)
  · exact ⟨[], hst.waiting k (List.mem_of_getElem? hk) hphase, hsink.trans (List.append_nil _).symm⟩
  · exact absurd (hfail.symm.trans hf) nofun

section
variable (hs : s.gateSafe) (hst : s.streamed base text) (hk : s.workers[w]? = some k)
include hs hst hk

/-- `GATE.EMIT` with an empty buffer keeps the turn (R262). -/
theorem streamed_drained (hphase : k.wphase = .emit) :
    (s.setWorker w { k with wphase := .pass }).streamed base text := by
  have ht : k.holdsTurn := .inl hphase
  obtain ⟨-, hfail, hturn⟩ := turn_facts hs hk ht
  exact streamed_of_turn hs hst hk (busy_of_holdsTurn ht) hturn rfl (by simp)
    (fun _ => hst.emitting k (List.mem_of_getElem? hk) ht) (fun _ h => absurd (.inr rfl) h)
    (fun hf => absurd (hfail.symm.trans hf) nofun)

/-- `GATE.EMIT` whose byte the sink takes: it leaves the buffer's front for the sink's end (R262). -/
theorem streamed_accepted {b : Byte} {rest : List Byte} (hphase : k.wphase = .emit) (hbuf : k.obuf = b :: rest)
    (more : List SinkAnswer) :
    State.streamed { s.setWorker w { k with obuf := rest } with sink := s.sink ++ [b], sinkAnswers := more } base text := by
  have ht : k.holdsTurn := .inl hphase
  obtain ⟨-, hfail, hturn⟩ := turn_facts hs hk ht
  obtain ⟨out, hout, hsink⟩ := hst.emitting k (List.mem_of_getElem? hk) ht
  refine streamed_of_turn (l := { k with obuf := rest }) hs hst hk (busy_of_holdsTurn ht) hturn rfl (by simp [hphase])
    (fun _ => ⟨out ++ [b], ?_, ?_⟩) (fun _ h => absurd ht h) (fun hf => absurd (hfail.symm.trans hf) nofun)
  · rw [← hout, hbuf, List.append_assoc, List.singleton_append]
  · change s.sink ++ [b] = base ++ s.passedText text ++ (out ++ [b])
    rw [hsink, List.append_assoc _ out]

/-- `GATE.EMIT` whose write fails: the bytes left in the buffer are what the sink lacks of the segment (R262, R271). -/
theorem streamed_failed (hphase : k.wphase = .emit) (hbuf : k.obuf ≠ []) (more : List SinkAnswer) :
    State.streamed { s.setWorker w { k with wphase := .retire } with failFlag := true, sinkAnswers := more } base text := by
  have ht : k.holdsTurn := .inl hphase
  obtain ⟨-, -, hturn⟩ := turn_facts hs hk ht
  obtain ⟨out, hout, hsink⟩ := hst.emitting k (List.mem_of_getElem? hk) ht
  exact streamed_of_turn hs hst hk (busy_of_holdsTurn ht) hturn rfl (by simp) (by simp) nofun
    (fun _ => ⟨out, k.obuf, hbuf, hturn ▸ hout, hsink⟩)

/-- `GATE.PASS`: the segment's bytes have all left, and it is passed (R263). -/
theorem streamed_pass (hp : s.phase = .parallel) (hphase : k.wphase = .pass) :
    State.streamed { s.setWorker w { k with wphase := .idle } with
      nextTicket := narrow 64 (s.nextTicket.toNat + 1), retired := narrow 64 (s.retired.toNat + 1) } base text := by
  have ht : k.holdsTurn := .inr hphase
  obtain ⟨-, hfail, hturn⟩ := turn_facts hs hk ht
  obtain ⟨-, hroom⟩ := nextTicket_room hs (counting_of_parallel hp) hk ht
  obtain ⟨out, hout, hsink⟩ := hst.emitting k (List.mem_of_getElem? hk) ht
  have hempty : k.obuf = [] :=
    hs.emptyBuffers k (List.mem_of_getElem? hk) (by simp [hphase]) (by simp [hphase]) (by simp [hphase])
  rw [hempty, List.append_nil, hturn] at hout
  refine streamed_of_turn (l := { k with wphase := .idle }) hs hst hk (busy_of_holdsTurn ht) hturn rfl (by simp) (by simp)
    (fun _ _ => ?_) (fun hf => absurd (hfail.symm.trans hf) nofun)
  rw [passedText_succ (s := s) hroom, ← hout, ← List.append_assoc]
  exact hsink

end

/-- From `s` to `t` the text of a segment changes only where a worker has run its `AGG.PRINT`, to what that left. -/
def SettlesOnly (s t : State) (text text' : Nat → List Byte) : Prop :=
  ∀ n, text' n = text n ∨
    ∃ (w : Nat) (k l : Worker), s.workers[w]? = some k ∧ t.workers[w]? = some l ∧
      k.wphase = .agg ∧ l.wphase = .gate ∧ n = k.segN.toNat ∧ text' n = l.obuf

theorem SettlesOnly.refl (s t : State) (text : Nat → List Byte) : SettlesOnly s t text text := fun _ => .inl rfl

theorem settlesOnly_print (hk : s.workers[w]? = some k) (hphase : k.wphase = .agg) (text : Nat → List Byte)
    (bytes : List Byte) :
    SettlesOnly s (s.setWorker w { k with obuf := bytes, wphase := .gate }) text
      (Function.update text k.segN.toNat bytes) := by
  intro n
  by_cases hn : n = k.segN.toNat
  · exact .inr ⟨w, k, _, hk, setWorker_self hk _, hphase, rfl, hn, by rw [hn, Function.update_self]⟩
  · exact .inl (Function.update_of_ne hn bytes text)

/-- A worker's move keeps the sink in step. -/
theorem streamed_of_workerMove (hs : s.gateSafe) (hst : s.streamed base text) (hp : s.phase = .parallel)
    (hk : s.workers[w]? = some k) (hm : WorkerMove s w k t) :
    ∃ text' : Nat → List Byte, t.streamed base text' ∧ SettlesOnly s t text text' := by
  have same (h : t.streamed base text) :
      ∃ text' : Nat → List Byte, t.streamed base text' ∧ SettlesOnly s t text text' :=
    ⟨text, h, .refl s t text⟩
  have quiet {l : Worker} := streamed_of_quiet (l := l) hst hk
  cases hm with
  | dispatch hidle _ _ =>
    exact same (quiet (l := { k with segN := s.nextDispatch, wphase := .setup }) (by simp [hidle]) (by simp) (by simp)
      s.acc _ s.retired)
  | compute l hnext hgate _ _ =>
    obtain ⟨⟨-, -, hke, hkp, -⟩, ⟨-, -, hle, hlp, -⟩, -⟩ := workerNext_beforeGate hnext hgate
    exact same (quiet (by simp [hke, hkp]) (by simp [hle, hlp]) hgate s.acc s.nextDispatch s.retired)
  | print bytes hphase hmode =>
    exact ⟨_, streamed_print hs hst hp hk hphase hmode bytes, settlesOnly_print hk hphase text bytes⟩
  | reduce hphase =>
    exact same (quiet (l := { k with wphase := .idle }) (by simp [hphase]) (by simp) (by simp) _ s.nextDispatch _)
  | takeGate hphase hfail hturn => exact same (streamed_takeGate hs hst hp hk hphase hfail hturn)
  | giveUp hphase _ =>
    exact same (quiet (l := { k with wphase := .retire }) (by simp [hphase]) (by simp) (by simp)
      s.acc s.nextDispatch s.retired)
  | drained hphase _ => exact same (streamed_drained hs hst hk hphase)
  | accepted b rest more hphase hbuf => exact same (streamed_accepted hs hst hk hphase hbuf more)
  | failed more hphase hbuf => exact same (streamed_failed hs hst hk hphase hbuf more)
  | pass hphase => exact same (streamed_pass hs hst hk hp hphase)
  | drop hphase =>
    exact same (quiet (l := { k with wphase := .idle, obuf := [] }) (by simp [hphase]) (by simp) (by simp)
      s.acc s.nextDispatch _)

/-! ## Every move -/

theorem streamed_of_keep (hst : s.streamed base text) (same : SameRegion s t)
    (hcount : t.phase.counting → s.phase.counting) : t.streamed base text := by
  obtain ⟨hw, -, -, -, -, ht, hf, hsink⟩ := same
  have hpassed : t.passedText text = s.passedText text := by rw [State.passedText, ht, State.passedText]
  constructor
  case waiting => exact hw ▸ hst.waiting
  case passed => rw [hw, hf, hsink, hpassed]; exact fun hc => hst.passed (hcount hc)
  case emitting => rw [hw, hsink, hpassed]; exact hst.emitting
  case failed => rw [hf, ht, hsink, hpassed]; exact fun hc => hst.failed (hcount hc)

/-- `SCH.CONFIG` starts the count with nothing passed: what the sink holds is the job's base (R241). -/
theorem streamed_start (hs : s.gateSafe) (hp : s.phase = .config) (text : Nat → List Byte) :
    s.configSized.configDone.streamed s.sink text where
  waiting k hk hg := absurd ((hs.idleOutside (by simp [hp]) k hk).symm.trans hg) nofun
  passed _ _ _ := (List.append_nil _).symm
  emitting k hk ht := absurd ht (not_holdsTurn_of_idle (hs.idleOutside (by simp [hp]) k hk))
  failed _ := nofun

/-- Every step of the host or an agent keeps the sink in step, and a job that counts keeps its base. -/
theorem streamed_of_move (hs : s.gateSafe) (hst : s.streamed base text) (hm : RegionMove s t) :
    ∃ (base' : List Byte) (text' : Nat → List Byte), t.streamed base' text' ∧ (s.phase.counting → base' = base) ∧
      SettlesOnly s t text text' := by
  have same (h : t.streamed base text) : ∃ (base' : List Byte) (text' : Nat → List Byte), t.streamed base' text' ∧
      (s.phase.counting → base' = base) ∧ SettlesOnly s t text text' :=
    ⟨base, text, h, fun _ => rfl, .refl s t text⟩
  cases hm with
  | worker w k hk hp hm =>
    obtain ⟨text', hst', htext⟩ := streamed_of_workerMove hs hst hp hk hm
    exact ⟨base, text', hst', fun _ => rfl, htext⟩
  | keep h hcount _ => exact same (streamed_of_keep hst h hcount)
  | start hp ht =>
    have hnot : ¬ s.phase.counting := by simp [hp, Phase.counting]
    exact ⟨s.sink, text, ht ▸ streamed_start hs hp text, fun hc => absurd hc hnot, .refl s t text⟩
  | rest hp hcount hw =>
    have hidle : ∀ k ∈ t.workers, k.wphase = .idle := hw ▸ hs.idleOutside hp
    exact same (streamed_of_rest hcount hidle base text)
  | reset ht =>
    have hidle : ∀ k ∈ t.workers, k.wphase = .idle := (ht ▸ gateSafe_reset s).idleOutside (by simp [ht])
    exact same (streamed_of_rest (by simp [ht, Phase.counting]) hidle base text)

end

/-! ## The statement -/

/-- Ready to join a print job without failure, every segment is passed (R266). -/
theorem sink_of_joinReady {s : State} {base : List Byte} {text : Nat → List Byte} (hs : s.gateSafe)
    (hst : s.streamed base text) (hp : s.phase = .parallel) (hj : s.joinReady = true) (hf : s.failFlag = false)
    (hm : s.jMode = 2) : s.sink = base ++ (List.range s.numSegments.toNat).flatMap text := by
  have hc := counting_of_parallel hp
  have hidle := idle_of_joinReady hj
  have hall : s.nextDispatch = s.numSegments := by simpa [State.joinReady, hf] using (Bool.and_eq_true_iff.mp hj).2
  obtain ⟨hret, -⟩ := hs.retiredCount hc
  rw [busyCount_eq_zero hidle, Nat.add_zero, ← hs.ticketRetired hc hm hf, hall] at hret
  have hsink := hst.passed hc hf fun k hk => not_holdsTurn_of_idle (hidle k hk)
  rwa [State.passedText, hret] at hsink

/-- Settles O59: every step is a move of the region, and each move keeps both invariants. -/
theorem stepKeepsTheGateSafe : Obligations.StepKeepsTheGateSafe := by
  unfold Obligations.StepKeepsTheGateSafe
  refine ⟨?gate, ?turn, ?sink, fun s base text hs hst hp hj hf hm => sink_of_joinReady hs hst hp hj hf hm⟩
  case gate =>
    intro s t hw hf hs h
    obtain ⟨es, n, hm⟩ := step_move hw hf h
    exact gateSafe_of_move (gateSafe_withEvents hs es n) hm
  case turn =>
    intro s v w k l hs hk hl hkt hlt
    obtain ⟨-, -, hseg⟩ := turn_facts hs hk hkt
    obtain ⟨-, -, hseg'⟩ := turn_facts hs hl hlt
    exact hs.distinct v w k l hk hl (busy_of_holdsTurn hkt) (busy_of_holdsTurn hlt) (hseg.trans hseg'.symm)
  case sink =>
    intro s t base text hw hf hs hst h
    obtain ⟨es, n, hm⟩ := step_move hw hf h
    have hst' : State.streamed { s with events := es, turns := n } base text :=
      streamed_of_keep hst (by constructor <;> rfl) id
    have hmove := streamed_of_move (gateSafe_withEvents hs es n) hst' hm
    exact hmove

end Sys2Proof.Proofs
end

section
/-! The unit codes of R95: the decoder and the machine refuse every other code, and the sequencers issue none (R98). -/

namespace Sys2Proof.Proofs

open Sys2Proof.Machine

/-! ## The decoder and the machine -/

/-- The decoder answers an operation on the codes of R95 and refuses every other code by name. -/
theorem decodeUnit_cases (code : Byte) (k : Wires) :
    (code.toNat ∈ unitCodes ∧ ∃ i, decodeUnit code k = .ok i) ∨
    (code.toNat ∉ unitCodes ∧ decodeUnit code k = .error (.unassignedCode code)) := by
  unfold decodeUnit
  split
  -- the decoder's last arm, for a code that is none of the 36 listed
  case h_37 =>
    refine .inr ⟨?_, rfl⟩
    simp only [unitCodes, List.mem_cons, List.not_mem_nil, or_false, not_or]
    and_intros <;> assumption
  all_goals
    next hcode => exact .inl ⟨by rw [hcode]; decide, _, rfl⟩

theorem decodeUnit_of_mem {code : Byte} (h : code.toNat ∈ unitCodes) (k : Wires) :
    ∃ i, decodeUnit code k = .ok i := by
  obtain ⟨-, hok⟩ | ⟨hn, -⟩ := decodeUnit_cases code k
  · exact hok
  · exact absurd h hn

theorem decodeUnit_of_not_mem {code : Byte} (h : code.toNat ∉ unitCodes) (k : Wires) :
    decodeUnit code k = .error (.unassignedCode code) := by
  obtain ⟨hm, -⟩ | ⟨-, herr⟩ := decodeUnit_cases code k
  · exact absurd hm h
  · exact herr

/-- The machine refuses, in every state, a unit code that its decoder refuses. -/
theorem runCommand_of_unassigned {code : Byte} {k : Wires} (h : decodeUnit code k = .error (.unassignedCode code))
    (s : State) : runCommand (.unit code k) s = .refused (.unassignedCode code) := by
  simp [runCommand, decode, h]

/-! ## The sequencers -/

theorem controllerCode_mem_unitCodes {p : Phase} {c : Nat} (h : controllerCode p = some c) : c ∈ unitCodes := by
  cases p with
  | idle | parallel | done | failed => cases h
  | check | config | oracle | template | join => cases h; decide

/-- In `W_AGG` the code is that of the mode's aggregation, and the reserved mode has none. -/
theorem workerCode_agg_cases {m : BitVec 2} {c : Nat} (h : workerCode .agg m = some c) :
    c = 0x60 ∨ c = 0x61 ∨ c = 0x62 := by
  simp only [workerCode] at h
  split at h
  · exact .inl (Option.some.inj h).symm
  · exact .inr (.inl (Option.some.inj h).symm)
  · exact .inr (.inr (Option.some.inj h).symm)
  · cases h

theorem workerCode_mem_unitCodes {p : WPhase} {m : BitVec 2} {c : Nat} (h : workerCode p m = some c) :
    c ∈ unitCodes := by
  cases p with
  | idle => cases h
  | agg => obtain rfl | rfl | rfl := workerCode_agg_cases h <;> decide
  | setup | copy | clip | sieve | reduce | gate | emit | pass | retire => cases h; decide

/-! ## The statement -/

/-- Settles O2: the decoder by its cases, the machine through the decoder, and the sequencers phase by phase. -/
theorem unassignedUnitCodesAreRefused : Obligations.UnassignedUnitCodesAreRefused := by
  unfold Obligations.UnassignedUnitCodesAreRefused
  refine ⟨fun code k hn => ?refused, fun _ k hm => decodeUnit_of_mem hm k, fun _ _ => controllerCode_mem_unitCodes,
    fun _ _ _ => workerCode_mem_unitCodes⟩
  case refused =>
    have herr := decodeUnit_of_not_mem hn k
    exact ⟨herr, runCommand_of_unassigned herr⟩

end Sys2Proof.Proofs
end

section
/-! Filling, reading and clearing a bitset (R121, R122, R124): each operation as a function of the named bitset. The bits
of a canonical bitset determine it, so clears of one bitset are idempotent and commute. -/

namespace Sys2Proof.Proofs

open Sys2Proof.Machine Sys2Proof.Laws

/-! ## Canonical memories and bitsets are determined by what they read -/

theorem mem_iff_read {m : Memory} (h : Memory.wf m) (c : Host.Cell) : c ∈ m ↔ Memory.read m c.1 = c.2 ∧ c.2 ≠ 0 := by
  constructor
  · intro hc
    exact ⟨read_eq_of_mem h hc, h.2 c hc⟩
  · rintro ⟨hr, hne⟩
    have hmem : (c.1, Memory.read m c.1) ∈ m := read_ne_zero_mem (by rwa [hr])
    rwa [hr] at hmem

theorem memory_eq_of_read {m m' : Memory} (h : Memory.wf m) (h' : Memory.wf m')
    (hr : ∀ b, Memory.read m b = Memory.read m' b) : m = m' := by
  have nodup : ∀ {l : Memory}, Memory.wf l → l.Nodup := fun hl =>
    hl.1.imp fun hlt heq => absurd hlt (by simp [heq])
  have hperm : m.Perm m' := (List.perm_ext_iff_of_nodup (nodup h) (nodup h')).mpr fun c => by
    rw [mem_iff_read h, mem_iff_read h', hr]
  exact hperm.eq_of_pairwise (fun c d _ _ hcd hdc => absurd hcd (Nat.lt_asymm hdc)) h.1 h'.1

theorem byte_eq_of_bit {X Y : Bitset} (hbit : ∀ p, X.bit p = Y.bit p) (b : Nat) : X.byte b = Y.byte b :=
  BitVec.eq_of_getLsbD_eq fun r hr => by rw [byte_getLsbD hr, byte_getLsbD hr, hbit]

/-- A canonical bitset is its length and its bits (R63, R64). -/
theorem bitset_eq_of_bit {X Y : Bitset} (hX : X.wf) (hY : Y.wf) (hn : X.n = Y.n) (hbit : ∀ p, X.bit p = Y.bit p) :
    X = Y := by
  have hmem : X.mem = Y.mem := memory_eq_of_read hX.1 hY.1 fun b => by
    rw [read_eq_byte hX, read_eq_byte hY, byte_eq_of_bit hbit]
  cases X
  cases Y
  simp only [Bitset.mk.injEq]
  exact ⟨hn, hmem⟩

/-! ## Writing a bit twice -/

/-- Writing the bit that stands there changes nothing. -/
theorem bitWrite_of_bit_eq {X : Bitset} {p : Nat} {x : Bool} (hX : X.wf) (hp : p < X.n.toNat) (hx : X.bit p = x) :
    X.bitWrite p x = .next X := by
  obtain ⟨Y, hY⟩ := bitWrite_of_lt (x := x) hp
  have hYX : Y = X := bitset_eq_of_bit (bitWrite_wf hX hY) hX (bitWrite_n hY) fun q => by
    rw [bitWrite_bit hX.1 hY]
    split
    · next hq => rw [hq, hx]
    · rfl
  rw [hY, hYX]

/-- Writes of one value commute. -/
theorem bitWrite_bind_comm {X : Bitset} {p q : Nat} {x : Bool} (hX : X.wf) (hp : p < X.n.toNat)
    (hq : q < X.n.toNat) :
    (X.bitWrite p x).bind (·.bitWrite q x) = (X.bitWrite q x).bind (·.bitWrite p x) := by
  obtain ⟨P, hP⟩ := bitWrite_of_lt (x := x) hp
  obtain ⟨Q, hQ⟩ := bitWrite_of_lt (x := x) hq
  have hPn := bitWrite_n hP
  have hQn := bitWrite_n hQ
  have hPw := bitWrite_wf hX hP
  have hQw := bitWrite_wf hX hQ
  obtain ⟨Y, hY⟩ := bitWrite_of_lt (X := P) (p := q) (x := x) (by rwa [hPn])
  obtain ⟨Z, hZ⟩ := bitWrite_of_lt (X := Q) (p := p) (x := x) (by rwa [hQn])
  have hYZ : Y = Z := by
    refine bitset_eq_of_bit (bitWrite_wf hPw hY) (bitWrite_wf hQw hZ) ?_ fun r => ?_
    · rw [bitWrite_n hY, bitWrite_n hZ, hPn, hQn]
    · rw [bitWrite_bit hPw.1 hY, bitWrite_bit hQw.1 hZ, bitWrite_bit hX.1 hP, bitWrite_bit hX.1 hQ]
      split_ifs <;> rfl
  rw [hP, hQ, bind_next, bind_next, hY, hZ, hYZ]

/-! ## The named bitset replaced -/

theorem putBitset_of_bitset {s : State} {X : BitsetId} {B : Bitset} (h : s.bitset? X = some B) :
    s.putBitset X B = s := by
  cases X with
  | spt | pst => cases h; rfl
  | sb w =>
    obtain ⟨k, hk, rfl⟩ := Option.map_eq_some_iff.mp h
    have hself : s.workers.modify w (fun l => { l with sb := k.sb }) = s.workers := by
      refine List.ext_getElem? fun v => ?_
      rw [modify_worker]
      cases hv : s.workers[v]? with
      | none => rfl
      | some l =>
        by_cases hwv : w = v
        · subst hwv
          cases hk.symm.trans hv
          simp
        · simp [hwv]
    simp only [State.putBitset, hself]

theorem putBitset_putBitset (s : State) (X : BitsetId) (B C : Bitset) :
    (s.putBitset X B).putBitset X C = s.putBitset X C := by
  cases X with
  | spt | pst => rfl
  | sb w => simp [State.putBitset, List.modify_modify_eq, Function.comp_def]

theorem onlyBitset_putBitset {s : State} {X : BitsetId} {B : Bitset} (h : s.bitset? X = some B) (C : Bitset) :
    s.onlyBitset (s.putBitset X C) X C :=
  ⟨rfl, putBitset_self h C, fun _ hY => putBitset_other s hY.symm C⟩

/-! ## The operations -/

section
variable {s : State} {X : BitsetId} {B : Bitset}

theorem exec_bsFill_of_le {n : Word} (h : s.bitset? X = some B) (h1 : 1 ≤ n.toNat) (hcap : n.toNat ≤ s.capacity X) :
    exec (.bsFill X n) s = .next (s.putBitset X (Bitset.filled n)) := by
  have hfill : Bitset.fill (s.capacity X) n.toNat = .next (Bitset.filled n) :=
    fill_eq_next.mpr ⟨⟨h1, hcap, n.isLt⟩, by rw [BitVec.ofNat_toNat, BitVec.setWidth_eq]⟩
  change execBsFill X n s = _
  rw [execBsFill, withBitset_of_some h, hfill, bind_next]

theorem exec_bsGet_of_lt {p : Word} (h : s.bitset? X = some B) (hp : p.toNat < B.n.toNat) :
    exec (.bsGet X p) s = .next (s.returns [bitWord (B.bit p.toNat)]) := by
  change execBsGet X p s = _
  rw [execBsGet, withBitset_of_some h, bitRead_of_lt hp, bind_next]

theorem exec_bsClr_of_bitset (h : s.bitset? X = some B) (p : Word) :
    exec (.bsClr X p) s = (B.bitWrite p.toNat false).bind fun C => .next (s.putBitset X C) := by
  change execBsClr X p s = _
  rw [execBsClr, withBitset_of_some h]

/-- Two clears of one bitset are two writes to it. -/
theorem runOps_bsClr_bsClr (h : s.bitset? X = some B) (p q : Word) :
    runOps [.bsClr X p, .bsClr X q] s =
      ((B.bitWrite p.toNat false).bind (·.bitWrite q.toNat false)).bind fun C => .next (s.putBitset X C) := by
  simp only [runOps, exec_bsClr_of_bitset h]
  cases B.bitWrite p.toNat false with
  | fault | refused => rfl
  | next P =>
    simp only [bind_next, exec_bsClr_of_bitset (putBitset_self h P), putBitset_putBitset]
    cases P.bitWrite q.toNat false <;> rfl

end

/-! ## The statements -/

/-- Settles O10: `BS.FILL` puts `Bitset.filled n`, whose bits are all set but position 0. -/
theorem fillSetsAllButPositionZero : Obligations.FillSetsAllButPositionZero := by
  unfold Obligations.FillSetsAllButPositionZero
  refine ⟨fun _ => rfl, fun s X n B hB h1 hcap => ?_⟩
  refine ⟨_, Bitset.filled n, exec_bsFill_of_le hB h1 hcap, onlyBitset_putBitset hB _, filled_wf n, filled_n n, ?_,
    fun p hp hpn => ?_⟩
  · simp [filled_bit]
  · simp only [filled_bit, decide_eq_true_eq]
    omega

/-- Settles O11: the position is one of the bitset's, so its bit is read. -/
theorem getReturnsTheBit : Obligations.GetReturnsTheBit := by
  unfold Obligations.GetReturnsTheBit
  exact ⟨fun _ => rfl, fun _ _ _ _ hB hp => exec_bsGet_of_lt hB hp⟩

/-- Settles O13: a clear is one bit write; a write of the bit that stands there changes nothing, and writes of one
value commute. -/
theorem clearTurnsOffOnePositionAndCommutes : Obligations.ClearTurnsOffOnePositionAndCommutes := by
  unfold Obligations.ClearTurnsOffOnePositionAndCommutes
  refine ⟨fun _ => rfl, fun s X p B hB hw hp => ⟨?clears, fun hclear => ?idempotent, fun q hq => ?commutes⟩⟩
  case clears =>
    obtain ⟨C, hC⟩ := bitWrite_of_lt (x := false) hp
    exact ⟨s.putBitset X C, C, by rw [exec_bsClr_of_bitset hB, hC, bind_next], onlyBitset_putBitset hB C,
      bitWrite_wf hw hC, bitWrite_n hC, bitWrite_bit hw.1 hC⟩
  case idempotent =>
    rw [exec_bsClr_of_bitset hB, bitWrite_of_bit_eq hw hp hclear, bind_next, putBitset_of_bitset hB]
  case commutes =>
    rw [runOps_bsClr_bsClr hB, runOps_bsClr_bsClr hB, bitWrite_bind_comm hw hp hq]

end Sys2Proof.Proofs
end

section
/-! The population count (R127): the sum over the listed bytes, the sum over all bytes, and the number of set positions
are one number. -/

namespace Sys2Proof.Proofs

open Sys2Proof.Machine Sys2Proof.Laws

/-! ## Positions, byte by byte -/

theorem countP_range_of_le {f : Nat → Bool} {n m : Nat} (hnm : n ≤ m) (hf : ∀ p, n ≤ p → f p = false) :
    (List.range m).countP f = (List.range n).countP f := by
  obtain ⟨k, rfl⟩ := Nat.exists_eq_add_of_le hnm
  have hnone : (List.range k).countP (f ∘ (n + ·)) = 0 := by simp [List.countP_eq_zero, hf]
  rw [List.range_add, List.countP_append, List.countP_map, hnone, Nat.add_zero]

theorem countP_range_eight_mul (f : Nat → Bool) (k : Nat) :
    (List.range (8 * k)).countP f = ∑ b ∈ Finset.range k, (List.range 8).countP fun r => f (8 * b + r) := by
  induction k with
  | zero => rfl
  | succ k ih =>
    rw [Nat.mul_succ, List.range_add, List.countP_append, List.countP_map, Finset.sum_range_succ, ih]
    rfl

/-- The set positions, counted byte by byte. -/
theorem ones_eq_sum (X : Bitset) :
    X.ones = ∑ b ∈ Finset.range (bytesFor X.n.toNat), (List.range 8).countP fun r => (X.byte b).getLsbD r := by
  have hbytes : X.n.toNat ≤ 8 * bytesFor X.n.toNat := by unfold bytesFor; omega
  rw [Bitset.ones, ← countP_range_of_le hbytes fun p hp => bit_of_ge hp, countP_range_eight_mul]
  refine Finset.sum_congr rfl fun b _ => List.countP_congr fun r hr => ?_
  rw [byte_getLsbD (List.mem_range.mp hr)]

theorem ones_le (X : Bitset) : X.ones ≤ X.n.toNat :=
  List.countP_le_length.trans_eq List.length_range

theorem ones_lt (X : Bitset) : X.ones < 2 ^ 64 :=
  Nat.lt_of_le_of_lt (ones_le X) X.n.isLt

theorem ones_le_pred {X : Bitset} (h0 : X.bit 0 = false) : X.ones ≤ X.n.toNat - 1 := by
  unfold Bitset.ones
  cases X.n.toNat with
  | zero => rfl
  | succ m =>
    rw [List.range_succ_eq_map, List.countP_cons_of_neg (by simp [h0])]
    exact List.countP_le_length.trans_eq (by simp)

/-! ## The listed bytes -/

theorem popcount8_eq_countP (v : Byte) : popcount8 v = (List.range 8).countP fun r => v.getLsbD r := by
  simp only [popcount8, List.range_succ, List.countP_append, List.countP_singleton, Bool.toNat, Bool.cond_eq_ite]
  simp

/-- The count over the listed bytes is the count over all bytes below a bound on their indices. -/
theorem popcountFrom_eq_sum {n k : Nat} {m : Memory} (hm : Memory.wf m) (hk : ∀ c ∈ m, c.1 < k) (c : Nat) :
    popcountFrom n m c = c + ∑ b ∈ Finset.range k, popcount8 (Memory.read m b &&& cellMask n b) := by
  induction m generalizing c with
  | nil => simp [popcountFrom, Memory.read, popcount8]
  | cons d m ih =>
    obtain ⟨habove, -, hwf⟩ := wf_cons.mp hm
    obtain ⟨hd, hrest⟩ := List.forall_mem_cons.mp hk
    have hsplit : ∀ b, popcount8 (Memory.read (d :: m) b &&& cellMask n b) =
        (if d.1 = b then popcount8 (d.2 &&& cellMask n d.1) else 0) +
          popcount8 (Memory.read m b &&& cellMask n b) := by
      intro b
      rw [Memory.read]
      split
      · next hb => subst hb; simp [read_of_above habove, popcount8]
      · rw [Nat.zero_add]
    rw [popcountFrom, ih hwf hrest, Finset.sum_congr rfl fun b _ => hsplit b, Finset.sum_add_distrib,
      Finset.sum_ite_eq, if_pos (Finset.mem_range.mpr hd), Nat.add_assoc]

/-- `BS.POPCNT`'s byte form counts the set positions. -/
theorem popcount_eq_ones {X : Bitset} (hX : X.wf) : X.popcount = X.ones := by
  rw [Bitset.popcount, popcountFrom_eq_sum hX.1 (fun c hc => (hX.2 c hc).1), Nat.zero_add, ones_eq_sum]
  exact Finset.sum_congr rfl fun b _ => popcount8_eq_countP (X.byte b)

/-! ## The statement -/

theorem exec_bsPopcnt_of_wf {s : State} {X : BitsetId} {B : Bitset} (h : s.bitset? X = some B) (hw : B.wf) :
    exec (.bsPopcnt X) s = .next (s.returns [BitVec.ofNat 64 B.ones]) := by
  change execBsPopcnt X s = _
  rw [execBsPopcnt, withBitset_of_some h, popcount_eq_ones hw, narrow_of_lt (ones_lt B)]

/-- Settles O17: the returned byte form is the number of set positions, and that number is the sum over the bytes. -/
theorem popcountCountsTheSetPositions : Obligations.PopcountCountsTheSetPositions := by
  unfold Obligations.PopcountCountsTheSetPositions
  refine ⟨fun _ => rfl, fun s X B hB hw => ⟨exec_bsPopcnt_of_wf hB hw, ones_lt B, ones_le_pred, ?bytes⟩⟩
  case bytes => exact ones_eq_sum B -- a `Finset.range` sum is by definition the list's

end Sys2Proof.Proofs
end

section
/-! The wheel codec and the marking recurrence (R142 to R154): each marker operation as a function of the named marker
set, what one advance, one stride and one seek compute, and the closed form of the recurrence by induction over the runs
of `WM.NEXT`. -/

namespace Sys2Proof.Proofs

open Sys2Proof.Machine Sys2Proof.Laws

/-! ## The named marker set replaced -/

section
variable {s : State} {M : MarkerId} {m : Marker}

/-- Putting back the marker set that stands there changes nothing. -/
theorem putMarker_of_marker (h : s.marker? M = some m) : s.putMarker M m = s := by
  cases M with
  | cm => cases h; rfl
  | m w =>
    obtain ⟨k, hk, rfl⟩ := Option.map_eq_some_iff.mp h
    have hself : s.workers.modify w (fun l => { l with m := k.m }) = s.workers := by
      refine List.ext_getElem? fun v => ?_
      rw [modify_worker]
      by_cases hwv : w = v
      · subst hwv
        simp [hk]
      · simp [hwv]
    simp only [State.putMarker, hself]

theorem putMarker_putMarker (s : State) (M : MarkerId) (m n : Marker) :
    (s.putMarker M m).putMarker M n = s.putMarker M n := by
  cases M with
  | cm => rfl
  | m w => simp [State.putMarker, List.modify_modify_eq, Function.comp_def]

theorem putMarker_returns (s : State) (M : MarkerId) (m : Marker) (vs : List Word) :
    (s.putMarker M m).returns vs = (s.returns vs).putMarker M m := by
  cases M <;> rfl

@[simp] theorem returns_marker (s : State) (vs : List Word) (M : MarkerId) :
    (s.returns vs).marker? M = s.marker? M := by
  cases M <;> rfl

theorem onlyMarker_putMarker (h : s.marker? M = some m) (n : Marker) : s.onlyMarker (s.putMarker M n) M n :=
  ⟨rfl, putMarker_self h n, fun _ hN => putMarker_other s hN.symm n, putMarker_bitset s M n⟩

/-! ## The operations -/

theorem exec_wmInit_of_marker (h : s.marker? M = some m) : exec (.wmInit M) s = .next (s.putMarker M m.init) := by
  change execWmInit M s = _
  rw [execWmInit, withMarker_of_some h]

theorem exec_wmNext_of_marker (h : s.marker? M = some m) :
    exec (.wmNext M) s =
      .next ((s.returns [m.i.setWidth 64, m.advance.j, m.advance.ij]).putMarker M m.advance) := by
  change execWmNext M s = _
  rw [execWmNext, withMarker_of_some h, putMarker_returns]

theorem exec_wmStep_of_marker (h : s.marker? M = some m) : exec (.wmStep M) s = .next (s.putMarker M m.stride) := by
  change execWmStep M s = _
  rw [execWmStep, withMarker_of_some h]

theorem exec_wmSeek_of_marker (h : s.marker? M = some m) (joff : Word) :
    exec (.wmSeek M joff) s = .next (s.putMarker M (m.seek joff.toNat)) := by
  change execWmSeek M joff s = _
  rw [execWmSeek, withMarker_of_some h]

theorem exec_wmLoad_of_worker {w : Nat} {k : Worker} (h : s.workers[w]? = some k) :
    exec (.wmLoad w) s = .next (s.setWorker w { k with m := k.m.load s.ri s.rc s.rk s.rt }) := by
  change execWmLoad w s = _
  rw [execWmLoad, withWorker_of_some h]

/-- Two strides of one marker set are one replacement of it. -/
theorem runOps_wmStep_wmStep (h : s.marker? M = some m) :
    runOps [.wmStep M, .wmStep M] s = .next (s.putMarker M m.stride.stride) := by
  simp only [runOps, exec_wmStep_of_marker h, bind_next, exec_wmStep_of_marker (putMarker_self h m.stride),
    putMarker_putMarker]

/-- `WM.NEXT` run `i` times advances the marker set `i` times. -/
theorem runOps_replicate_wmNext (i : Nat) (h : s.marker? M = some m) :
    ∃ t : State, runOps (List.replicate i (.wmNext M)) s = .next t ∧ t.marker? M = some (Marker.advance^[i] m) := by
  induction i generalizing s m with
  | zero => exact ⟨s, rfl, h⟩
  | succ i ih =>
    obtain ⟨t, ht, htM⟩ := ih (putMarker_self ((returns_marker s _ M).trans h) m.advance)
    exact ⟨t, by rw [List.replicate_succ, runOps, exec_wmNext_of_marker h, bind_next, ht], htM⟩

end

/-! ## What one advance computes (R147) -/

/-- A result known to be a natural number that fits its register. -/
theorem narrow_toNat_of_eq {w n : Nat} {v : Int} (hv : v = n) (h : n < 2 ^ w) : (narrow w v).toNat = n := by
  rw [hv, narrow_toNat h]

section
variable {m : Marker}

theorem advance_i_toNat (h : m.i.toNat + 1 < 2 ^ 32) : m.advance.i.toNat = m.i.toNat + 1 :=
  narrow_toNat_of_eq (by push_cast; rfl) h

theorem advance_k_toNat (m : Marker) : m.advance.k.toNat = 3 - m.k.toNat := by
  rw [advance_k, BitVec.toNat_ofNat]
  omega

theorem advance_c_toNat (h : m.c.toNat + 4 * (3 - m.k.toNat) * m.i.toNat < 2 ^ 64) :
    m.advance.c.toNat = m.c.toNat + 4 * (3 - m.k.toNat) * m.i.toNat :=
  narrow_toNat_of_eq (by push_cast; rfl) h

theorem advance_t_toNat (h : m.t.toNat + 4 * (3 - m.k.toNat) < 2 ^ 64) :
    m.advance.t.toNat = m.t.toNat + 4 * (3 - m.k.toNat) :=
  narrow_toNat_of_eq (by push_cast; rfl) h

/-- The stride of a 32-bit index always fits. -/
theorem advance_ij_toNat (m : Marker) : m.advance.ij.toNat = 2 * m.i.toNat * m.k.toNat + 1 := by
  have hk := m.k.isLt
  have hik : m.i.toNat * m.k.toNat ≤ 2 ^ 32 * 3 := Nat.mul_le_mul m.i.isLt.le (by omega)
  have hold : (3 : Int) - (3 - m.k.toNat : Nat) = m.k.toNat := by omega
  refine narrow_toNat_of_eq ?_ (by rw [Nat.mul_assoc]; omega)
  rw [hold]
  push_cast
  rfl

end

/-! ## What one stride and one seek compute (R149, R151) -/

theorem narrow_add_of_lt {w : Nat} {a b : BitVec w} (h : a.toNat + b.toNat < 2 ^ w) :
    narrow w ((a.toNat : Int) + b.toNat) = a + b := by
  refine BitVec.eq_of_toNat_eq ?_
  rw [narrow_toNat_of_eq (by push_cast; rfl) h, BitVec.toNat_add_of_lt h]

theorem narrow_sub_of_le {w : Nat} {a b : BitVec w} (h : b.toNat ≤ a.toNat) :
    narrow w ((a.toNat : Int) - b.toNat) = a - b := by
  refine BitVec.eq_of_toNat_eq ?_
  rw [narrow_sub_toNat h a.isLt, BitVec.toNat_sub_of_le h]

section
variable {m : Marker}

theorem stride_eq (hij : m.ij.toNat ≤ m.t.toNat) (hj : m.j.toNat + m.ij.toNat < 2 ^ 64) :
    m.stride = { m with j := m.j + m.ij, ij := m.t - m.ij } := by
  rw [Marker.stride, narrow_add_of_lt hj, narrow_sub_of_le hij]

/-- Two strides make up `MT` and restore the first. -/
theorem stride_stride_eq (hij : m.ij.toNat ≤ m.t.toNat) (hj : m.j.toNat + m.t.toNat < 2 ^ 64) :
    m.stride.stride = { m with j := m.j + m.t } := by
  have hij' : (m.t - m.ij).toNat = m.t.toNat - m.ij.toNat := BitVec.toNat_sub_of_le hij
  have hj' : (m.j + m.ij).toNat = m.j.toNat + m.ij.toNat := BitVec.toNat_add_of_lt (by omega)
  rw [stride_eq hij (by omega), stride_eq (by dsimp only; omega) (by dsimp only; omega)]
  simp only [Marker.mk.injEq, true_and]
  exact ⟨by rw [BitVec.add_assoc, BitVec.add_comm m.ij, BitVec.sub_add_cancel], sub_sub_cancel _ _⟩

/-- Where the first jump of `WM.SEEK` lands (R151). -/
def firstJump (m : Marker) (joff : Nat) : Nat :=
  m.j.toNat + (joff - m.j.toNat) / m.t.toNat * m.t.toNat + m.ij.toNat

section
variable {joff : Nat}

/-- The first jump passes the offset by at most one stride. -/
theorem firstJump_le (hle : m.j.toNat ≤ joff) : firstJump m joff ≤ joff + m.ij.toNat := by
  have := Nat.div_mul_le_self (joff - m.j.toNat) m.t.toNat
  unfold firstJump
  omega

theorem jump_j_toNat (hle : m.j.toNat ≤ joff) (hfit : firstJump m joff < 2 ^ 64) :
    (m.jump joff).j.toNat = firstJump m joff :=
  narrow_toNat_of_eq (by simp only [firstJump]; push_cast [hle]; rfl) hfit

theorem jump_ij (hij : m.ij.toNat ≤ m.t.toNat) : (m.jump joff).ij = m.t - m.ij :=
  narrow_sub_of_le hij

theorem jump_eq (hle : m.j.toNat ≤ joff) (hij : m.ij.toNat ≤ m.t.toNat) (hfit : firstJump m joff < 2 ^ 64) :
    m.jump joff = { m with j := BitVec.ofNat 64 (firstJump m joff), ij := m.t - m.ij } := by
  rw [← jump_j_toNat hle hfit, BitVec.ofNat_toNat, BitVec.setWidth_eq, ← jump_ij (joff := joff) hij]
  rfl

theorem seek_of_le (h : joff ≤ m.j.toNat) : m.seek joff = m :=
  if_neg (Nat.not_lt.mpr h)

theorem seek_of_lt (h : m.j.toNat < joff) :
    m.seek joff = if (m.jump joff).j.toNat < joff then (m.jump joff).stride else m.jump joff :=
  if_pos h

/-- One jump is enough where it lands at or above the offset. -/
theorem seek_of_firstJump_ge (hij : m.ij.toNat ≤ m.t.toNat) (hb : joff + m.t.toNat < 2 ^ 64)
    (h : m.j.toNat < joff) (hge : joff ≤ firstJump m joff) :
    m.seek joff = { m with j := BitVec.ofNat 64 (firstJump m joff), ij := m.t - m.ij } := by
  have hle := firstJump_le h.le
  have hfit : firstJump m joff < 2 ^ 64 := by omega
  rw [seek_of_lt h, jump_j_toNat h.le hfit, if_neg (by omega), jump_eq h.le hij hfit]

/-- Else the second jump adds the other stride and restores the first. -/
theorem seek_of_firstJump_lt (hij : m.ij.toNat ≤ m.t.toNat) (hb : joff + m.t.toNat < 2 ^ 64)
    (h : m.j.toNat < joff) (hlt : firstJump m joff < joff) :
    m.seek joff = { m with j := BitVec.ofNat 64 (firstJump m joff + (m.t.toNat - m.ij.toNat)) } := by
  have hfit : firstJump m joff < 2 ^ 64 := by omega
  have hj := jump_j_toNat h.le hfit
  have hother : (m.t - m.ij).toNat = m.t.toNat - m.ij.toNat := BitVec.toNat_sub_of_le hij
  have hstride : (m.jump joff).ij.toNat = m.t.toNat - m.ij.toNat := by rw [jump_ij hij, hother]
  have hsecond := stride_eq (m := m.jump joff) (hstride.trans_le (Nat.sub_le _ _)) (by omega)
  rw [seek_of_lt h, hj, if_pos hlt, hsecond, jump_eq h.le hij hfit]
  simp only [Marker.mk.injEq, true_and]
  exact ⟨by rw [BitVec.ofNat_add, ← hother, BitVec.ofNat_toNat, BitVec.setWidth_eq], sub_sub_cancel _ _⟩

end

end

/-! ## The closed form of the recurrence (R148) -/

/-- The marker set after `WM.INIT` and `i` times `WM.NEXT`: `3·MC + 1` is the square of the integer of `i`, `MT`
twice that integer (R148). -/
structure AfterIndex (i : Nat) (m : Marker) : Prop where
  index  : m.i.toNat = i + 1
  parity : m.k.toNat = 1 + i % 2
  square : 3 * m.c.toNat + 1 = wheelVal i ^ 2
  twice  : m.t.toNat = 2 * wheelVal i

theorem afterIndex_init (m : Marker) : AfterIndex 0 m.init where
  index  := rfl
  parity := rfl
  square := rfl
  twice  := rfl

/-- The integers of the wheel grow by 4 and 2 in turn. -/
theorem wheelVal_succ (i : Nat) : wheelVal (i + 1) = wheelVal i + 2 * (2 - i % 2) := by
  unfold wheelVal
  omega

/-- The square of the next integer, as `WM.NEXT` adds it to `MC`. -/
theorem wheelVal_succ_sq (i : Nat) : wheelVal (i + 1) ^ 2 = wheelVal i ^ 2 + 3 * (4 * (2 - i % 2) * (i + 1)) := by
  have hmid : wheelVal i + (2 - i % 2) = 3 * (i + 1) := by
    unfold wheelVal
    omega
  calc wheelVal (i + 1) ^ 2
      = (wheelVal i + 2 * (2 - i % 2)) ^ 2 := by rw [wheelVal_succ]
    _ = wheelVal i ^ 2 + 4 * (2 - i % 2) * (wheelVal i + (2 - i % 2)) := by ring
    _ = wheelVal i ^ 2 + 3 * (4 * (2 - i % 2) * (i + 1)) := by rw [hmid]; ring

/-- Up to the largest index of a legal job no register overflows (R160). -/
theorem AfterIndex.advance {i : Nat} {m : Marker} (h : AfterIndex i m) (hi : i + 1 ≤ 1431655765) :
    AfterIndex (i + 1) m.advance := by
  obtain ⟨hindex, hparity, hsquare, htwice⟩ := h
  have hk : 3 - m.k.toNat = 2 - i % 2 := by omega
  have hval : wheelVal (i + 1) ≤ 4294967297 := by
    unfold wheelVal
    omega
  have hsq : wheelVal (i + 1) ^ 2 ≤ 4294967297 ^ 2 := Nat.pow_le_pow_left hval 2
  have hc : 3 * (m.c.toNat + 4 * (3 - m.k.toNat) * m.i.toNat) + 1 = wheelVal (i + 1) ^ 2 := by
    rw [wheelVal_succ_sq, ← hsquare, hk, hindex]
    ring
  have ht : m.t.toNat + 4 * (3 - m.k.toNat) = 2 * wheelVal (i + 1) := by
    rw [wheelVal_succ, htwice, hk]
    ring
  exact {
    index  := by rw [advance_i_toNat (by omega), hindex]
    parity := by rw [advance_k_toNat]; omega
    square := by rw [advance_c_toNat (by omega), hc]
    twice  := by rw [advance_t_toNat (by omega), ht] }

theorem afterIndex_iterate (m : Marker) (i : Nat) (hi : i ≤ 1431655765) :
    AfterIndex i (Marker.advance^[i] m.init) := by
  induction i with
  | zero => exact afterIndex_init m
  | succ i ih =>
    rw [Function.iterate_succ_apply']
    exact (ih (by omega)).advance hi

/-- `WM.INIT` and `i` times `WM.NEXT` complete with the marker set at index `i`. -/
theorem runOps_wmInit_wmNext {s : State} {M : MarkerId} {m : Marker} (h : s.marker? M = some m) (i : Nat) :
    ∃ t : State, runOps (.wmInit M :: List.replicate i (.wmNext M)) s = .next t ∧
      t.marker? M = some (Marker.advance^[i] m.init) := by
  obtain ⟨t, ht, htM⟩ := runOps_replicate_wmNext i (putMarker_self h m.init)
  exact ⟨t, by rw [runOps, exec_wmInit_of_marker h, bind_next, ht], htM⟩

section
variable {i : Nat} {m : Marker}

/-- `MC` by the parity of the index. -/
theorem AfterIndex.c_eq (h : AfterIndex i m) :
    m.c.toNat = if i % 2 = 1 then 3 * i ^ 2 + 4 * i + 1 else 3 * i ^ 2 + 2 * i := by
  have hsquare := h.square
  split
  · next hodd =>
    rw [wheelVal_odd hodd, show (3 * i + 2) ^ 2 = 3 * (3 * i ^ 2 + 4 * i + 1) + 1 by ring] at hsquare
    omega
  · next heven =>
    rw [wheelVal_even (by omega), show (3 * i + 1) ^ 2 = 3 * (3 * i ^ 2 + 2 * i) + 1 by ring] at hsquare
    omega

/-- The first stride of the next index, by its parity. -/
theorem AfterIndex.advance_ij_eq (h : AfterIndex i m) :
    m.advance.ij.toNat = if (i + 1) % 2 = 1 then 2 * (i + 1) + 1 else 4 * (i + 1) + 1 := by
  rw [advance_ij_toNat, h.index, h.parity]
  split
  · next hodd =>
    rw [show i % 2 = 0 by omega]
    ring
  · next heven =>
    rw [show i % 2 = 1 by omega]
    ring

end

/-! ## The statements -/

/-- Settles O23: one advance, register by register. -/
theorem nextAdvancesTheRecurrence : Obligations.NextAdvancesTheRecurrence := by
  unfold Obligations.NextAdvancesTheRecurrence
  refine ⟨fun _ => rfl, fun s M m hM hi hc ht => ?_⟩
  have hk : 3 - (3 - m.k.toNat) = m.k.toNat := by omega
  refine ⟨_, m.advance, exec_wmNext_of_marker hM, onlyMarker_putMarker ((returns_marker s _ M).trans hM) _,
    advance_i_toNat hi, advance_k_toNat m, advance_c_toNat hc, advance_t_toNat ht, advance_j m, ?_⟩
  rw [hk, advance_ij_toNat]

/-- Settles O24: `AfterIndex` holds of every run of `WM.NEXT`; the pair is what the last advance computes. -/
theorem recurrenceHasItsClosedForm : Obligations.RecurrenceHasItsClosedForm := by
  unfold Obligations.RecurrenceHasItsClosedForm
  intro s M m i hM h1 hi
  obtain ⟨j, rfl⟩ := Nat.exists_eq_add_of_le' h1
  obtain ⟨t, ht, htM⟩ := runOps_wmInit_wmNext hM (j + 1)
  rw [Function.iterate_succ_apply'] at htM
  have before := afterIndex_iterate m j (by omega)
  have after := before.advance hi
  have hsquare := after.square
  have htwice := after.twice
  have hij := before.advance_ij_eq
  unfold wheelVal at hsquare htwice
  refine ⟨t, _, ht, htM, after.index, ?parity, ?root, after.c_eq, htwice, advance_j _, hij, ?other⟩
  case parity => rw [after.parity]; split <;> omega
  case root => omega
  case other => rw [htwice, hij]; split <;> omega

/-- Settles O25: one stride, and two. -/
theorem strideAdvancesAndSwaps : Obligations.StrideAdvancesAndSwaps := by
  unfold Obligations.StrideAdvancesAndSwaps
  refine ⟨fun _ => rfl, fun s M m hM hij hj => ⟨?once, ?twice⟩⟩
  case once =>
    rw [exec_wmStep_of_marker hM, stride_eq hij (by omega)]
    exact ⟨_, rfl, onlyMarker_putMarker hM _⟩
  case twice =>
    rw [runOps_wmStep_wmStep hM, stride_stride_eq hij hj]
    exact ⟨_, rfl, onlyMarker_putMarker hM _⟩

/-- Settles O26: the three cases of a seek; `first` is `firstJump`. -/
theorem seekMakesAtMostTwoJumps : Obligations.SeekMakesAtMostTwoJumps := by
  unfold Obligations.SeekMakesAtMostTwoJumps
  refine ⟨fun _ => rfl, fun s M m joff hM _ hij hb =>
    ⟨fun hle => ?stays, fun hlt hge => ?one, fun hlt hbelow => ?two⟩⟩
  case stays => rw [exec_wmSeek_of_marker hM, seek_of_le hle, putMarker_of_marker hM]
  case one =>
    rw [exec_wmSeek_of_marker hM, seek_of_firstJump_ge hij hb hlt hge]
    exact ⟨_, rfl, onlyMarker_putMarker hM _⟩
  case two =>
    rw [exec_wmSeek_of_marker hM, seek_of_firstJump_lt hij hb hlt hbelow]
    exact ⟨_, rfl, onlyMarker_putMarker hM _⟩

/-- An integer is the integer of its index exactly where it is on the wheel (R142). -/
theorem wheelVal_wheelEncode_iff (n : Nat) : wheelVal (wheelEncode n) = n ↔ n % 6 = 1 ∨ n % 6 = 5 := by
  unfold wheelVal wheelEncode
  omega

theorem wheelEncode_wheelVal (i : Nat) : wheelEncode (wheelVal i) = i := by
  unfold wheelVal wheelEncode
  omega

/-- Settles O21: the integer of an index is on the wheel because it is the integer of its own index. -/
theorem encodeInvertsDecodeOnTheWheel : Obligations.EncodeInvertsDecodeOnTheWheel := by
  unfold Obligations.EncodeInvertsDecodeOnTheWheel
  refine ⟨fun _ => rfl, fun _ _ => rfl, fun n _ => wheelVal_wheelEncode_iff n, fun i hi => ?_⟩
  have hfive : 5 ≤ wheelVal i := by
    unfold wheelVal
    omega
  exact ⟨wheelEncode_wheelVal i, hfive, (wheelVal_wheelEncode_iff _).mp (by rw [wheelEncode_wheelVal])⟩

/-- Settles O22: both operations replace one marker set, whose walking pair stays. -/
theorem initAndLoadSetTheMarkerState : Obligations.InitAndLoadSetTheMarkerState := by
  unfold Obligations.InitAndLoadSetTheMarkerState
  refine ⟨fun _ => ⟨rfl, rfl⟩, fun s M m hM => ?init, fun s w k hk => ?load⟩
  case init => exact ⟨_, exec_wmInit_of_marker hM, onlyMarker_putMarker hM _⟩
  case load =>
    exact ⟨_, exec_wmLoad_of_worker hk, rfl, setWorker_self hk _, fun _ hv => setWorker_other s hv.symm _⟩

end Sys2Proof.Proofs
end

section
/-! What the walk of an index visits and what one turn of a table's loop strikes out (R150, R152, R153): the integers of a
walk are the multiples of its index's integer by the wheel integers from itself on, whatever window the walk is
fast-forwarded to. -/

namespace Sys2Proof.Proofs

open Sys2Proof.Machine Sys2Proof.Laws

/-! ## Integers of the wheel -/

theorem wheelVal_le_iff {a b : Nat} : wheelVal a ≤ wheelVal b ↔ a ≤ b :=
  StrictMono.le_iff_le fun _ _ => wheelVal_strictMono

theorem wheelVal_inj {a b : Nat} : wheelVal a = wheelVal b ↔ a = b :=
  StrictMono.injective (fun _ _ => wheelVal_strictMono) |>.eq_iff

theorem one_lt_wheelVal {a : Nat} (h : 1 ≤ a) : 1 < wheelVal a := wheelVal_strictMono (i := 0) h

theorem wheelVal_mod_two (a : Nat) : wheelVal a % 2 = 1 := by
  unfold wheelVal
  omega

/-- A divisor of a wheel integer is coprime to 6, so it is the integer of its own index. -/
theorem wheelVal_wheelEncode_of_dvd {u a : Nat} (h : u ∣ wheelVal a) : wheelVal (wheelEncode u) = u := by
  have hwheel : wheelVal a % 6 = 1 ∨ wheelVal a % 6 = 5 :=
    (wheelVal_wheelEncode_iff _).mp (by rw [wheelEncode_wheelVal])
  have htwo : ¬ 2 ∣ u := fun hd => by have := hd.trans h; omega
  have hthree : ¬ 3 ∣ u := fun hd => by have := hd.trans h; omega
  exact (wheelVal_wheelEncode_iff u).mpr (by omega)

/-- An odd integer strictly between `3x` and `3x + 3` is the integer of `x`. -/
theorem wheelVal_eq_of_odd {x y : Nat} (hodd : y % 2 = 1) (hy : y = 3 * x + 1 ∨ y = 3 * x + 2) : wheelVal x = y := by
  unfold wheelVal
  omega

/-! ## Which positions the walk of an index visits (R150) -/

/-- The walk of index `d` visits `a`: the integer of `a` is that of `d` times a wheel integer from itself on. -/
def Strikes (d a : Nat) : Prop := ∃ s, wheelVal a = wheelVal d * wheelVal (d + s)

theorem Strikes.dvd {d a : Nat} (h : Strikes d a) : wheelVal d ∣ wheelVal a :=
  h.elim fun _ hs => Dvd.intro _ hs.symm

/-- Only composite integers are struck. -/
theorem Strikes.not_prime {d a : Nat} (h : Strikes d a) (hd : 1 ≤ d) : ¬ (wheelVal a).Prime := by
  obtain ⟨s, hs⟩ := h
  rw [hs]
  exact Nat.not_prime_mul (one_lt_wheelVal hd).ne' (one_lt_wheelVal (by omega)).ne'

/-- Of two factors the smaller strikes the product. -/
theorem strikes_of_mul {d e a : Nat} (h : wheelVal a = wheelVal d * wheelVal e) (hde : d ≤ e) : Strikes d a :=
  ⟨e - d, by rw [h, Nat.add_sub_cancel' hde]⟩

/-- A composite wheel integer is struck by the index of its smallest prime factor, below it. -/
theorem exists_prime_strikes {a : Nat} (ha : 1 ≤ a) (h : ¬ (wheelVal a).Prime) :
    ∃ d, 1 ≤ d ∧ d < a ∧ (wheelVal d).Prime ∧ Strikes d a := by
  have ha1 := one_lt_wheelVal ha
  have hprime : (wheelVal a).minFac.Prime := Nat.minFac_prime ha1.ne'
  obtain ⟨v, hv⟩ := Nat.minFac_dvd (wheelVal a)
  have hd := wheelVal_wheelEncode_of_dvd (Nat.minFac_dvd (wheelVal a))
  have he := wheelVal_wheelEncode_of_dvd (Dvd.intro_left _ hv.symm)
  have hle : (wheelVal a).minFac ≤ v := by
    have hdiv := Nat.minFac_le_div (by omega) h
    rwa [Nat.div_eq_of_eq_mul_right hprime.pos hv] at hdiv
  refine ⟨wheelEncode (wheelVal a).minFac, ?pos, ?below, by rwa [hd], strikes_of_mul (e := wheelEncode v) ?mul ?order⟩
  case pos =>
    by_contra h0
    rw [Nat.eq_zero_of_not_pos h0] at hd
    exact hprime.ne_one hd.symm
  case below =>
    by_contra hge
    have := wheelVal_le_iff.mpr (Nat.not_lt.mp hge)
    rw [hd] at this
    exact h ((Nat.minFac_le (by omega)).antisymm this ▸ hprime)
  case mul => rw [hd, he, ← hv]
  case order => exact wheelVal_le_iff.mp (by rwa [hd, he])

/-! ## The walk of the recurrence -/

theorem walkMember_even (j ij t r : Nat) : walkMember j ij t (2 * r) = j + r * t := by
  unfold walkMember
  rw [show 2 * r / 2 = r by omega, if_neg (by omega), Nat.add_zero]

theorem walkMember_odd (j ij t r : Nat) : walkMember j ij t (2 * r + 1) = j + r * t + ij := by
  unfold walkMember
  rw [show (2 * r + 1) / 2 = r by omega, if_pos (by omega)]

section
variable {i : Nat} {m : Marker}

theorem AfterIndex.of_registers {m' : Marker} (h : AfterIndex i m) (hi : m'.i = m.i) (hc : m'.c = m.c)
    (hk : m'.k = m.k) (ht : m'.t = m.t) : AfterIndex i m' where
  index  := hi ▸ h.index
  parity := hk ▸ h.parity
  square := hc ▸ h.square
  twice  := ht ▸ h.twice

/-- The stride of an index just advanced to lies between 0 and `MT` (R160). -/
theorem AfterIndex.advance_walking (h : AfterIndex i m) (hi : i + 1 ≤ 1431655765) : m.advance.walking := by
  have ht := (h.advance hi).twice
  have hij := h.advance_ij_eq
  unfold wheelVal at ht
  unfold Marker.walking
  split at hij <;> omega

/-- The odd members of the walk stand for the cofactors 2 or 4 above the even ones', and `MIJ` for that step. -/
theorem AfterIndex.exists_cofactor_step (h : AfterIndex i m) (r : Nat) :
    ∃ δ, wheelVal (i + 1 + (2 * r + 1)) = wheelVal (i + 1) + 6 * r + δ ∧
      wheelVal (i + 1) * δ = 3 * m.advance.ij.toNat + 1 := by
  have hij := h.advance_ij_eq
  split at hij
  · next hodd => exact ⟨2, by unfold wheelVal; omega, by rw [hij, wheelVal_odd hodd]; ring⟩
  · next heven => exact ⟨4, by unfold wheelVal; omega, by rw [hij, wheelVal_even (by omega)]; ring⟩

/-- R150: the integers of the walk are the products of its index's integer with the wheel integers from there on. -/
theorem AfterIndex.wheelVal_walkMember (h : AfterIndex i m) (hi : i + 1 ≤ 1431655765) (s : Nat) :
    wheelVal (walkMember m.advance.j.toNat m.advance.ij.toNat m.advance.t.toNat s) =
      wheelVal (i + 1) * wheelVal (i + 1 + s) := by
  have hc := (h.advance hi).square
  rw [advance_j, (h.advance hi).twice]
  refine wheelVal_eq_of_odd (by rw [Nat.mul_mod, wheelVal_mod_two, wheelVal_mod_two]) ?_
  obtain ⟨r, rfl | rfl⟩ := s.even_or_odd'
  · left
    have hcofactor : wheelVal (i + 1 + 2 * r) = wheelVal (i + 1) + 6 * r := by
      unfold wheelVal
      omega
    rw [hcofactor, walkMember_even]
    linear_combination -hc
  · right
    obtain ⟨δ, hcofactor, hstep⟩ := h.exists_cofactor_step r
    rw [hcofactor, walkMember_odd]
    linear_combination hstep - hc

/-- The walk of index `i + 1` visits exactly the positions it strikes. -/
theorem AfterIndex.strikes_iff (h : AfterIndex i m) (hi : i + 1 ≤ 1431655765) (a : Nat) :
    Strikes (i + 1) a ↔ ∃ s, a = walkMember m.advance.j.toNat m.advance.ij.toNat m.advance.t.toNat s := by
  unfold Strikes
  simp only [← h.wheelVal_walkMember hi, wheelVal_inj]

end

/-! ## Fast-forwarding a walk (R152) -/

theorem walkMember_add (j ij t d s : Nat) : walkMember (j + d * t) ij t s = walkMember j ij t (2 * d + s) := by
  obtain ⟨r, rfl | rfl⟩ := s.even_or_odd'
  · rw [← Nat.mul_add, walkMember_even, walkMember_even]
    ring
  · rw [← Nat.add_assoc, ← Nat.mul_add, walkMember_odd, walkMember_odd]
    ring

theorem walkMember_mono {j ij t : Nat} (hij : ij ≤ t) : Monotone (walkMember j ij t) :=
  monotone_nat_of_le_succ fun s => by
    rw [← walkMember_stride j ij t s hij]
    unfold walkMember
    split <;> omega

/-- The marker set `n` stands at member `r` of the walk of `m`, at or above the offset, and every member before it lies at
or below the offset. -/
structure ResumedAt (m : Marker) (joff r : Nat) (n : Marker) : Prop where
  walking : n.walking
  reached : joff ≤ n.j.toNat
  members : ∀ s, walkMember n.j.toNat n.ij.toNat n.t.toNat s = walkMember m.j.toNat m.ij.toNat m.t.toNat (r + s)
  skipped : ∀ s < r, walkMember m.j.toNat m.ij.toNat m.t.toNat s ≤ joff

section
variable {m : Marker} {joff : Nat}

theorem resumedAt_of_le (hw : m.walking) (h : joff ≤ m.j.toNat) : ResumedAt m joff 0 (m.seek joff) := by
  rw [seek_of_le h]
  exact ⟨hw, h, fun s => by rw [Nat.zero_add], nofun⟩

/-- One jump resumes the walk at the odd member after the last even one up to the offset. -/
theorem resumedAt_of_firstJump_ge (hw : m.walking) (hb : joff + m.t.toNat < 2 ^ 64) (h : m.j.toNat < joff)
    (hge : joff ≤ firstJump m joff) :
    ResumedAt m joff (2 * ((joff - m.j.toNat) / m.t.toNat) + 1) (m.seek joff) := by
  obtain ⟨hij0, hijt⟩ := id hw
  have hother : (m.t - m.ij).toNat = m.t.toNat - m.ij.toNat := BitVec.toNat_sub_of_le hijt.le
  have hfit : firstJump m joff < 2 ^ 64 := (firstJump_le h.le).trans_lt (by omega)
  have hdiv := Nat.div_mul_le_self (joff - m.j.toNat) m.t.toNat
  rw [seek_of_firstJump_ge hijt.le hb h hge]
  refine ⟨⟨by dsimp only; omega, by dsimp only; omega⟩, ?reached, fun s => ?members, fun s hs => ?skipped⟩
  case reached => rwa [BitVec.toNat_ofNat, Nat.mod_eq_of_lt hfit]
  case members =>
    rw [BitVec.toNat_ofNat, Nat.mod_eq_of_lt hfit, hother, firstJump, walkMember_stride _ _ _ _ hijt.le,
      walkMember_add, Nat.add_assoc, Nat.add_comm 1]
  case skipped =>
    refine (walkMember_mono hijt.le (Nat.le_of_lt_succ hs)).trans ?_
    rw [walkMember_even]
    omega

/-- Two jumps resume the walk at the even member after that. -/
theorem resumedAt_of_firstJump_lt (hw : m.walking) (hb : joff + m.t.toNat < 2 ^ 64) (h : m.j.toNat < joff)
    (hlt : firstJump m joff < joff) :
    ResumedAt m joff (2 * ((joff - m.j.toNat) / m.t.toNat + 1)) (m.seek joff) := by
  obtain ⟨hij0, hijt⟩ := id hw
  have hdiv := Nat.lt_div_mul_add (a := joff - m.j.toNat) (b := m.t.toNat) (by omega)
  have hsecond : firstJump m joff + (m.t.toNat - m.ij.toNat) =
      m.j.toNat + ((joff - m.j.toNat) / m.t.toNat + 1) * m.t.toNat := by
    rw [firstJump, Nat.add_mul]
    omega
  have hfit : firstJump m joff + (m.t.toNat - m.ij.toNat) < 2 ^ 64 := by omega
  rw [seek_of_firstJump_lt hijt.le hb h hlt]
  refine ⟨hw, ?reached, fun s => ?members, fun s hs => ?skipped⟩
  case reached =>
    rw [BitVec.toNat_ofNat, Nat.mod_eq_of_lt hfit, hsecond, Nat.add_mul]
    omega
  case members => rw [BitVec.toNat_ofNat, Nat.mod_eq_of_lt hfit, hsecond, walkMember_add]
  case skipped =>
    have hodd : s ≤ 2 * ((joff - m.j.toNat) / m.t.toNat) + 1 := by omega
    refine (walkMember_mono hijt.le hodd).trans ?_
    rw [walkMember_odd]
    exact hlt.le

/-- R152: `WM.SEEK` resumes the walk and skips nothing above the offset. -/
theorem exists_resumedAt_seek (hw : m.walking) (hb : joff + m.t.toNat < 2 ^ 64) :
    ∃ r, ResumedAt m joff r (m.seek joff) := by
  rcases Nat.lt_or_ge m.j.toNat joff with hlt | hge
  · rcases Nat.lt_or_ge (firstJump m joff) joff with hbelow | habove
    · exact ⟨_, resumedAt_of_firstJump_lt hw hb hlt hbelow⟩
    · exact ⟨_, resumedAt_of_firstJump_ge hw hb hlt habove⟩
  · exact ⟨_, resumedAt_of_le hw hge⟩

/-- Above the offset the resumed walk visits what the walk visits. -/
theorem ResumedAt.visits_iff {n : Marker} {r a : Nat} (h : ResumedAt m joff r n) (ha : joff < a) :
    (∃ s, a = walkMember n.j.toNat n.ij.toNat n.t.toNat s) ↔
      ∃ s, a = walkMember m.j.toNat m.ij.toNat m.t.toNat s := by
  constructor
  · rintro ⟨s, hs⟩
    exact ⟨r + s, hs.trans (h.members s)⟩
  · rintro ⟨s, hs⟩
    have hrs : r ≤ s := by
      by_contra hsr
      have := h.skipped s (Nat.not_le.mp hsr)
      omega
    exact ⟨s - r, by rw [h.members, Nat.add_sub_cancel' hrs, hs]⟩

end

/-! ## One turn of a table's loop -/

/-- A turn advances to the next index, fast-forwards its walk and clears from the window what the index strikes
(R153). -/
theorem AfterIndex.mark_advance {i : Nat} {m : Marker} {X : Bitset} {joff mx : Nat} (h : AfterIndex i m)
    (hi : i + 1 ≤ 1431655765) (hX : Memory.wf X.mem) (hmx : mx < X.n.toNat)
    (hb : joff + mx + 2 * wheelVal (i + 1) < 2 ^ 64) :
    ∃ m' X', (m.advance.seek joff).mark X joff mx = .next (m', X') ∧ AfterIndex (i + 1) m' ∧ Clears X X' ∧
      ∀ L, 1 ≤ L → (X'.bit L = true ↔ X.bit L = true ∧ ¬ (L ≤ mx ∧ Strikes (i + 1) (joff + L))) := by
  have ht := (h.advance hi).twice
  obtain ⟨hseeki, hseekc, hseekk, hseekt⟩ := seek_frame m.advance joff
  obtain ⟨r, hresumed⟩ := exists_resumedAt_seek (joff := joff) (h.advance_walking hi) (by omega)
  obtain ⟨m', X', hmark, -, -, -, hbit⟩ := markLoop_spec markTurns (m.advance.seek joff) X joff mx hresumed.walking hX
    hresumed.reached hmx (by rw [hseekt]; omega) (by unfold markTurns; omega)
  obtain ⟨hmi, hmc, hmk, hmt, hclears⟩ := mark_frame hmark
  refine ⟨m', X', hmark, (h.advance hi).of_registers (hmi.trans hseeki) (hmc.trans hseekc) (hmk.trans hseekk)
    (hmt.trans hseekt), hclears, fun L hL => ?_⟩
  rw [hbit, Nat.add_comm L, hresumed.visits_iff (by omega), h.strikes_iff hi]

end Sys2Proof.Proofs
end

section
/-! The two tables (R171 to R181). Each loop strikes its window by one index after another, and what stands at the end is
read off from which indices strike a position. -/

namespace Sys2Proof.Proofs

open Sys2Proof.Machine Sys2Proof.Laws

/-! ## A window struck by some indices -/

/-- The window up to local position `mx` with every position cleared that an index of `D` strikes, position 0 clear, and
every position above `mx` set. -/
structure StruckBy (D : Nat → Prop) (joff mx : Nat) (X : Bitset) : Prop where
  wf   : X.wf
  room : mx < X.n.toNat
  zero : X.bit 0 = false
  bit  : ∀ L, 1 ≤ L → L < X.n.toNat → (X.bit L = true ↔ (L ≤ mx → ∀ d, D d → ¬ Strikes d (joff + L)))

/-- A filled bitset is struck by no index. -/
theorem struckBy_filled {D : Nat → Prop} {joff mx : Nat} {n : Word} (hD : ∀ d, ¬ D d) (hn : mx < n.toNat) :
    StruckBy D joff mx (Bitset.filled n) where
  wf   := filled_wf n
  room := hn
  zero := by simp [filled_bit]
  bit  := fun L h1 hlt => by
    rw [filled_n] at hlt
    rw [filled_bit, decide_eq_true_eq]
    exact ⟨fun _ _ d hd => absurd hd (hD d), fun _ => ⟨hlt, by omega⟩⟩

/-- `BS.FILL` (R121) gives the window no index has struck. -/
theorem exists_fill_struckBy {D : Nat → Prop} {joff mx cap n : Nat} (hD : ∀ d, ¬ D d) (hmx : mx < n) (hcap : n ≤ cap)
    (hn : n < 2 ^ 64) : ∃ X, Bitset.fill cap n = .next X ∧ X.n.toNat = n ∧ StruckBy D joff mx X := by
  have hlen : (BitVec.ofNat 64 n).toNat = n := by rw [BitVec.toNat_ofNat, Nat.mod_eq_of_lt hn]
  exact ⟨_, fill_eq_next.mpr ⟨⟨by omega, hcap, hn⟩, rfl⟩, hlen, struckBy_filled hD (hlen.symm ▸ hmx)⟩

section
variable {D D' : Nat → Prop} {joff mx i : Nat} {m : Marker} {X : Bitset}

theorem StruckBy.congr (h : StruckBy D joff mx X) (hD : ∀ d, D' d ↔ D d) : StruckBy D' joff mx X :=
  (funext fun d => propext (hD d)) ▸ h

theorem StruckBy.bit_of_le {L : Nat} (h : StruckBy D joff mx X) (h1 : 1 ≤ L) (hL : L ≤ mx) :
    X.bit L = true ↔ ∀ d, D d → ¬ Strikes d (joff + L) := by
  rw [h.bit L h1 (hL.trans_lt h.room)]
  exact ⟨fun hs => hs hL, fun hs _ => hs⟩

theorem StruckBy.bit_of_gt {L : Nat} (h : StruckBy D joff mx X) (hL : mx < L) (hn : L < X.n.toNat) : X.bit L = true :=
  (h.bit L (by omega) hn).mpr fun hle => absurd hle (Nat.not_le.mpr hL)

/-- One turn on a struck window: the next index is added to those that have struck it. -/
theorem StruckBy.mark_advance (h : StruckBy D joff mx X) (hm : AfterIndex i m) (hi : i + 1 ≤ 1431655765)
    (hb : joff + mx + 2 * wheelVal (i + 1) < 2 ^ 64) (hD : ∀ d, D' d ↔ D d ∨ d = i + 1) :
    ∃ m' X', (m.advance.seek joff).mark X joff mx = .next (m', X') ∧ AfterIndex (i + 1) m' ∧
      StruckBy D' joff mx X' := by
  obtain ⟨m', X', hmark, hm', ⟨⟨hn, hwf, -⟩, hclears⟩, hbit⟩ := hm.mark_advance hi h.wf.1 h.room hb
  refine ⟨m', X', hmark, hm', hwf h.wf, by rw [hn]; exact h.room, ?zero, fun L h1 hlt => ?bit⟩
  case zero => exact Bool.eq_false_iff.mpr fun h0 => Bool.eq_false_iff.mp h.zero (hclears h.wf.1 0 h0)
  case bit =>
    rw [hbit L h1, h.bit L h1 (hn ▸ hlt)]
    simp only [hD, or_imp, forall_and, forall_eq]
    tauto

end

/-! ## The table of small primes -/

/-- The indices up to `n` whose integers are prime. -/
def PrimeIndex (n d : Nat) : Prop := 1 ≤ d ∧ d ≤ n ∧ (wheelVal d).Prime

theorem not_primeIndex_zero (d : Nat) : ¬ PrimeIndex 0 d := by
  rintro ⟨hd, hd0, -⟩
  omega

/-- R172: an integer is prime where no prime index below it strikes it. -/
theorem prime_wheelVal_iff {n a : Nat} (ha : 1 ≤ a) (hn : a ≤ n + 1) :
    (wheelVal a).Prime ↔ ∀ d, PrimeIndex n d → ¬ Strikes d a := by
  constructor
  · rintro hp d ⟨hd, -, -⟩ hs
    exact hs.not_prime hd hp
  · intro h
    by_contra hp
    obtain ⟨d, hd, hda, hdp, hs⟩ := exists_prime_strikes ha hp
    exact h d ⟨hd, by omega, hdp⟩ hs

theorem primeIndex_succ_of_prime {n : Nat} (h : (wheelVal (n + 1)).Prime) (d : Nat) :
    PrimeIndex (n + 1) d ↔ PrimeIndex n d ∨ d = n + 1 := by
  unfold PrimeIndex
  constructor
  · rintro ⟨hd, hdn, hp⟩
    by_cases hlast : d = n + 1
    · exact .inr hlast
    · exact .inl ⟨hd, by omega, hp⟩
  · rintro (⟨hd, hdn, hp⟩ | rfl)
    · exact ⟨hd, by omega, hp⟩
    · exact ⟨by omega, le_rfl, h⟩

theorem primeIndex_succ_of_not_prime {n : Nat} (h : ¬ (wheelVal (n + 1)).Prime) (d : Nat) :
    PrimeIndex (n + 1) d ↔ PrimeIndex n d := by
  unfold PrimeIndex
  constructor
  · rintro ⟨hd, hdn, hp⟩
    have hne : d ≠ n + 1 := fun he => h (he ▸ hp)
    exact ⟨hd, by omega, hp⟩
  · rintro ⟨hd, hdn, hp⟩
    exact ⟨hd, by omega, hp⟩

/-- R171: each turn strikes by the next index where its bit still stands, that is where its integer is prime. -/
theorem oracleLoop_spec {k n q : Nat} {m : Marker} {X : Bitset} (hq : n + k = q) (hmax : q ≤ 1431655765)
    (hm : AfterIndex n m) (hX : StruckBy (PrimeIndex n) 0 q X) :
    ∃ m' X', oracleLoop k q m X = .next (m', X') ∧ AfterIndex q m' ∧ StruckBy (PrimeIndex q) 0 q X' := by
  induction k generalizing n m X with
  | zero =>
    obtain rfl : n = q := hq
    exact ⟨m, X, by rw [oracleLoop, hm.index, if_neg (by omega)], hm, hX⟩
  | succ k ih =>
    have hle : n + 1 ≤ q := by omega
    have hroom := hX.room
    have hprime : X.bit (n + 1) = true ↔ (wheelVal (n + 1)).Prime := by
      rw [hX.bit_of_le (by omega) hle, prime_wheelVal_iff (by omega) le_rfl, Nat.zero_add]
    rw [oracleLoop, hm.index, if_pos hle, bitRead_of_lt (by omega), bind_next]
    by_cases hp : (wheelVal (n + 1)).Prime
    · have hb : 0 + q + 2 * wheelVal (n + 1) < 2 ^ 64 := by
        unfold wheelVal
        omega
      obtain ⟨m', X', hmark, hm', hX'⟩ :=
        hX.mark_advance hm (by omega) hb (primeIndex_succ_of_prime hp)
      rw [seek_of_le (Nat.zero_le _)] at hmark
      rw [if_pos (hprime.mpr hp), hmark, bind_next]
      exact ih (by omega) hm' hX'
    · rw [if_neg (mt hprime.mp hp)]
      exact ih (by omega) (hm.advance (by omega)) (hX.congr (primeIndex_succ_of_not_prime hp))

/-- Settles O29: the table is the window of the indices up to `QTAB`, struck by every prime index up to `QTAB`. -/
theorem oracleTableHoldsThePrimes : Obligations.OracleTableHoldsThePrimes := by
  unfold Obligations.OracleTableHoldsThePrimes
  refine ⟨fun _ => rfl, fun s hmax hcap => ?_⟩
  obtain ⟨X₀, hfill, hlen, hX₀⟩ :=
    exists_fill_struckBy not_primeIndex_zero (mx := s.qtab.toNat) (by omega) hcap (by omega)
  obtain ⟨m, X, hloop, hm, hX⟩ := oracleLoop_spec (Nat.zero_add s.qtab.toNat) hmax (afterIndex_init s.cm) hX₀
  have hn : X.n.toNat = s.qtab.toNat + 2 := by rw [(oracleLoop_clears hloop).1.1, hlen]
  have hexec : exec .orcBuild s = .next { s with cm := m, spt := X } := by
    change execOrcBuild s = _
    rw [execOrcBuild, hfill, bind_next, hloop, bind_next]
  refine ⟨_, hexec, rfl, hm.index, hX.wf, hn, hX.zero, ?slack, fun i h1 hi => ?primes⟩
  case slack => exact hX.bit_of_gt (by omega) (by omega)
  case primes =>
    change X.bit i = true ↔ (wheelVal i).Prime
    rw [hX.bit_of_le h1 hi, Nat.zero_add, ← prime_wheelVal_iff h1 (Nat.le_succ_of_le hi)]

/-! ## The template -/

/-- The seed indices of a template of `nseed` seeds. -/
def SeedIndex (nseed d : Nat) : Prop := 1 ≤ d ∧ d ≤ nseed

theorem not_seedIndex_zero (d : Nat) : ¬ SeedIndex 0 d := by
  rintro ⟨hd, hd0⟩
  omega

theorem seedIndex_succ (n d : Nat) : SeedIndex (n + 1) d ↔ SeedIndex n d ∨ d = n + 1 := by
  unfold SeedIndex
  omega

theorem mem_seedPrimes {nseed p : Nat} (h : nseed = 5 ∨ nseed = 6) :
    p ∈ seedPrimes nseed ↔ ∃ d, SeedIndex nseed d ∧ p = wheelVal d := by
  have hlist : seedPrimes nseed = (List.range' 1 nseed).map wheelVal := by
    obtain rfl | rfl := h <;> rfl
  simp only [hlist, List.mem_map, List.mem_range'_1, SeedIndex, eq_comm (a := p), Nat.lt_add_one_iff, Nat.add_comm 1]

/-- A seed divides an integer where a seed strikes it, or where the integer is a seed itself. -/
theorem exists_seed_dvd_iff {n a : Nat} (ha : 1 ≤ a) :
    (∃ d, SeedIndex n d ∧ wheelVal d ∣ wheelVal a) ↔ a ≤ n ∨ ∃ d, SeedIndex n d ∧ Strikes d a := by
  constructor
  · rintro ⟨d, ⟨hd, hdn⟩, v, hv⟩
    have he := wheelVal_wheelEncode_of_dvd (Dvd.intro_left _ hv.symm)
    rw [← he] at hv
    generalize wheelEncode v = e at hv
    by_cases hde : d ≤ e
    · exact .inr ⟨d, ⟨hd, hdn⟩, strikes_of_mul hv hde⟩
    · by_cases he0 : e = 0
      · rw [he0, show wheelVal 0 = 1 from rfl, Nat.mul_one, wheelVal_inj] at hv
        exact .inl (hv ▸ hdn)
      · exact .inr ⟨e, ⟨by omega, by omega⟩, strikes_of_mul (hv.trans (Nat.mul_comm _ _)) (by omega)⟩
  · rintro (hle | ⟨d, hd, hs⟩)
    · exact ⟨a, ⟨ha, hle⟩, dvd_rfl⟩
    · exact ⟨d, hd, hs.dvd⟩

/-- R181: no seed prime divides the integer of an index exactly where the index lies above the seeds and no seed strikes
it. -/
theorem seedPrimes_not_dvd_iff {nseed a : Nat} (h : nseed = 5 ∨ nseed = 6) (ha : 1 ≤ a) :
    (∀ p ∈ seedPrimes nseed, ¬ p ∣ wheelVal a) ↔ nseed < a ∧ ∀ d, SeedIndex nseed d → ¬ Strikes d a := by
  have hseeds : (∀ p ∈ seedPrimes nseed, ¬ p ∣ wheelVal a) ↔ ¬ ∃ d, SeedIndex nseed d ∧ wheelVal d ∣ wheelVal a := by
    simp only [mem_seedPrimes h, not_exists, not_and]
    exact ⟨fun hp d hd => hp _ ⟨d, hd, rfl⟩, fun hd p ⟨d, hseed, he⟩ => he ▸ hd d hseed⟩
  rw [hseeds, exists_seed_dvd_iff ha, not_or, Nat.not_le]
  simp only [not_exists, not_and]

/-- R176: the `k` turns after index `n` strike by the next `k` indices. -/
theorem templateLoop_spec {k n joff mx : Nat} {m : Marker} {X : Bitset} (hk : n + k ≤ 6) (hb : joff + mx + 38 < 2 ^ 64)
    (hm : AfterIndex n m) (hX : StruckBy (SeedIndex n) joff mx X) :
    ∃ m' X', templateLoop k joff mx m X = .next (m', X') ∧ AfterIndex (n + k) m' ∧
      StruckBy (SeedIndex (n + k)) joff mx X' := by
  induction k generalizing n m X with
  | zero => exact ⟨m, X, rfl, hm, hX⟩
  | succ k ih =>
    have hval : wheelVal (n + 1) ≤ 19 := wheelVal_le_iff.mpr (by omega : n + 1 ≤ 6)
    obtain ⟨m', X', hmark, hm', hX'⟩ := hX.mark_advance hm (by omega) (by omega) (seedIndex_succ n)
    rw [templateLoop, hmark, bind_next, ← Nat.add_assoc, Nat.add_right_comm]
    exact ih (by omega) hm' hX'

/-- The mask of R179 clears the seeds and sets the positions above them. -/
theorem seedMask_getLsbD {nseed L : Nat} (h : nseed = 5 ∨ nseed = 6) (hL : L < 8) :
    (if nseed = 5 then 0xC0 else 0x80 : Byte).getLsbD L = decide (nseed < L) := by
  obtain rfl | rfl := h <;> interval_cases L <;> rfl

/-- Positions 6 and 7 stand for the primes 19 and 23 where the window begins at the origin, and no seed strikes a
prime. -/
theorem StruckBy.bit_above_seeds {nseed mx L : Nat} {X : Bitset} (hX : StruckBy (SeedIndex nseed) 0 mx X)
    (h7 : 7 ≤ mx) (h6 : 6 ≤ L) (hL : L < 8) : X.bit L = true := by
  have hprime : (wheelVal L).Prime := by
    interval_cases L <;> decide
  rw [hX.bit_of_le (by omega) (by omega), Nat.zero_add]
  exact fun d hd hs => hs.not_prime hd.1 hprime

/-- R179: clearing the seed bits ends, and clears exactly the positions of the seed indices. -/
theorem clearSeeds_spec {startAdj : Word} {nseed mx joff : Nat} {X : Bitset} (h : nseed = 5 ∨ nseed = 6)
    (halign : startAdj.toNat % 6 = 1) (hjoff : joff = (startAdj.toNat - 1) / 3) (h7 : 7 ≤ mx)
    (hX : StruckBy (SeedIndex nseed) joff mx X) :
    ∃ X', clearSeeds startAdj nseed joff X = .next X' ∧ Keeps X X' ∧
      ∀ L, X'.bit L = true ↔ X.bit L = true ∧ nseed < joff + L := by
  have hroom := hX.room
  unfold clearSeeds
  split
  · next hone =>
    obtain rfl : joff = 0 := by rw [hjoff, hone]; rfl
    obtain ⟨X', hX'⟩ : ∃ X', X.memWrite 0 (if nseed = 5 then 0xC0 else 0x80) = .next X' :=
      ⟨_, memWrite_eq_next.mpr ⟨by unfold bytesFor; omega, rfl⟩⟩
    refine ⟨X', hX', memWrite_keeps hX', fun L => ?_⟩
    rw [memWrite_bit hX.wf.1 hX', Nat.zero_add]
    by_cases hL : L < 8
    · rw [if_pos (by omega), Nat.mod_eq_of_lt hL, seedMask_getLsbD h hL, decide_eq_true_iff]
      exact ⟨fun hlt => ⟨hX.bit_above_seeds h7 (by omega) hL, hlt⟩, And.right⟩
    · rw [if_neg (by omega)]
      exact ⟨fun hb => ⟨hb, by omega⟩, And.left⟩
  · next hone =>
    have hjoff2 : 2 ≤ joff := by
      have : startAdj.toNat ≠ 1 := fun he => hone (BitVec.eq_of_toNat_eq he)
      omega
    obtain ⟨X', hX'⟩ := writeSeeds_ends false nseed 1 joff X (by omega)
    obtain ⟨hkeeps, hbit⟩ := writeSeeds_spec hX'
    refine ⟨X', hX', hkeeps, fun L => ?_⟩
    rw [hbit hX.wf.1]
    split
    · next hseed => exact ⟨nofun, fun hb => by omega⟩
    · next hother =>
      refine ⟨fun hb => ⟨hb, ?_⟩, And.left⟩
      have hL : L ≠ 0 := fun h0 => by simp [h0, hX.zero] at hb
      omega

/-- R178: the resume state of each template. -/
theorem AfterIndex.resume {nseed : Nat} {m : Marker} (hm : AfterIndex nseed m) (h : nseed = 5 ∨ nseed = 6) :
    (nseed = 5 ∧ m.i = 6 ∧ m.c = 96 ∧ m.k = 2 ∧ m.t = 34) ∨ (nseed = 6 ∧ m.i = 7 ∧ m.c = 120 ∧ m.k = 1 ∧ m.t = 38) := by
  obtain ⟨hi, hk, hc, ht⟩ := hm
  obtain rfl | rfl := h
  · rw [show wheelVal 5 = 17 from rfl] at hc ht
    exact .inl ⟨rfl, BitVec.eq_of_toNat_eq hi, by bv_omega, BitVec.eq_of_toNat_eq hk, BitVec.eq_of_toNat_eq ht⟩
  · rw [show wheelVal 6 = 19 from rfl] at hc ht
    exact .inr ⟨rfl, BitVec.eq_of_toNat_eq hi, by bv_omega, BitVec.eq_of_toNat_eq hk, BitVec.eq_of_toNat_eq ht⟩

/-- Settles O31: the template is the window of the first segment, struck by the seed indices, with the seeds
themselves cleared. -/
theorem templateHoldsTheNonMultiplesOfTheSeeds : Obligations.TemplateHoldsTheNonMultiplesOfTheSeeds := by
  unfold Obligations.TemplateHoldsTheNonMultiplesOfTheSeeds
  refine ⟨fun _ => rfl, fun s hseed halign h7 hmax hcap => ?_⟩
  have hstart := s.startAdj.isLt
  have hjoff : (narrow 64 (((s.startAdj.toNat : Int) - 1) / 3)).toNat = (s.startAdj.toNat - 1) / 3 :=
    narrow_toNat_of_eq (by omega) (by omega)
  obtain ⟨X₀, hfill, hlen, hX₀⟩ := exists_fill_struckBy (joff := (s.startAdj.toNat - 1) / 3) not_seedIndex_zero
    (Nat.lt_succ_self s.mtpl.toNat) hcap (by omega)
  obtain ⟨m, X, hloop, hm, hX⟩ :=
    templateLoop_spec (k := s.nseed.toNat) (by omega) (by omega) (afterIndex_init s.cm) hX₀
  rw [Nat.zero_add] at hm hX
  obtain ⟨X', hseeds, ⟨hn', hwf', -⟩, hbit⟩ := clearSeeds_spec hseed halign rfl h7 hX
  have hn : X'.n.toNat = s.mtpl.toNat + 1 := by rw [hn', (templateLoop_clears hloop).1.1, hlen]
  have hexec : exec .tplBuild s =
      .next { s with cm := m, pst := X', ri := m.i, rc := m.c, rk := m.k, rt := m.t } := by
    change execTplBuild s = _
    simp only [execTplBuild, hfill, bind_next, hjoff, hloop, hseeds]
  have hzero : X'.bit 0 = false :=
    Bool.eq_false_iff.mpr fun h0 => Bool.eq_false_iff.mp hX.zero ((hbit 0).mp h0).1
  refine ⟨_, hexec, rfl, hm.resume hseed, rfl, rfl, rfl, rfl, hwf' hX.wf, hn, hzero, fun L h1 hL => ?_⟩
  rw [hbit, hX.bit_of_le h1 hL, seedPrimes_not_dvd_iff hseed (by omega), and_comm]

end Sys2Proof.Proofs
end

section
/-! What a segment is (R191, R193): its local end, the registers `SEG.SETUP` computes, and the replacement of one worker
as the only change. -/

namespace Sys2Proof.Proofs

open Sys2Proof.Machine Sys2Proof.Laws

/-! ## The local end (R193) -/

/-- `mseg(D)` is the upper adjoint of the wheel's integers. -/
theorem le_mseg_iff {d L : Nat} (h : 1 ≤ d) : L ≤ mseg d ↔ wheelVal L ≤ d := by
  unfold mseg wheelVal
  dsimp only
  split <;> omega

theorem mseg_le (d : Nat) : mseg d ≤ d := by
  unfold mseg
  dsimp only
  split <;> omega

/-- The integer of position `width / 3` lies beyond the width. -/
theorem mseg_lt_of_le_width {d width : Nat} (h : 1 ≤ d) (hw : 6 ∣ width) (hd : d ≤ width) : mseg d < width / 3 := by
  by_contra hge
  have hlast := (le_mseg_iff h).mp (Nat.not_lt.mp hge)
  unfold wheelVal at hlast
  omega

/-- Settles O33: the local end and its bound are the adjunction read in both directions. -/
theorem localEndIsTheLargestPosition : Obligations.LocalEndIsTheLargestPosition := by
  unfold Obligations.LocalEndIsTheLargestPosition
  exact fun D hD => ⟨(le_mseg_iff hD).mp le_rfl, fun L hL => (le_mseg_iff hD).mpr hL,
    fun width hw hle => Nat.le_sub_one_of_lt (mseg_lt_of_le_width hD hw hle)⟩

/-! ## One worker replaced -/

section
variable {s : State} {w : Nat} {k : Worker}

theorem onlyWorker_setWorker (hk : s.workers[w]? = some k) (l : Worker) : s.onlyWorker (s.setWorker w l) w l :=
  ⟨rfl, setWorker_self hk l, fun _ hv => setWorker_other s hv.symm l⟩

theorem setWorker_setWorker (s : State) (w : Nat) (k l : Worker) : (s.setWorker w k).setWorker w l = s.setWorker w l := by
  simp [State.setWorker]

end

/-! ## The segment's registers (R191) -/

/-- `low` of segment `n`. -/
def segLow (s : State) (n : Word) : Nat := s.startAdj.toNat + s.stepSize.toNat * n.toNat

/-- `high` of segment `n`. -/
def segHigh (s : State) (n : Word) : Nat := min (segLow s n + s.stepSize.toNat - 1) s.jStop.toNat

/-- What `SEG.SETUP` leaves in a worker that holds segment `n` (R191). -/
structure SetUpFor (s : State) (n : Word) (l : Worker) : Prop where
  low   : l.low.toNat = segLow s n
  high  : l.high.toNat = segHigh s n
  nOff  : l.nOff.toNat = segLow s n - 1
  jOff  : l.jOff.toNat = (segLow s n - 1) / 3
  q     : l.q.toNat = Nat.sqrt (segHigh s n) / 3
  inner : n.toNat + 1 < s.numSegments.toNat → l.mseg = s.mtpl
  last  : n.toNat + 1 = s.numSegments.toNat → l.mseg.toNat = mseg (s.jStop.toNat - (segLow s n - 1))

section
variable {s : State} {n : Word}

theorem lowOf_eq (s : State) (n : Word) : s.lowOf n = segLow s n := by
  unfold State.lowOf segLow
  push_cast
  rfl

theorem highOf_eq (h : 1 ≤ segLow s n) : s.highOf n = segHigh s n := by
  unfold State.highOf segHigh
  rw [lowOf_eq]
  omega

theorem segHigh_lt (s : State) (n : Word) : segHigh s n < 2 ^ 64 :=
  (min_le_right _ _).trans_lt s.jStop.isLt

/-- The index of the root of a 64-bit value fits its register (R161). -/
theorem rootIndex_toNat {x : Nat} (h : x < 2 ^ 64) : (rootIndex x).toNat = Nat.sqrt x / 3 := by
  have hroot := isqrt_lt h
  rw [rootIndex, if_pos (Int.natCast_nonneg x), Int.toNat_natCast, wheelEncode, narrow_toNat (by omega), isqrt_eq_sqrt h]

theorem msegOf_of_lt (h : n.toNat + 1 < s.numSegments.toNat) : s.msegOf n = s.mtpl := by
  unfold State.msegOf
  rw [if_pos (by omega)]

theorem msegOf_of_last (hn : n.toNat + 1 = s.numSegments.toNat) (h1 : 1 ≤ segLow s n) (hle : segLow s n ≤ s.jStop.toNat) :
    (s.msegOf n).toNat = mseg (s.jStop.toNat - (segLow s n - 1)) := by
  have hstop := s.jStop.isLt
  have hd : (s.jStop.toNat - (segLow s n - 1 : Int)).toNat = s.jStop.toNat - (segLow s n - 1) := by omega
  have hfit := mseg_le (s.jStop.toNat - (segLow s n - 1))
  unfold State.msegOf
  rw [lowOf_eq, if_neg (by omega), if_pos (by omega), hd, narrow_toNat (by omega)]

/-- `SEG.SETUP` of a segment that begins in `1 ... stop` computes the segment's registers and writes nothing else. -/
theorem exec_segSetup_of_worker {w : Nat} {k : Worker} (hk : s.workers[w]? = some k) (h1 : 1 ≤ segLow s k.segN)
    (hle : segLow s k.segN ≤ s.jStop.toNat) :
    ∃ l : Worker, exec (.segSetup w) s = .next (s.setWorker w l) ∧
      l = { k with low := l.low, high := l.high, nOff := l.nOff, jOff := l.jOff, q := l.q, mseg := l.mseg } ∧
      SetUpFor s k.segN l := by
  have hstop := s.jStop.isLt
  have hexec : exec (.segSetup w) s = .next (s.setWorker w _) := withWorker_of_some hk _
  refine ⟨_, hexec, rfl, ?_⟩
  exact {
    low   := narrow_toNat_of_eq (lowOf_eq s _) (by omega)
    high  := narrow_toNat_of_eq (highOf_eq h1) (segHigh_lt s _)
    nOff  := narrow_toNat_of_eq (by rw [lowOf_eq]; omega) (by omega)
    jOff  := narrow_toNat_of_eq (by rw [lowOf_eq]; omega) (by omega)
    q     := by dsimp only; rw [highOf_eq h1, rootIndex_toNat (segHigh_lt s _)]
    inner := msegOf_of_lt
    last  := fun hn => msegOf_of_last hn h1 hle }

end

/-- Settles O32: the registers are those of `SetUpFor`; three divides the offset of an aligned segment evenly. -/
theorem setupComputesTheSegment : Obligations.SetupComputesTheSegment := by
  unfold Obligations.SetupComputesTheSegment
  refine ⟨fun _ => rfl, fun s w k hk => ?_⟩
  intro low high h1 hle _
  obtain ⟨l, hexec, hframe, hset⟩ := exec_segSetup_of_worker hk h1 hle
  have halign : low % 6 = 1 → 3 * l.jOff.toNat = l.nOff.toNat ∧ l.jOff.toNat % 2 = 0 := fun h6 => by
    have hlow : segLow s k.segN = low := rfl
    rw [hset.jOff, hset.nOff]
    omega
  exact ⟨_, l, hexec, onlyWorker_setWorker hk l, hframe, hset.low, hset.high, hset.nOff, hset.jOff, hset.q, halign,
    hset.inner, hset.last⟩

end Sys2Proof.Proofs
end

section
/-! The bitset of one worker through `SEG.COPY`, `SEG.CLIP` and `SEG.SIEVE` (R194, R195, R196): each operation completes
and replaces the worker's bitset by one whose bits are given. -/

namespace Sys2Proof.Proofs

open Sys2Proof.Machine Sys2Proof.Laws

/-! ## `SEG.COPY` (R194) -/

/-- A copy of a canonical bitset is the bitset itself. -/
theorem copied_of_wf {X : Bitset} (hX : X.wf) : X.copied = X :=
  bitset_eq_of_bit (copied_wf hX.1) hX rfl (copied_bit hX.1)

/-- `C` is `X` with the seed positions of worker `k`'s window made visible in segment 0. -/
structure SeedsExposed (k : Worker) (nseed : Nat) (X C : Bitset) : Prop where
  keeps   : Keeps X C
  other   : k.segN ≠ 0 → C = X
  origin  : k.segN = 0 → k.low = 1 → ∀ p, C.bit p = if p < 8 then decide (1 ≤ p) else X.bit p
  shifted : k.segN = 0 → k.low ≠ 1 → ∀ p, C.bit p = if 1 ≤ p ∧ p + k.jOff.toNat ≤ nseed then true else X.bit p

theorem originMask_getLsbD {p : Nat} (hp : p < 8) : (0xFE : Byte).getLsbD p = decide (1 ≤ p) := by
  interval_cases p <;> rfl

theorem exists_seedsExposed {k : Worker} {nseed : Nat} {X : Bitset} (hX : Memory.wf X.mem) (h8 : 8 ≤ X.n.toNat)
    (hseed : nseed < 8) : ∃ C, exposeSeeds k nseed X = .next C ∧ SeedsExposed k nseed X C := by
  unfold exposeSeeds
  split
  · next hseg =>
    split
    · next hlow =>
      obtain ⟨C, hC⟩ : ∃ C, X.memWrite 0 0xFE = .next C := ⟨_, memWrite_eq_next.mpr ⟨by unfold bytesFor; omega, rfl⟩⟩
      refine ⟨C, hC, memWrite_keeps hC, fun hne => absurd hseg hne, fun _ _ p => ?_, fun _ hne => absurd hlow hne⟩
      rw [memWrite_bit hX hC]
      by_cases hp : p < 8
      · rw [if_pos (by omega), if_pos hp, Nat.mod_eq_of_lt hp, originMask_getLsbD hp]
      · rw [if_neg (by omega), if_neg hp]
    · next hlow =>
      obtain ⟨C, hC⟩ := writeSeeds_ends true nseed 1 k.jOff.toNat X (by omega)
      obtain ⟨hkeeps, hbit⟩ := writeSeeds_spec hC
      refine ⟨C, hC, hkeeps, fun hne => absurd hseg hne, fun _ h1 => absurd h1 hlow, fun _ _ p => ?_⟩
      rw [hbit hX]
      exact if_congr (by omega) rfl rfl
  · next hseg =>
    exact ⟨X, rfl, Keeps.refl X, fun _ => rfl, fun h => absurd h hseg, fun h => absurd h hseg⟩

section
variable {s : State} {w : Nat} {k : Worker}

theorem exec_segCopy_of_worker (hk : s.workers[w]? = some k) (hwf : s.pst.wf) (h8 : 8 ≤ s.pst.n.toNat)
    (hcap : s.pst.n.toNat ≤ s.params.segCapBits) :
    ∃ C, exec (.segCopy w) s = .next (s.setWorker w { k with sb := C }) ∧ SeedsExposed k s.nseed.toNat s.pst C := by
  obtain ⟨C, hC, hexposed⟩ := exists_seedsExposed (k := k) hwf.1 h8 s.nseed.isLt
  refine ⟨C, ?_, hexposed⟩
  change execSegCopy w s = _
  rw [execSegCopy, withWorker_of_some hk, copy_eq_next.mpr ⟨hcap, rfl⟩, bind_next, copied_of_wf hwf, hC, bind_next]

/-! ## `SEG.CLIP` (R195) -/

theorem clipBelow_spec {js : Word} {p d : Nat} {X : Bitset} (hX : Memory.wf X.mem) (hp : p < X.n.toNat) :
    ∃ C, clipBelow k js p d X = .next C ∧ Keeps X C ∧
      ∀ q, C.bit q = true ↔ X.bit q = true ∧ ¬(q = p ∧ k.nOff.toNat + d < js.toNat) := by
  unfold clipBelow
  split
  · next hbelow =>
    obtain ⟨C, hC⟩ := bitWrite_of_lt (x := false) hp
    refine ⟨C, hC, bitWrite_keeps hC, fun q => ?_⟩
    rw [bitWrite_bit hX hC]
    by_cases hq : q = p <;> simp [hq, hbelow]
  · next habove => exact ⟨X, rfl, Keeps.refl X, fun q => by simp [habove]⟩

theorem clipLow_spec {js : Word} {X : Bitset} (hX : Memory.wf X.mem) (h3 : 3 ≤ X.n.toNat) :
    ∃ C, clipLow k js X = .next C ∧ Keeps X C ∧
      ∀ q, C.bit q = true ↔ X.bit q = true ∧ ¬(k.segN = 0 ∧ q = 1 ∧ k.nOff.toNat + 5 < js.toNat) ∧
        ¬(k.segN = 0 ∧ q = 2 ∧ k.nOff.toNat + 7 < js.toNat) := by
  unfold clipLow
  split
  · next hseg =>
    obtain ⟨B, hB, hkeepsB, hbitB⟩ := clipBelow_spec (k := k) (js := js) (d := 5) hX (show 1 < X.n.toNat by omega)
    have h2 : 2 < B.n.toNat := by rw [hkeepsB.1]; omega
    obtain ⟨C, hC, hkeepsC, hbitC⟩ := clipBelow_spec (k := k) (js := js) (d := 7) (hkeepsB.2.2 hX) h2
    refine ⟨C, by rw [hB, bind_next, hC], hkeepsB.trans hkeepsC, fun q => ?_⟩
    rw [hbitC, hbitB]
    simp only [hseg, true_and, and_assoc]
  · next hseg => exact ⟨X, rfl, Keeps.refl X, fun q => ⟨fun hq => ⟨hq, fun h => hseg h.1, fun h => hseg h.1⟩, And.left⟩⟩

theorem clipHigh_spec {numSegments mtpl : Word} {X : Bitset} (hX : Memory.wf X.mem) (hmtpl : mtpl.toNat < X.n.toNat) :
    ∃ C, clipHigh k numSegments mtpl X = .next C ∧ Keeps X C ∧
      ∀ q, C.bit q = true ↔ X.bit q = true ∧
        ¬(k.segN.toNat + 1 = numSegments.toNat ∧ k.mseg.toNat + 1 ≤ q ∧ q ≤ mtpl.toNat) := by
  unfold clipHigh
  split
  · next hlast =>
    have hnum : k.segN.toNat + 1 = numSegments.toNat := by omega
    obtain ⟨C, hC⟩ := clearFrom_ends (mtpl.toNat + 1 - (k.mseg.toNat + 1)) X (k.mseg.toNat + 1) (by omega)
    obtain ⟨hn, hwf, hbit⟩ := clearFrom_spec hC
    obtain ⟨hmem, hbit⟩ := hbit hX
    refine ⟨C, hC, ⟨hn, hwf, fun _ => hmem⟩, fun q => ?_⟩
    rw [hbit, Bool.and_eq_true, Bool.not_eq_true', decide_eq_false_iff_not]
    exact and_congr_right fun _ => not_congr (by omega)
  · next hlast => exact ⟨X, rfl, Keeps.refl X, fun q => ⟨fun hq => ⟨hq, fun h => hlast (by omega)⟩, And.left⟩⟩

theorem exec_segClip_of_worker (hk : s.workers[w]? = some k) (hX : Memory.wf k.sb.mem) (h3 : 3 ≤ k.sb.n.toNat)
    (hmtpl : s.mtpl.toNat < k.sb.n.toNat) :
    ∃ C, exec (.segClip w) s = .next (s.setWorker w { k with sb := C }) ∧ Keeps k.sb C ∧
      ∀ q, C.bit q = true ↔ k.sb.bit q = true ∧
        ¬(k.segN = 0 ∧ q = 1 ∧ k.nOff.toNat + 5 < s.jStart.toNat) ∧
        ¬(k.segN = 0 ∧ q = 2 ∧ k.nOff.toNat + 7 < s.jStart.toNat) ∧
        ¬(k.segN.toNat + 1 = s.numSegments.toNat ∧ k.mseg.toNat + 1 ≤ q ∧ q ≤ s.mtpl.toNat) := by
  obtain ⟨B, hB, hkeepsB, hbitB⟩ := clipLow_spec (k := k) (js := s.jStart) hX h3
  have hroom : s.mtpl.toNat < B.n.toNat := by rwa [hkeepsB.1]
  obtain ⟨C, hC, hkeepsC, hbitC⟩ := clipHigh_spec (k := k) (numSegments := s.numSegments) (hkeepsB.2.2 hX) hroom
  refine ⟨C, ?_, hkeepsB.trans hkeepsC, fun q => by rw [hbitC, hbitB, and_assoc, and_assoc]⟩
  change execSegClip w s = _
  rw [execSegClip, withWorker_of_some hk, hB, bind_next, hC, bind_next]

/-! ## `SEG.SIEVE` (R196) -/

/-- The index `d` marks in a sieve of the indices after `n` up to `q`: the oracle answers 1 for it. -/
def SievingIndex (qtab : Nat) (spt : Bitset) (n q d : Nat) : Prop :=
  n < d ∧ d ≤ q ∧ oracleTest qtab spt d = .next true

theorem exists_oracleTest {qtab : Nat} {spt : Bitset} (h : qtab < spt.n.toNat) (i : Nat) :
    ∃ b, oracleTest qtab spt i = .next b := by
  unfold oracleTest
  split
  · exact ⟨_, bitRead_of_lt (by omega)⟩
  · exact ⟨_, rfl⟩

theorem sievingIndex_iff_succ {qtab n q : Nat} {spt : Bitset} (hq : n + 1 ≤ q) (d : Nat) :
    SievingIndex qtab spt n q d ↔
      (d = n + 1 ∧ oracleTest qtab spt (n + 1) = .next true) ∨ SievingIndex qtab spt (n + 1) q d := by
  unfold SievingIndex
  constructor
  · rintro ⟨hn, hdq, htest⟩
    by_cases hd : d = n + 1
    · exact .inl ⟨hd, hd ▸ htest⟩
    · exact .inr ⟨by omega, hdq, htest⟩
  · rintro (⟨rfl, htest⟩ | ⟨hn, hdq, htest⟩)
    · exact ⟨by omega, hq, htest⟩
    · exact ⟨by omega, hdq, htest⟩

/-- Each turn advances to the next index and, where the oracle answers 1, clears from the window what that index strikes. -/
theorem sieveLoop_spec {qtab joff mx q t n : Nat} {spt : Bitset} {m : Marker} {X : Bitset} (hq : q ≤ 1431655765)
    (hspt : qtab < spt.n.toNat) (hb : joff + mx + 2 * wheelVal q < 2 ^ 64) (ht : q - n = t) (hm : AfterIndex n m)
    (hX : Memory.wf X.mem) (hmx : mx < X.n.toNat) :
    ∃ m' X', sieveLoop qtab spt joff mx q t m X = .next (m', X') ∧ AfterIndex (n + t) m' ∧ Clears X X' ∧
      ∀ L, 1 ≤ L → (X'.bit L = true ↔ X.bit L = true ∧
        ¬(L ≤ mx ∧ ∃ d, SievingIndex qtab spt n q d ∧ Strikes d (joff + L))) := by
  induction t generalizing n m X with
  | zero =>
    have hnone : ∀ d, ¬ SievingIndex qtab spt n q d := fun d ⟨hd, hdq, _⟩ => by omega
    exact ⟨m, X, by rw [sieveLoop, hm.index, if_neg (by omega)], hm, Clears.refl X, fun L _ => by simp [hnone]⟩
  | succ t ih =>
    have hle : n + 1 ≤ q := by omega
    have hval : wheelVal (n + 1) ≤ wheelVal q := wheelVal_le_iff.mpr hle
    have hindex := sievingIndex_iff_succ (qtab := qtab) (spt := spt) hle
    obtain ⟨b, htest⟩ := exists_oracleTest hspt (n + 1)
    rw [sieveLoop, hm.index, if_pos hle, htest, bind_next, Nat.add_comm t 1, ← Nat.add_assoc]
    cases b with
    | true =>
      obtain ⟨m₁, X₁, hmark, hm₁, hclears₁, hbit₁⟩ := hm.mark_advance (joff := joff) (by omega) hX hmx (by omega)
      obtain ⟨m', X', hloop, hm', hclears, hbit⟩ :=
        ih (by omega) hm₁ (hclears₁.1.2.2 hX) (by rw [hclears₁.1.1]; exact hmx)
      refine ⟨m', X', by rw [if_pos rfl, hmark, bind_next, hloop], hm', hclears₁.trans hclears, fun L hL => ?_⟩
      simp only [hbit L hL, hbit₁ L hL, hindex, htest, and_true, or_and_right, exists_or, exists_eq_left, and_or_left,
        not_or, and_assoc]
    | false =>
      obtain ⟨m', X', hloop, hm', hclears, hbit⟩ := ih (by omega) (hm.advance (by omega)) hX hmx
      refine ⟨m', X', by rw [if_neg Bool.false_ne_true, hloop], hm', hclears, fun L hL => ?_⟩
      simp [hbit L hL, hindex, htest]

/-- R178: the resume registers hold the recurrence after the last seed. -/
theorem afterIndex_load (h : s.resumeOk) (m : Marker) : AfterIndex s.nseed.toNat (m.load s.ri s.rc s.rk s.rt) := by
  rcases h with ⟨hn, hi, hc, hk, ht⟩ | ⟨hn, hi, hc, hk, ht⟩ <;> rw [hn, hi, hc, hk, ht] <;> exact ⟨rfl, rfl, rfl, rfl⟩

theorem exec_segSieve_of_worker (hk : s.workers[w]? = some k) (hresume : s.resumeOk) (hq : k.q.toNat ≤ 1431655765)
    (hspt : s.qtab.toNat < s.spt.n.toNat) (hX : Memory.wf k.sb.mem) (hmx : k.mseg.toNat < k.sb.n.toNat)
    (hb : k.jOff.toNat + k.mseg.toNat + 2 * wheelVal k.q.toNat < 2 ^ 64) :
    ∃ m C, exec (.segSieve w) s = .next (s.setWorker w { k with m := m, sb := C }) ∧
      AfterIndex (s.nseed.toNat + (k.q.toNat - s.nseed.toNat)) m ∧ Clears k.sb C ∧
      ∀ L, 1 ≤ L → (C.bit L = true ↔ k.sb.bit L = true ∧ ¬(L ≤ k.mseg.toNat ∧
        ∃ d, SievingIndex s.qtab.toNat s.spt s.nseed.toNat k.q.toNat d ∧ Strikes d (k.jOff.toNat + L))) := by
  have hload := afterIndex_load hresume k.m
  obtain ⟨m, C, hloop, hm, hclears, hbit⟩ := sieveLoop_spec hq hspt hb rfl hload hX hmx
  refine ⟨m, C, ?_, hm, hclears, hbit⟩
  change execSegSieve w s = _
  simp only [execSegSieve, withWorker_of_some hk, hload.index, Nat.add_sub_add_right, hloop, bind_next]

end

end Sys2Proof.Proofs
end

section
/-! The finished segment (R197). In a legal job the copied template is the segment's window struck by the seed indices; the
clip cuts it to the range, and the sieve strikes it by every further prime index up to the root of the segment's end, so
that what is left are the primes. -/

namespace Sys2Proof.Proofs

open Sys2Proof.Machine Sys2Proof.Laws

/-! ## The job's configuration (R177, R242, R245) -/

theorem six_dvd_modulusOf (stop : Nat) : 6 ∣ modulusOf stop := by
  unfold modulusOf
  split <;> decide

theorem le_modulusOf (stop : Nat) : 510510 ≤ modulusOf stop := by
  unfold modulusOf
  split <;> decide

theorem nseedOf_cases (stop : Nat) : nseedOf stop = 5 ∨ nseedOf stop = 6 := by
  unfold nseedOf
  split
  · exact .inl rfl
  · exact .inr rfl

/-- The template repeats with its modulus: every seed prime divides it. -/
theorem seedPrime_dvd_modulusOf {stop p : Nat} (h : p ∈ seedPrimes (nseedOf stop)) : p ∣ modulusOf stop := by
  have hfive : ∀ p ∈ seedPrimes 5, p ∣ 510510 := by decide
  have hsix : ∀ p ∈ seedPrimes 6, p ∣ 9699690 := by decide
  unfold nseedOf at h
  unfold modulusOf
  split at h
  · next hsmall => rw [if_pos hsmall]; exact hfive p h
  · next hlarge => rw [if_neg hlarge]; exact hsix p h

/-- R242, R243: the adjusted start is aligned and at most 10 below the start. -/
theorem startAdjOf_spec {start : Nat} (h : 1 ≤ start) :
    startAdjOf start % 6 = 1 ∧ startAdjOf start ≤ start ∧ start ≤ startAdjOf start + 10 := by
  unfold startAdjOf
  split <;> omega

/-! ## What a worker's bitset holds -/

/-- `X` has the length of the job's segments, position 0 clear, and holds exactly the positions `P` up to `MTPL`. -/
structure HoldsExactly (s : State) (P : Nat → Prop) (X : Bitset) : Prop where
  wf     : X.wf
  length : X.n.toNat = s.mtpl.toNat + 1
  zero   : X.bit 0 = false
  bit    : ∀ L, 1 ≤ L → L ≤ s.mtpl.toNat → (X.bit L = true ↔ P L)

/-- No seed index strikes local position `L` of worker `l`'s window. -/
def Unseeded (s : State) (l : Worker) (L : Nat) : Prop :=
  ∀ d, SeedIndex s.nseed.toNat d → ¬ Strikes d (l.jOff.toNat + L)

/-- The integer of local position `L` of worker `l`'s window lies in the job's range. -/
def InRange (s : State) (l : Worker) (L : Nat) : Prop :=
  s.jStart.toNat ≤ l.nOff.toNat + wheelVal L ∧ l.nOff.toNat + wheelVal L ≤ s.jStop.toNat

/-- A computation that only clears keeps the length, the form and the clear position 0. -/
theorem HoldsExactly.of_clears {s : State} {P Q : Nat → Prop} {X Y : Bitset} (h : HoldsExactly s P X) (hc : Clears X Y)
    (hbit : ∀ L, 1 ≤ L → L ≤ s.mtpl.toNat → (Y.bit L = true ↔ Q L)) : HoldsExactly s Q Y := by
  obtain ⟨⟨hn, hwf, -⟩, hclears⟩ := hc
  exact {
    wf     := hwf h.wf
    length := by rw [hn, h.length]
    zero   := Bool.eq_false_iff.mpr fun h0 => Bool.eq_false_iff.mp h.zero (hclears h.wf.1 0 h0)
    bit    := hbit }

/-- The first seven wheel integers are primes, which nothing strikes. -/
theorem not_strikes_of_lt_eight {a d : Nat} (h1 : 1 ≤ a) (h8 : a < 8) (hd : 1 ≤ d) : ¬ Strikes d a := by
  have hprime : (wheelVal a).Prime := by
    interval_cases a <;> decide
  exact fun h => h.not_prime hd hprime

/-- A segment but the first begins a width or more above the adjusted start. -/
theorem startAdj_add_width_le {s : State} {n : Word} (h : n ≠ 0) : s.startAdj.toNat + s.stepSize.toNat ≤ segLow s n := by
  have hpos : 0 < n.toNat := Nat.pos_of_ne_zero fun h0 => h (BitVec.eq_of_toNat_eq h0)
  exact Nat.add_le_add_left (Nat.le_mul_of_pos_right _ hpos) _

theorem SeedsExposed.bit_zero {k : Worker} {nseed : Nat} {X C : Bitset} (hC : SeedsExposed k nseed X C)
    (hX : X.bit 0 = false) : C.bit 0 = false := by
  by_cases h0 : k.segN = 0
  · by_cases hone : k.low = 1
    · rw [hC.origin h0 hone]; rfl
    · rw [hC.shifted h0 hone, if_neg (by omega), hX]
  · rw [hC.other h0, hX]

section
variable {s : State} (hs : s.tablesReady)
include hs

theorem nseed_cases : s.nseed.toNat = 5 ∨ s.nseed.toNat = 6 := hs.nseed ▸ nseedOf_cases _

theorem six_dvd_width : 6 ∣ s.stepSize.toNat := (six_dvd_modulusOf _).trans hs.width

theorem le_width : 510510 ≤ s.stepSize.toNat := (le_modulusOf _).trans (Nat.le_of_dvd hs.widthPos hs.width)

theorem startAdj_spec :
    s.startAdj.toNat % 6 = 1 ∧ s.startAdj.toNat ≤ s.jStart.toNat ∧ s.jStart.toNat ≤ s.startAdj.toNat + 10 :=
  hs.startAdj ▸ startAdjOf_spec hs.startPos

/-- R246, R247: the segments are those that begin at or below `stop`. -/
theorem lt_numSegments_iff (n : Nat) :
    n < s.numSegments.toNat ↔ s.startAdj.toNat + s.stepSize.toNat * n ≤ s.jStop.toNat := by
  obtain ⟨-, hadj, -⟩ := startAdj_spec hs
  have hstart := hs.startStop
  rw [hs.segments, Nat.lt_add_one_iff, Nat.le_div_iff_mul_le hs.widthPos, Nat.mul_comm]
  omega

theorem segLow_mod_six (n : Word) : segLow s n % 6 = 1 := by
  obtain ⟨halign, -, -⟩ := startAdj_spec hs
  have hdvd := (six_dvd_width hs).mul_right n.toNat
  unfold segLow
  omega

/-- The segment after an inner one begins at or below `stop`. -/
theorem segLow_add_width_le {n : Word} (h : n.toNat + 1 < s.numSegments.toNat) :
    segLow s n + s.stepSize.toNat ≤ s.jStop.toNat := by
  have := (lt_numSegments_iff hs _).mp h
  rwa [Nat.mul_succ, ← Nat.add_assoc] at this

/-- The last segment holds `stop`. -/
theorem lt_segLow_add_width {n : Word} (h : n.toNat + 1 = s.numSegments.toNat) :
    s.jStop.toNat < segLow s n + s.stepSize.toNat := by
  have := mt (lt_numSegments_iff hs _).mpr h.not_lt
  rwa [Nat.mul_succ, ← Nat.add_assoc, Nat.not_le] at this

/-! ## The window of a segment (R191, R192) -/

section
variable {n : Word} {l : Worker} (hl : SetUpFor s n l)
include hl

/-- Local positions stand for the wheel indices above the offset. -/
theorem nOff_add_wheelVal (L : Nat) : l.nOff.toNat + wheelVal L = wheelVal (l.jOff.toNat + L) := by
  have hlow := segLow_mod_six hs n
  rw [hl.nOff, hl.jOff]
  unfold wheelVal
  omega

/-- The windows of two segments differ by whole widths, which no seed prime sees. -/
theorem seedPrime_dvd_window_iff {p : Nat} (hp : p ∈ seedPrimes s.nseed.toNat) (L : Nat) :
    p ∣ wheelVal (l.jOff.toNat + L) ↔ p ∣ wheelVal ((s.startAdj.toNat - 1) / 3 + L) := by
  obtain ⟨halign, -, -⟩ := startAdj_spec hs
  have hsix := (six_dvd_width hs).mul_right n.toNat
  have hshift : wheelVal (l.jOff.toNat + L) =
      s.stepSize.toNat * n.toNat + wheelVal ((s.startAdj.toNat - 1) / 3 + L) := by
    rw [hl.jOff]
    unfold segLow wheelVal
    omega
  have hdvd : p ∣ s.stepSize.toNat :=
    (seedPrime_dvd_modulusOf (stop := s.jStop.toNat) (hs.nseed ▸ hp)).trans hs.width
  rw [hshift, Nat.dvd_add_right (hdvd.mul_right _)]

/-- R181 in the window of any segment: the template holds the indices above the seeds that no seed strikes. -/
theorem pst_bit_iff {L : Nat} (h1 : 1 ≤ L) (hL : L ≤ s.mtpl.toNat) :
    s.pst.bit L = true ↔ s.nseed.toNat < l.jOff.toNat + L ∧ Unseeded s l L := by
  rw [Unseeded, hs.pstContent L h1 hL, ← seedPrimes_not_dvd_iff (nseed_cases hs) (Nat.le_add_left_of_le h1)]
  exact forall₂_congr fun p hp => not_congr (seedPrime_dvd_window_iff hs hl hp L).symm

section
variable (hn : n.toNat < s.numSegments.toNat)
include hn

theorem mseg_le_mtpl : l.mseg.toNat ≤ s.mtpl.toNat := by
  have hlow := segLow_mod_six hs n
  have hstop : segLow s n ≤ s.jStop.toNat := (lt_numSegments_iff hs _).mp hn
  rcases Nat.lt_or_eq_of_le hn with hinner | hlast
  · rw [hl.inner hinner]
  · have hend := lt_segLow_add_width hs hlast
    rw [hl.last hlast, hs.mtpl]
    exact (mseg_lt_of_le_width (by omega) (six_dvd_width hs) (by omega)).le

/-- Up to `MSEG` stand the positions whose integers do not pass `stop`. -/
theorem le_mseg_iff_le_stop {L : Nat} (hL : L ≤ s.mtpl.toNat) :
    L ≤ l.mseg.toNat ↔ wheelVal (l.jOff.toNat + L) ≤ s.jStop.toNat := by
  have hlow := segLow_mod_six hs n
  have hstop : segLow s n ≤ s.jStop.toNat := (lt_numSegments_iff hs _).mp hn
  rw [← nOff_add_wheelVal hs hl, hl.nOff]
  rcases Nat.lt_or_eq_of_le hn with hinner | hlast
  · have hnext := segLow_add_width_le hs hinner
    have hsix := six_dvd_width hs
    have hmtpl := hs.mtpl
    rw [hl.inner hinner]
    refine iff_of_true hL ?_
    unfold wheelVal
    omega
  · rw [hl.last hlast, le_mseg_iff (by omega)]
    omega

/-- R161: what strikes a position up to `MSEG` lies up to the root of the segment's end, though the last position of an
inner segment stands for the integer just above it. -/
theorem le_q_of_strikes {L d : Nat} (hL : L ≤ l.mseg.toNat) (h : Strikes d (l.jOff.toNat + L)) : d ≤ l.q.toNat := by
  have hlow := segLow_mod_six hs n
  have hsix := six_dvd_width hs
  have hmtpl := hs.mtpl
  have hLmtpl := hL.trans (mseg_le_mtpl hs hl hn)
  have hstop := (le_mseg_iff_le_stop hs hl hn hLmtpl).mp hL
  have hend : wheelVal (l.jOff.toNat + L) ≤ segHigh s n + 1 := by
    rw [← nOff_add_wheelVal hs hl, hl.nOff] at hstop ⊢
    unfold segHigh
    unfold wheelVal at hstop ⊢
    omega
  have hsq : wheelVal d * wheelVal d ≤ wheelVal (l.jOff.toNat + L) := by
    obtain ⟨e, he⟩ := h
    rw [he]
    exact Nat.mul_le_mul_left _ (wheelVal_le_iff.mpr (Nat.le_add_right d e))
  have hroot : wheelVal d ≤ Nat.sqrt (segHigh s n) + 1 :=
    Nat.mul_self_le_mul_self_iff.mp ((hsq.trans hend).trans (Nat.succ_le_succ_sqrt _))
  rw [hl.q]
  unfold wheelVal at hroot
  omega

end

/-! ## The range (R195) -/

/-- What the clip takes from the low end are the integers below the start. -/
theorem jStart_le_iff (hseg : l.segN = n) {L : Nat} (h1 : 1 ≤ L) :
    s.jStart.toNat ≤ l.nOff.toNat + wheelVal L ↔
      ¬(l.segN = 0 ∧ L = 1 ∧ l.nOff.toNat + 5 < s.jStart.toNat) ∧
      ¬(l.segN = 0 ∧ L = 2 ∧ l.nOff.toNat + 7 < s.jStart.toNat) := by
  have hlow := segLow_mod_six hs n
  have hoff := hl.nOff
  rw [hseg]
  obtain ⟨-, -, hstart⟩ := startAdj_spec hs
  by_cases h0 : n = 0
  · have hfirst : segLow s n = s.startAdj.toNat := by simp [segLow, h0]
    simp only [h0, true_and]
    unfold wheelVal
    omega
  · have hfar := startAdj_add_width_le (s := s) h0
    have hwidth := le_width hs
    simp only [h0, false_and, not_false_eq_true, and_true, iff_true]
    unfold wheelVal
    omega

/-- What the clip leaves of the window is the range. -/
theorem not_clipped_iff (hseg : l.segN = n) (hn : n.toNat < s.numSegments.toNat) {L : Nat} (h1 : 1 ≤ L)
    (hL : L ≤ s.mtpl.toNat) :
    (¬(l.segN = 0 ∧ L = 1 ∧ l.nOff.toNat + 5 < s.jStart.toNat) ∧
      ¬(l.segN = 0 ∧ L = 2 ∧ l.nOff.toNat + 7 < s.jStart.toNat) ∧
      ¬(l.segN.toNat + 1 = s.numSegments.toNat ∧ l.mseg.toNat + 1 ≤ L ∧ L ≤ s.mtpl.toNat)) ↔ InRange s l L := by
  have hhigh : ¬(l.segN.toNat + 1 = s.numSegments.toNat ∧ l.mseg.toNat + 1 ≤ L ∧ L ≤ s.mtpl.toNat) ↔
      l.nOff.toNat + wheelVal L ≤ s.jStop.toNat := by
    rw [nOff_add_wheelVal hs hl, ← le_mseg_iff_le_stop hs hl hn hL, hseg]
    rcases Nat.lt_or_eq_of_le hn with hinner | hlast
    · rw [hl.inner hinner]
      omega
    · omega
  rw [InRange, hhigh, jStart_le_iff hs hl hseg h1, and_assoc]

/-! ## The copied template (R181, R194) -/

/-- A position of the copy either stands for a prime below 25, and is set, or is the template's and stands for an
integer above the seeds. -/
theorem SeedsExposed.bit_cases {C : Bitset} (hC : SeedsExposed l s.nseed.toNat s.pst C) (hseg : l.segN = n) {L : Nat}
    (h1 : 1 ≤ L) :
    C.bit L = true ∧ l.jOff.toNat + L < 8 ∨ C.bit L = s.pst.bit L ∧ s.nseed.toNat < l.jOff.toNat + L := by
  have hjOff := hl.jOff
  have hnseed := nseed_cases hs
  by_cases h0 : l.segN = 0
  · by_cases hone : l.low = 1
    · have horigin : l.jOff.toNat = 0 := by rw [hjOff, ← hl.low, hone]; rfl
      rw [hC.origin h0 hone]
      split
      · exact .inl ⟨decide_eq_true h1, by omega⟩
      · exact .inr ⟨rfl, by omega⟩
    · rw [hC.shifted h0 hone]
      split
      · exact .inl ⟨rfl, by omega⟩
      · exact .inr ⟨rfl, by omega⟩
  · have hfar := startAdj_add_width_le (s := s) (hseg ▸ h0)
    have hwidth := le_width hs
    rw [hC.other h0]
    exact .inr ⟨rfl, by omega⟩

/-- `SEG.COPY` leaves what no seed index strikes: the seeds themselves, which the template lacks, are visible again in the
one segment that holds them. -/
theorem SeedsExposed.holdsExactly {C : Bitset} (hC : SeedsExposed l s.nseed.toNat s.pst C) (hseg : l.segN = n) :
    HoldsExactly s (Unseeded s l) C := by
  refine ⟨hC.keeps.2.1 hs.pstWf, by rw [hC.keeps.1, hs.pstLength], hC.bit_zero hs.pstZero, fun L h1 hL => ?_⟩
  rcases hC.bit_cases hs hl hseg h1 with ⟨hset, hsmall⟩ | ⟨htemplate, habove⟩
  · exact iff_of_true hset fun d hd => not_strikes_of_lt_eight (by omega) hsmall hd.1
  · rw [htemplate, pst_bit_iff hs hl h1 hL, and_iff_right habove]

end

/-! ## Primes are what is left -/

/-- The oracle answers 1 for every prime above 5 (R172, R173). -/
theorem oracleTest_of_prime {d : Nat} (h2 : 2 ≤ d) (hp : (wheelVal d).Prime) :
    oracleTest s.qtab.toNat s.spt d = .next true := by
  have hlen := hs.sptLength
  unfold oracleTest
  split
  · next htable =>
    rw [bitRead_of_lt (by omega), (hs.sptContent d (by omega) htable).mpr (Nat.prime_def.mp hp)]
  · next hbeyond =>
    have hfive : ¬ 5 ∣ wheelVal d := fun h => by
      have heq := (Nat.prime_dvd_prime_iff_eq Nat.prime_five hp).mp h
      unfold wheelVal at heq
      omega
    rw [decide_eq_true (by omega)]

/-- R197: up to `MSEG` the primes are what neither a seed nor a further index of the sieve strikes. -/
theorem prime_window_iff {n : Word} {l : Worker} (hl : SetUpFor s n l) (hn : n.toNat < s.numSegments.toNat) {L : Nat}
    (h1 : 1 ≤ L) (hL : L ≤ l.mseg.toNat) :
    (l.nOff.toNat + wheelVal L).Prime ↔ Unseeded s l L ∧
      ¬ ∃ d, SievingIndex s.qtab.toNat s.spt s.nseed.toNat l.q.toNat d ∧ Strikes d (l.jOff.toNat + L) := by
  rw [nOff_add_wheelVal hs hl]
  constructor
  · intro hp
    refine ⟨fun d hd hstrikes => hstrikes.not_prime hd.1 hp, ?_⟩
    rintro ⟨d, ⟨hd, -, -⟩, hstrikes⟩
    exact hstrikes.not_prime (by omega) hp
  · rintro ⟨hseeds, hsieve⟩
    by_contra hp
    obtain ⟨d, hd1, -, hdp, hstrikes⟩ := exists_prime_strikes (by omega) hp
    have hnseed := nseed_cases hs
    rcases Nat.lt_or_ge s.nseed.toNat d with hbig | hseed
    · exact hsieve ⟨d, ⟨hbig, le_q_of_strikes hs hl hn hL hstrikes, oracleTest_of_prime hs (by omega) hdp⟩, hstrikes⟩
    · exact hseeds d ⟨hd1, hseed⟩ hstrikes

/-! ## The four operations -/

/-- The indices of a segment fit the registers of the marking recurrence (R160, R192). -/
theorem sieve_registers_fit {n : Word} {l : Worker} (hl : SetUpFor s n l) (hn : n.toNat < s.numSegments.toNat) :
    l.q.toNat ≤ 1431655765 ∧ l.jOff.toNat + l.mseg.toNat + 2 * wheelVal l.q.toNat < 2 ^ 64 := by
  have hroot : Nat.sqrt (segHigh s n) < 2 ^ 32 := Nat.sqrt_lt.mpr (segHigh_lt s n)
  have hq := hl.q
  have hjOff := hl.jOff
  have hlow := (lt_numSegments_iff hs _).mp hn
  have hstop := s.jStop.isLt
  have hmseg := mseg_le_mtpl hs hl hn
  have hmtpl := hs.mtpl
  have hwidth := hs.widthBound
  refine ⟨by omega, ?_⟩
  unfold segLow at hjOff
  unfold wheelVal
  omega

section
variable {n : Word} {l : Worker} (hl : SetUpFor s n l) {w : Nat} {k : Worker} (hk : s.workers[w]? = some k)
include hl hk

theorem exists_copiedSegment (hseg : l.segN = n) :
    ∃ A, exec (.segCopy w) (s.setWorker w l) = .next (s.setWorker w { l with sb := A }) ∧
      HoldsExactly s (Unseeded s l) A := by
  have hlen := hs.pstLength
  have h8 : 8 ≤ s.pst.n.toNat := by
    have := le_width hs
    have := hs.mtpl
    omega
  obtain ⟨A, hcopy, hA⟩ := exec_segCopy_of_worker (setWorker_self hk l) hs.pstWf h8 (hlen.trans_le hs.capacity)
  rw [setWorker_setWorker] at hcopy
  exact ⟨A, hcopy, SeedsExposed.holdsExactly hs hl hA hseg⟩

section
variable (hn : n.toNat < s.numSegments.toNat)
include hn

theorem exists_clippedSegment (hseg : l.segN = n) {A : Bitset} (hA : HoldsExactly s (Unseeded s l) A) :
    ∃ B, exec (.segClip w) (s.setWorker w { l with sb := A }) = .next (s.setWorker w { l with sb := B }) ∧
      HoldsExactly s (fun L => Unseeded s l L ∧ InRange s l L) B := by
  have hlen := hA.length
  have h3 : 3 ≤ A.n.toNat := by
    have := le_width hs
    have := hs.mtpl
    omega
  obtain ⟨B, hclip, hB, hbit⟩ := exec_segClip_of_worker (setWorker_self hk { l with sb := A }) hA.wf.1 h3
    (Nat.lt_of_lt_of_eq (Nat.lt_succ_self _) hlen.symm)
  rw [setWorker_setWorker] at hclip
  refine ⟨B, hclip, hA.of_clears ⟨hB, fun _ p hp => ((hbit p).mp hp).1⟩ fun L h1 hL => ?_⟩
  exact (hbit L).trans (and_congr (hA.bit L h1 hL) (not_clipped_iff hs hl hseg hn h1 hL))

theorem exists_sievedSegment {B : Bitset} (hB : HoldsExactly s (fun L => Unseeded s l L ∧ InRange s l L) B) :
    ∃ m C, exec (.segSieve w) (s.setWorker w { l with sb := B }) = .next (s.setWorker w { l with m := m, sb := C }) ∧
      HoldsExactly s (fun L => InRange s l L ∧ (l.nOff.toNat + wheelVal L).Prime) C := by
  obtain ⟨hq, hfit⟩ := sieve_registers_fit hs hl hn
  have hroom : l.mseg.toNat < B.n.toNat := hB.length ▸ Nat.lt_succ_of_le (mseg_le_mtpl hs hl hn)
  have hspt : s.qtab.toNat < s.spt.n.toNat := by
    have := hs.sptLength
    omega
  obtain ⟨m, C, hsieve, -, hclears, hbit⟩ :=
    exec_segSieve_of_worker (setWorker_self hk { l with sb := B }) hs.resume hq hspt hB.wf.1 hroom hfit
  rw [setWorker_setWorker] at hsieve
  refine ⟨m, C, hsieve, hB.of_clears hclears fun L h1 hL => ?_⟩
  have hreach : InRange s l L → L ≤ l.mseg.toNat := fun h =>
    (le_mseg_iff_le_stop hs hl hn hL).mpr (nOff_add_wheelVal hs hl L ▸ h.2)
  refine (hbit L h1).trans ((and_congr_left' (hB.bit L h1 hL)).trans ?_)
  constructor
  · rintro ⟨⟨hseeds, hrange⟩, hsieved⟩
    exact ⟨hrange, (prime_window_iff hs hl hn h1 (hreach hrange)).mpr ⟨hseeds, fun h => hsieved ⟨hreach hrange, h⟩⟩⟩
  · rintro ⟨hrange, hp⟩
    obtain ⟨hseeds, hsieved⟩ := (prime_window_iff hs hl hn h1 (hreach hrange)).mp hp
    exact ⟨⟨hseeds, hrange⟩, fun h => hsieved h.2⟩

end

end

end

/-- Settles O37: the copy leaves what no seed strikes, the clip the range of it, and the sieve the primes of that. -/
theorem finishedSegmentHoldsThePrimes : Obligations.FinishedSegmentHoldsThePrimes := by
  unfold Obligations.FinishedSegmentHoldsThePrimes
  intro s w k hs hk hn
  have hlow := segLow_mod_six hs k.segN
  obtain ⟨l, hsetup, hframe, hl⟩ := exec_segSetup_of_worker hk (by omega) ((lt_numSegments_iff hs _).mp hn)
  have hseg : l.segN = k.segN := by rw [hframe]
  have hphase : l.wphase = k.wphase := by rw [hframe]
  have hlacc : l.lacc = k.lacc := by rw [hframe]
  have hobuf : l.obuf = k.obuf := by rw [hframe]
  obtain ⟨A, hcopy, hA⟩ := exists_copiedSegment hs hl hk hseg
  obtain ⟨B, hclip, hB⟩ := exists_clippedSegment hs hl hk hn hseg hA
  obtain ⟨m, C, hsieve, hC⟩ := exists_sievedSegment hs hl hk hn hB
  have hrun : runOps [.segSetup w, .segCopy w, .segClip w, .segSieve w] s =
      .next (s.setWorker w { l with m := m, sb := C }) := by
    simp only [runOps, hsetup, bind_next, hcopy, hclip, hsieve]
  refine ⟨_, _, hrun, onlyWorker_setWorker hk _, hseg, hphase, hlacc, hobuf, hl.nOff, hC.wf, hC.length, hC.zero,
    fun L h1 hL => ?_⟩
  have hval : l.nOff.toNat + 3 * L + 1 + L % 2 = l.nOff.toNat + wheelVal L := by
    unfold wheelVal
    omega
  rw [hval, ← and_assoc]
  exact hC.bit L h1 hL

end Sys2Proof.Proofs
end

section
/-! The aggregator and the decimal formatter (R223, R225, R227). A digit of a value is a quotient by a power of ten in the
model and a remainder in `Nat.digits`; the two meet at the last digit. `AGG.SUM` and `AGG.PRINT` run over the positions
`1 ... MSEG`, whose integers are exact where they fit a register. -/

namespace Sys2Proof.Proofs

open Sys2Proof.Machine Sys2Proof.Laws

/-! ## The digits of a value (R227) -/

/-- The byte of one decimal digit. -/
def digitByte (d : Nat) : Byte := BitVec.ofNat 8 (0x30 + d)

theorem digitByte_eq_zero_iff {d : Nat} (h : d < 10) : digitByte d = 0x30 ↔ d = 0 := by
  unfold digitByte
  bv_omega

/-- The last of the digit bytes is the remainder by ten, the others are those of the quotient. -/
theorem digitBytes_succ (d v : Nat) : digitBytes (d + 1) v = digitBytes d (v / 10) ++ [digitByte (v % 10)] := by
  induction d with
  | zero => simp [digitBytes, digitByte]
  | succ d ih =>
    have hlead : v / 10 ^ (d + 1) = v / 10 / 10 ^ d := by rw [Nat.pow_succ', Nat.div_div_eq_div_mul]
    rw [digitBytes, ih, hlead, digitBytes, List.cons_append]

theorem digitBytes_one {v : Nat} (h1 : 1 ≤ v) (hv : v < 10) :
    digitBytes 1 v = (Nat.digits 10 v).reverse.map digitByte := by
  rw [Nat.digits_of_lt 10 v (by omega) hv, digitBytes_succ, Nat.mod_eq_of_lt hv]
  rfl

theorem digitBytes_digitCount {k v : Nat} (h1 : 1 ≤ v) (hv : v < 10 ^ (k + 1)) :
    digitBytes (digitCount k v) v = (Nat.digits 10 v).reverse.map digitByte := by
  induction k generalizing v with
  | zero => exact digitBytes_one h1 (by simpa using hv)
  | succ k ih =>
    rw [digitCount]
    split
    case isTrue hlt => exact digitBytes_one h1 hlt
    case isFalse hge =>
      have hquot : v / 10 < 10 ^ (k + 1) := Nat.div_lt_of_lt_mul (by rwa [← Nat.pow_succ'])
      rw [Nat.add_comm, digitBytes_succ, ih (by omega) hquot, Nat.digits_def' (by decide) h1, List.reverse_cons,
        List.map_append, List.map_singleton]

/-- Twenty digits hold every 64-bit value. -/
theorem toNat_lt_ten_pow (v : Word) : v.toNat < 10 ^ 20 :=
  v.isLt.trans (by norm_num)

theorem decimalLine_eq {v : Word} (h1 : 1 ≤ v.toNat) :
    decimalLine v = (Nat.digits 10 v.toNat).reverse.map digitByte ++ [0x0A] := by
  rw [decimalLine, digitBytes_digitCount h1 (toNat_lt_ten_pow v)]

theorem head?_digitBytes_ne_zero {n : Nat} (h1 : 1 ≤ n) : ((Nat.digits 10 n).reverse.map digitByte).head? ≠ some 0x30 := by
  have hne : Nat.digits 10 n ≠ [] := Nat.digits_ne_nil_iff_ne_zero.mpr (by omega)
  have hlt : (Nat.digits 10 n).getLast hne < 10 := Nat.digits_lt_base (by decide) (List.getLast_mem hne)
  rw [List.head?_map, List.head?_reverse, List.getLast?_eq_getLast_of_ne_nil hne, Option.map_some, ne_eq, Option.some.injEq,
    digitByte_eq_zero_iff hlt]
  exact Nat.getLast_digit_ne_zero 10 (by omega)

/-! ## What a segment answers for (R221, R223, R225) -/

theorem small_eq_true_iff {s : State} {k : Worker} {p : Nat} :
    s.small k p = true ↔ k.low = 1 ∧ s.jStart.toNat ≤ p ∧ p ≤ s.jStop.toNat := by
  simp [State.small, and_assoc]

theorem small_toNat (s : State) (k : Worker) (p : Nat) :
    (s.small k p).toNat = if k.low = 1 ∧ s.jStart.toNat ≤ p ∧ p ≤ s.jStop.toNat then 1 else 0 := by
  simp only [← small_eq_true_iff]
  cases s.small k p <;> rfl

/-- The exact integer of local position `L` of the worker's segment. -/
def localInteger (k : Worker) (L : Nat) : Nat := k.nOff.toNat + 3 * L + 1 + L % 2

theorem wheelDecode_toNat_eq_localInteger {k : Worker} {L : Nat} (h1 : 1 ≤ L) (h : localInteger k L < 2 ^ 64) :
    (wheelDecode k.nOff L).toNat = localInteger k L := by
  have hval : localInteger k L = k.nOff.toNat + wheelVal L := by
    unfold localInteger wheelVal
    omega
  rw [hval] at h ⊢
  exact wheelDecode_toNat (by omega) h

/-- The integer of every set position of the segment fits a register (R198 b). -/
def SetPositionsFit (k : Worker) : Prop :=
  ∀ L, 1 ≤ L → L ≤ k.mseg.toNat → k.sb.bit L = true → localInteger k L < 2 ^ 64

theorem flatMap_ite_eq_filter_flatMap {α β : Type} (p : α → Bool) (f : α → List β) (l : List α) :
    (l.flatMap fun a => if p a then f a else []) = (l.filter p).flatMap f := by
  induction l with
  | nil => rfl
  | cons a l ih => cases h : p a <;> simp [h, ih]

section
variable {s : State} {w : Nat} {k : Worker}

theorem SetPositionsFit.sumFrom_eq (hfit : SetPositionsFit k) (hmseg : k.mseg.toNat < k.sb.n.toNat) (acc : Nat) :
    sumFrom k.nOff k.sb k.mseg.toNat 1 acc =
      .next (acc + ∑ L ∈ Finset.Icc 1 k.mseg.toNat, if k.sb.bit L then localInteger k L else 0) := by
  rw [sumFrom_spec _ _ _ _ _ (.inl (by omega)), ← List.sum_toFinset _ List.nodup_range', List.toFinset_range'_1_1]
  congr 2
  refine Finset.sum_congr rfl fun L hL => ite_congr rfl (fun hbit => ?_) fun _ => rfl
  obtain ⟨h1, hle⟩ := Finset.mem_Icc.mp hL
  exact wheelDecode_toNat_eq_localInteger h1 (hfit L h1 hle hbit)

theorem SetPositionsFit.printFrom_eq (hfit : SetPositionsFit k) (hmseg : k.mseg.toNat < k.sb.n.toNat)
    (text : List Byte) :
    printFrom k.nOff k.sb k.mseg.toNat 1 text =
      .next (text ++ ((List.range' 1 k.mseg.toNat).filter fun L => k.sb.bit L).flatMap fun L =>
        decimalLine (BitVec.ofNat 64 (localInteger k L))) := by
  rw [printFrom_spec _ _ _ _ _ (.inl (by omega)), flatMap_ite_eq_filter_flatMap]
  congr 2
  refine List.flatMap_congr fun L hL => ?_
  obtain ⟨hrange, hbit⟩ := List.mem_filter.mp hL
  obtain ⟨h1, hle⟩ := List.mem_range'_1.mp hrange
  rw [← wheelDecode_toNat_eq_localInteger h1 (hfit L h1 (by omega) hbit), BitVec.ofNat_toNat, BitVec.setWidth_eq]

/-! ## The operations -/

theorem exec_aggSum_of_worker (hk : s.workers[w]? = some k) (hmseg : k.mseg.toNat < k.sb.n.toNat)
    (hfit : SetPositionsFit k) :
    exec (.aggSum w) s = .next (s.setWorker w { k with
      lacc := BitVec.ofNat 64 (2 * (s.small k 2).toNat + 3 * (s.small k 3).toNat +
        ∑ L ∈ Finset.Icc 1 k.mseg.toNat, if k.sb.bit L then localInteger k L else 0) }) := by
  change execAggSum w s = _
  rw [execAggSum, withWorker_of_some hk, hfit.sumFrom_eq hmseg, bind_next]

theorem exec_aggPrint_of_worker (hk : s.workers[w]? = some k) (hmseg : k.mseg.toNat < k.sb.n.toNat)
    (hfit : SetPositionsFit k) :
    exec (.aggPrint w) s = .next (s.setWorker w { k with
      obuf := k.obuf ++ (if s.small k 2 then decimalLine 2 else []) ++ (if s.small k 3 then decimalLine 3 else []) ++
        ((List.range' 1 k.mseg.toNat).filter fun L => k.sb.bit L).flatMap fun L =>
          decimalLine (BitVec.ofNat 64 (localInteger k L)) }) := by
  change execAggPrint w s = _
  rw [execAggPrint, withWorker_of_some hk]
  dsimp only
  rw [hfit.printFrom_eq hmseg, bind_next]

theorem exec_fmtDec_of_worker (hk : s.workers[w]? = some k) (v : Word) :
    exec (.fmtDec w v) s = .next (s.setWorker w { k with obuf := k.obuf ++ decimalLine v }) := by
  change execFmtDec w v s = _
  rw [execFmtDec, withWorker_of_some hk]

end

/-! ## The statements -/

/-- Settles O41: the digit bytes are those of `Nat.digits`, whose last one is not 0 and whose number the width bounds. -/
theorem formatterAppendsTheDecimalLine : Obligations.FormatterAppendsTheDecimalLine := by
  unfold Obligations.FormatterAppendsTheDecimalLine
  refine ⟨fun _ => rfl, fun s w k v hk h1 => ?_⟩
  have hne : Nat.digits 10 v.toNat ≠ [] := Nat.digits_ne_nil_iff_ne_zero.mpr (by omega)
  have hlen : (Nat.digits 10 v.toNat).length ≤ 20 := (Nat.digits_length_le_iff (by decide) _).mpr (toNat_lt_ten_pow v)
  refine ⟨_, (Nat.digits 10 v.toNat).reverse.map digitByte, exec_fmtDec_of_worker hk v, ?_, rfl, ?_, ?_,
    head?_digitBytes_ne_zero h1⟩
  · rw [decimalLine_eq h1, ← List.append_assoc]
    exact onlyWorker_setWorker hk _
  · simpa [Nat.one_le_iff_ne_zero] using hne
  · simpa using hlen

/-- Settles O39: the loop adds the exact integers, and `LACC` keeps their sum modulo 2^64. -/
theorem sumIsTakenModuloTwoToTheSixtyFour : Obligations.SumIsTakenModuloTwoToTheSixtyFour := by
  unfold Obligations.SumIsTakenModuloTwoToTheSixtyFour
  refine ⟨fun _ => rfl, fun s w k hk hmseg hfit => ?_⟩
  refine ⟨_, _, exec_aggSum_of_worker hk hmseg hfit, onlyWorker_setWorker hk _, ?_⟩
  rw [BitVec.toNat_ofNat, small_toNat, small_toNat]
  rfl

/-- Settles O40: the lines of 2 and 3 are evaluated; the others are those of the set positions, in the loop's order. -/
theorem printAppendsTheLinesInOrder : Obligations.PrintAppendsTheLinesInOrder := by
  unfold Obligations.PrintAppendsTheLinesInOrder
  refine ⟨fun _ => rfl, fun s w k hk hmseg hfit => ?_⟩
  refine ⟨_, _, _, exec_aggPrint_of_worker hk hmseg hfit, fun h2 => ?two, fun h2 => ?noTwo, fun h3 => ?three,
    fun h3 => ?noThree, onlyWorker_setWorker hk _⟩
  case two => rw [if_pos (small_eq_true_iff.mpr h2)]; decide
  case noTwo => exact if_neg (mt small_eq_true_iff.mp h2)
  case three => rw [if_pos (small_eq_true_iff.mpr h3)]; decide
  case noThree => exact if_neg (mt small_eq_true_iff.mp h3)

end Sys2Proof.Proofs
end

section
/-! The scheduler and the gate (R241 to R250, R263, R264): the input check, the configuration of a job and its errors,
the segments as a partition of the adjusted range, and how a segment is handed out and retired. -/

namespace Sys2Proof.Proofs

open Sys2Proof.Machine Sys2Proof.Laws

/-! ## The segments of a job (R242, R246, R247) -/

theorem startAdjOf_eq_one_iff {start : Nat} : startAdjOf start = 1 ↔ start ≤ 11 := by
  unfold startAdjOf
  split <;> omega

/-- R243: how far the adjusted start lies below the start. -/
theorem sub_startAdjOf {start : Nat} : start - startAdjOf start = if 5 < start then start % 6 + 5 else start - 1 := by
  unfold startAdjOf
  split <;> omega

section
variable {adj stop width : Nat}

theorem segmentsOf_toNat (h1 : 1 ≤ adj) (hle : adj ≤ stop) (hstop : stop < 2 ^ 64) (hw : 0 < width) :
    (segmentsOf stop adj width).toNat = (stop - adj) / width + 1 := by
  have hfit : (stop - adj) / width ≤ stop - adj := Nat.div_le_self _ _
  have hexact : ((stop : Int) - adj) / width + 1 = ((stop - adj) / width + 1 : Nat) := by
    rw [← Int.ofNat_sub hle]
    push_cast
    rfl
  rw [segmentsOf, if_neg hw.ne']
  exact narrow_toNat_of_eq hexact (by omega)

/-- The segments are those that begin at or below `stop`. -/
theorem lt_segmentsOf_iff (h1 : 1 ≤ adj) (hle : adj ≤ stop) (hstop : stop < 2 ^ 64) (hw : 0 < width) (n : Nat) :
    n < (segmentsOf stop adj width).toNat ↔ adj + width * n ≤ stop := by
  rw [segmentsOf_toNat h1 hle hstop hw, Nat.lt_add_one_iff, Nat.le_div_iff_mul_le hw, Nat.mul_comm]
  omega

/-- The segment of an integer of the range is its distance from the adjusted start in widths. -/
theorem mem_segment_iff {v : Nat} (hv : adj ≤ v) (hstop : v ≤ stop) (hw : 0 < width) (n : Nat) :
    adj + width * n ≤ v ∧ v ≤ min (adj + width * n + width - 1) stop ↔ n = (v - adj) / width := by
  rw [eq_comm, Nat.div_eq_iff hw, Nat.mul_comm n width]
  omega

end

/-- Settles O44: the segments are the blocks of `width` integers from the adjusted start on that begin at or below
`stop`, so the segment of an integer is a quotient by `width`. -/
theorem segmentsPartitionTheAdjustedRange : Obligations.SegmentsPartitionTheAdjustedRange := by
  unfold Obligations.SegmentsPartitionTheAdjustedRange
  refine ⟨fun start h1 => ?adjusted, fun start stop width h1 hle hstop hw h6 => ?partition⟩
  case adjusted =>
    obtain ⟨halign, hadj, -⟩ := startAdjOf_spec h1
    have hsub := sub_startAdjOf (start := start)
    refine ⟨halign, by omega, startAdjOf_eq_one_iff, fun h5 => ?_, fun h5 => ?_, hadj, ?_⟩
    · rwa [if_pos h5] at hsub
    · rwa [if_neg (by omega)] at hsub
    · split at hsub <;> omega
  case partition =>
    obtain ⟨halign, hadj, -⟩ := startAdjOf_spec h1
    intro low high count
    have hcount (n : Nat) : n < count ↔ low n ≤ stop := lt_segmentsOf_iff (by omega) (by omega) hstop hw n
    have hnext (n : Nat) : low (n + 1) = low n + width := by simp only [low, Nat.mul_succ, Nat.add_assoc]
    have hpos : 1 ≤ count := (hcount 0).mpr (by simp only [low]; omega)
    have hlast : stop < low (count - 1) + width := by
      rw [← hnext, Nat.sub_add_cancel hpos, ← Nat.not_le, ← hcount]
      exact lt_irrefl _
    refine ⟨hpos, fun n hn => ⟨(hcount n).mp hn, ?aligned, ?nonempty⟩, fun n hn => ?adjacent, ?ends,
      fun hone => ?single, fun v hv hvs => ?unique⟩
    case aligned =>
      have hdvd : 6 ∣ width * n := h6.mul_right n
      simp only [low]
      omega
    case nonempty =>
      have hbegin := (hcount n).mp hn
      exact le_min (by omega) hbegin
    case adjacent =>
      have hbegin := (hcount (n + 1)).mp hn
      rw [hnext] at hbegin ⊢
      simp only [high]
      omega
    case ends => exact min_eq_right (by omega)
    case single =>
      have hrange : stop - (low (count - 1) - 1) = 1 := by omega
      rw [hrange]
      rfl
    case unique =>
      have hmem (n : Nat) : low n ≤ v ∧ v ≤ high n ↔ n = (v - startAdjOf start) / width :=
        mem_segment_iff hv hvs hw n
      obtain ⟨hlow, hhigh⟩ := (hmem _).mpr rfl
      exact ⟨_, ⟨(hcount _).mpr (hlow.trans hvs), hlow, hhigh⟩, fun n hn => (hmem n).mp hn.2⟩

/-! ## The input check (R248) -/

/-- The state with the arguments of the job latched. -/
def latched (s : State) : State := { s with jStart := s.start, jStop := s.stop, jMode := s.mode }

theorem exec_schCheck (s : State) : exec .schCheck s =
    .next (if (latched s).badInput then (latched s).raise .inputError else { latched s with phase := .config }) := rfl

theorem badInput_iff (s : State) : s.badInput = true ↔
    s.jMode = 3 ∨ s.jStart = 0 ∨ s.jStop.toNat < s.jStart.toNat ∨ stopMax < s.jStop.toNat := by
  simp only [State.badInput, Bool.or_eq_true, beq_iff_eq, decide_eq_true_eq, or_assoc]

/-- Settles O42: the operation branches on `badInput` of the latched arguments. -/
theorem checkLatchesAndRejectsBadInput : Obligations.CheckLatchesAndRejectsBadInput := by
  unfold Obligations.CheckLatchesAndRejectsBadInput
  refine ⟨fun _ => rfl, fun s _ => ⟨fun hbad => ?_, fun hok => ?_⟩⟩
  · rw [exec_schCheck, if_pos ((badInput_iff (latched s)).mpr hbad)]
    rfl
  · rw [exec_schCheck, if_neg (mt (badInput_iff (latched s)).mp hok)]
    rfl

/-! ## The configuration (R241) -/

/-- A table that doubles once more at each of `n` rising thresholds counts the thresholds reached. -/
theorem scaleExp_map_range {f : Nat → Nat} (hf : Monotone f) (stop n : Nat) :
    scaleExp ((List.range n).map fun e => (f e, e + 1)) stop = (List.range n).countP fun e => decide (f e ≤ stop) := by
  induction n with
  | zero => rfl
  | succ n ih =>
    unfold scaleExp at ih ⊢
    rw [List.range_succ, List.map_append, List.foldl_append, List.countP_append, ih]
    by_cases hn : f n ≤ stop
    · have hall : (List.range n).countP (fun e => decide (f e ≤ stop)) = n := by
        rw [List.countP_eq_length.mpr, List.length_range]
        intro e he
        exact decide_eq_true ((hf (List.mem_range.mp he).le).trans hn)
      simp [hn, hall]
    · simp [hn]

theorem default_scaleTable :
    Params.default.scaleTable = (List.range 7).map fun e => (10 ^ (13 + e), e + 1) := by decide

theorem autostep_pos (p : Params) (stop : Nat) : 0 < autostep p stop := by
  unfold autostep
  split
  · decide
  · exact Nat.mul_pos (by decide) (Nat.two_pow_pos _)

/-- R174: the oracle's last index is that of the root of `stop`. -/
theorem qtabOf_of_none {p : Params} {stop : Nat} (h : stop < 2 ^ 64) (hcap : p.qCap = none) :
    qtabOf p stop = Nat.sqrt stop / 3 := by
  rw [← isqrt_eq_sqrt h]
  simp only [qtabOf, hcap]

/-- R174: a cap bounds the oracle's last index. -/
theorem qtabOf_of_some {p : Params} {stop cap : Nat} (h : stop < 2 ^ 64) (hcap : p.qCap = some cap) :
    qtabOf p stop = min (Nat.sqrt stop / 3) cap := by
  rw [← isqrt_eq_sqrt h]
  simp only [qtabOf, hcap]

theorem qtabOf_lt (p : Params) {stop : Nat} (h : stop < 2 ^ 64) : qtabOf p stop < 2 ^ 32 := by
  have hroot : Nat.sqrt stop < 2 ^ 32 := isqrt_eq_sqrt h ▸ isqrt_lt h
  cases hcap : p.qCap with
  | none => rw [qtabOf_of_none h hcap]; omega
  | some cap => rw [qtabOf_of_some h hcap]; omega

section
variable {s : State}

theorem configBegun_startAdj_toNat (h1 : 1 ≤ s.jStart.toNat) :
    s.configBegun.startAdj.toNat = startAdjOf s.jStart.toNat := by
  obtain ⟨-, hadj, -⟩ := startAdjOf_spec h1
  exact (BitVec.toNat_ofNat _ _).trans (Nat.mod_eq_of_lt (hadj.trans_lt s.jStart.isLt))

theorem configBegun_nseed_of_small (h : s.jStop.toNat < 10 ^ 12) : s.configBegun.nseed = 5 := by
  simp only [State.configBegun, nseedOf, if_pos h]
  rfl

theorem configBegun_nseed_of_large (h : ¬ s.jStop.toNat < 10 ^ 12) : s.configBegun.nseed = 6 := by
  simp only [State.configBegun, nseedOf, if_neg h]
  rfl

theorem badStep_iff (s : State) :
    s.badStep = true ↔ s.stepCfg ≠ 0 ∧ s.stepCfg.toNat % modulusOf s.jStop.toNat ≠ 0 := by
  simp only [State.badStep, Bool.and_eq_true, bne_iff_ne, decide_eq_true_eq]

/-- R244: the width the job runs at. -/
def widthOf (s : State) : Nat := if s.stepCfg = 0 then autostep s.params s.jStop.toNat else s.stepCfg.toNat

theorem widthOf_pos (s : State) : 0 < widthOf s := by
  unfold widthOf
  split
  · exact autostep_pos _ _
  · next hcfg => exact Nat.pos_of_ne_zero fun h0 => hcfg (BitVec.eq_of_toNat_eq h0)

theorem stepChosen_toNat (hauto : autostep s.params s.jStop.toNat < 2 ^ 62) : s.stepChosen.toNat = widthOf s := by
  unfold State.stepChosen widthOf
  split
  · exact narrow_toNat (hauto.trans (by decide))
  · rfl

theorem configSized_mtpl_toNat (hauto : autostep s.params s.jStop.toNat < 2 ^ 62) :
    s.configSized.mtpl.toNat = widthOf s / 3 := by
  have hfit := s.stepChosen.isLt
  rw [← stepChosen_toNat hauto]
  exact (BitVec.toNat_ofNat _ _).trans (Nat.mod_eq_of_lt (by omega))

theorem configSized_numSegments_toNat (h1 : 1 ≤ s.jStart.toNat) (hle : s.jStart.toNat ≤ s.jStop.toNat)
    (hauto : autostep s.params s.jStop.toNat < 2 ^ 62) :
    s.configSized.numSegments.toNat = (s.jStop.toNat - s.configBegun.startAdj.toNat) / widthOf s + 1 := by
  obtain ⟨halign, hadj, -⟩ := startAdjOf_spec h1
  rw [configBegun_startAdj_toNat h1, ← stepChosen_toNat hauto]
  exact segmentsOf_toNat (by omega) (hadj.trans hle) s.jStop.isLt (stepChosen_toNat hauto ▸ widthOf_pos s)

theorem configSized_qtab_toNat (s : State) : s.configSized.qtab.toNat = qtabOf s.params s.jStop.toNat :=
  narrow_toNat (qtabOf_lt s.params s.jStop.isLt)

theorem overCapacity_configSized_iff (hauto : autostep s.params s.jStop.toNat < 2 ^ 62) :
    s.configSized.overCapacity = true ↔
      s.params.sptCapBits < s.configSized.qtab.toNat + 2 ∨ s.params.segCapBits < widthOf s / 3 + 1 := by
  rw [← configSized_mtpl_toNat hauto]
  simp only [State.overCapacity, Bool.or_eq_true, decide_eq_true_eq]
  rfl

theorem exec_schConfig_of_badStep (h : s.badStep = true) :
    exec .schConfig s = .next (s.configBegun.raise .configurationError) := by
  change execSchConfig s = _
  rw [execSchConfig, if_pos h]

theorem exec_schConfig_of_overCapacity (h : ¬ s.badStep = true) (hcap : s.configSized.overCapacity = true) :
    exec .schConfig s = .next (s.configSized.raise .allocationError) := by
  change execSchConfig s = _
  rw [execSchConfig, if_neg h, if_pos hcap]

theorem exec_schConfig_of_fits (h : ¬ s.badStep = true) (hcap : ¬ s.configSized.overCapacity = true) :
    exec .schConfig s = .next s.configSized.configDone := by
  change execSchConfig s = _
  rw [execSchConfig, if_neg h, if_neg hcap]

end

/-- Settles O43: `SCH.CONFIG` has three outcomes, which agree in the registers written before the branch. -/
theorem configComputesTheJob : Obligations.ConfigComputesTheJob := by
  unfold Obligations.ConfigComputesTheJob
  refine ⟨fun _ => rfl, fun stop => ?scale, fun s _ h1 hle _ => ?config⟩
  case scale =>
    rw [default_scaleTable]
    exact scaleExp_map_range (fun d e h => Nat.pow_le_pow_right (by decide) (by omega)) stop 7
  case config =>
    intro small modulus auto width root hauto
    have hadj := configBegun_startAdj_toNat h1
    have hmtpl := configSized_mtpl_toNat hauto
    have hsegs := configSized_numSegments_toNat h1 hle hauto
    have hcap := overCapacity_configSized_iff hauto
    have hqtab := configSized_qtab_toNat s
    have hnone : s.params.qCap = none → s.configSized.qtab.toNat = root :=
      fun h => hqtab.trans (qtabOf_of_none s.jStop.isLt h)
    have hsome (c : Nat) : s.params.qCap = some c → s.configSized.qtab.toNat = min root c :=
      fun h => hqtab.trans (qtabOf_of_some s.jStop.isLt h)
    by_cases hbad : s.badStep = true
    · obtain ⟨hcfg, hmod⟩ := (badStep_iff s).mp hbad
      exact ⟨_, exec_schConfig_of_badStep hbad, hadj, configBegun_nseed_of_small, configBegun_nseed_of_large,
        fun _ _ => rfl, fun hgood => (hgood.elim hcfg hmod).elim⟩
    · have hgood (hcfg : s.stepCfg ≠ 0) (hmod : s.stepCfg.toNat % modulus ≠ 0) : False :=
        hbad ((badStep_iff s).mpr ⟨hcfg, hmod⟩)
      by_cases hover : s.configSized.overCapacity = true
      · exact ⟨_, exec_schConfig_of_overCapacity hbad hover, hadj, configBegun_nseed_of_small,
          configBegun_nseed_of_large, fun hcfg hmod => (hgood hcfg hmod).elim,
          fun _ => ⟨stepChosen_toNat hauto, hmtpl, hsegs, hnone, hsome, fun _ => rfl,
            fun hfits => (hfits (hcap.mp hover)).elim⟩⟩
      · exact ⟨_, exec_schConfig_of_fits hbad hover, hadj, configBegun_nseed_of_small,
          configBegun_nseed_of_large, fun hcfg hmod => (hgood hcfg hmod).elim,
          fun _ => ⟨stepChosen_toNat hauto, hmtpl, hsegs, hnone, hsome,
            fun hexceeds => (hover (hcap.mpr hexceeds)).elim, fun _ => rfl⟩⟩

/-! ## Handing out and retiring a segment (R250, R263, R264) -/

theorem narrow_add_one {a : Word} (h : a.toNat + 1 < 2 ^ 64) : narrow 64 ((a.toNat : Int) + 1) = a + 1 :=
  narrow_add_of_lt (b := 1) h

section
variable {s : State} {w : Nat} {k : Worker}

theorem dispatchEnabled_iff (s : State) (k : Worker) : s.dispatchEnabled k = true ↔
    s.phase = .parallel ∧ k.wphase = .idle ∧ s.nextDispatch.toNat < s.numSegments.toNat ∧ s.failFlag = false := by
  simp only [State.dispatchEnabled, Bool.and_eq_true, beq_iff_eq, decide_eq_true_eq, Bool.not_eq_true', and_assoc]

theorem exec_schDispatch_of_enabled (hk : s.workers[w]? = some k) (he : s.dispatchEnabled k = true) :
    exec (.schDispatch w) s = .next (({ s with nextDispatch := s.nextDispatch + 1 } : State).setWorker w
      { k with segN := s.nextDispatch, wphase := .setup }) := by
  obtain ⟨-, -, hleft, -⟩ := (dispatchEnabled_iff s k).mp he
  change execSchDispatch w s = _
  rw [execSchDispatch, withWorker_of_some hk, if_pos he, narrow_add_one (by have := s.numSegments.isLt; omega)]
  rfl

theorem exec_gatePass_of_worker (hk : s.workers[w]? = some k) (hticket : s.nextTicket.toNat + 1 < 2 ^ 64)
    (hretired : s.retired.toNat + 1 < 2 ^ 64) :
    exec (.gatePass w) s = .next
      (({ s with nextTicket := s.nextTicket + 1, retired := s.retired + 1 } : State).setWorker w
        { k with wphase := .idle }) := by
  change execGatePass w s = _
  rw [execGatePass, withWorker_of_some hk, narrow_add_one hticket, narrow_add_one hretired]
  rfl

theorem exec_schFail_of_worker (hk : s.workers[w]? = some k) (hretired : s.retired.toNat + 1 < 2 ^ 64) :
    exec (.schFail w) s = .next (({ s with retired := s.retired + 1 } : State).setWorker w
      { k with wphase := .idle, obuf := [] }) := by
  change execSchFail w s = _
  rw [execSchFail, withWorker_of_some hk, narrow_add_one hretired]
  rfl

end

/-- Settles O45: the hypotheses are the operation's enabling condition, and a segment left means the counter has room. -/
theorem dispatchHandsOutTheNextSegment : Obligations.DispatchHandsOutTheNextSegment := by
  unfold Obligations.DispatchHandsOutTheNextSegment
  refine ⟨fun _ => rfl, fun s w k hk hp hidle hleft hfail => ?_⟩
  have hroom := s.numSegments.isLt
  refine ⟨_, exec_schDispatch_of_enabled hk ((dispatchEnabled_iff s k).mpr ⟨hp, hidle, hleft, hfail⟩),
    onlyWorker_setWorker (by exact hk) _, ?_⟩
  exact BitVec.toNat_add_of_lt (y := 1) (show s.nextDispatch.toNat + 1 < 2 ^ 64 by omega)

/-- Settles O49: each operation is one worker replaced and the counters one more. -/
theorem passAndFailRetireTheSegment : Obligations.PassAndFailRetireTheSegment := by
  unfold Obligations.PassAndFailRetireTheSegment
  refine ⟨fun _ => ⟨rfl, rfl⟩, fun s w k hk hretired => ⟨fun _ hticket => ?pass, fun _ => ?fail⟩⟩
  case pass => exact ⟨_, exec_gatePass_of_worker hk hticket hretired, onlyWorker_setWorker (by exact hk) _⟩
  case fail => exact ⟨_, exec_schFail_of_worker hk hretired, onlyWorker_setWorker (by exact hk) _⟩

end Sys2Proof.Proofs
end

section
/-! The host's writes (R281, R283 to R288): what a write leaves while `BUSY` and while not, and the commands of `CTRL` as
the two writes to it, one that starts a job and one that stores the mode. -/

namespace Sys2Proof.Proofs

open Sys2Proof.Machine Sys2Proof.Laws

section
variable {s : State}

/-! ## The two writes to `CTRL` (R281, R288) -/

theorem go_of_busy (hb : s.busy = true) (mode : BitVec 2) : s.go mode = s := if_pos hb

theorem go_of_not_busy (hb : s.busy = false) (mode : BitVec 2) : s.go mode = s.acceptGo mode := if_neg (by simp [hb])

theorem storeMode_of_busy (hb : s.busy = true) (mode : BitVec 2) : s.storeMode mode = s := if_pos hb

theorem storeMode_of_not_busy (hb : s.busy = false) (mode : BitVec 2) : s.storeMode mode = { s with mode := mode } :=
  if_neg (by simp [hb])

/-- The four commands that start a job are `GO` writes, each with the mode of its own (R284 to R287). -/
theorem exec_goCommand {i : Instr} {m : BitVec 2}
    (h : (i, m) ∈ [(Instr.sieveCount, 0#2), (.sieveSum, 1#2), (.sievePrint, 2#2), (.sieveRsvd, 3#2)]) (s : State) :
    exec i s = .next (s.go m) := by
  simp only [List.mem_cons, List.not_mem_nil, or_false, Prod.mk.injEq] at h
  rcases h with ⟨rfl, rfl⟩ | ⟨rfl, rfl⟩ | ⟨rfl, rfl⟩ | ⟨rfl, rfl⟩ <;> rfl

theorem exec_ctrlMode (m : BitVec 2) (s : State) : exec (.ctrlMode m) s = .next (s.storeMode m) := rfl

/-! ## `HOST.WR` (R283) -/

theorem offsetOk_iff (off : BitVec 7) : offsetOk off = true ↔ off.toNat % 8 = 0 ∧ off.toNat ≤ 0x50 := by
  simp [offsetOk]

theorem exec_hostWr_of_busy {off : BitVec 7} (hoff : offsetOk off = true) (hb : s.busy = true) (data : Word) :
    exec (.hostWr off data) s = .next s := by
  change execHostWr off data s = _
  rw [execHostWr, if_pos hoff, if_pos hb]

theorem exec_hostWr_of_not_busy {off : BitVec 7} (hoff : offsetOk off = true) (hb : s.busy = false) (data : Word) :
    exec (.hostWr off data) s = .next (s.regWrite off data) := by
  change execHostWr off data s = _
  rw [execHostWr, if_pos hoff, if_neg (by simp [hb])]

/-- The registers from 0x20 on are read-only (R49). -/
theorem regWrite_of_readOnly {off : BitVec 7} (h : 0x20 ≤ off.toNat) (s : State) (data : Word) :
    s.regWrite off data = s := by
  unfold State.regWrite
  split
  case h_5 => rfl
  all_goals omega

end

/-- Settles O52: while not `BUSY` a write is the register's own, and a write to `CTRL` runs as the command it holds. -/
theorem hostWriteStoresUnlessBusy : Obligations.HostWriteStoresUnlessBusy := by
  unfold Obligations.HostWriteStoresUnlessBusy
  refine fun s data => ⟨fun hb off hmod hle => exec_hostWr_of_busy ((offsetOk_iff off).mpr ⟨hmod, hle⟩) hb data,
    fun hb => ⟨?start, ?stop, ?stepCfg, ?ctrl, fun off hmod hro hle => ?readOnly⟩⟩
  case start => exact exec_hostWr_of_not_busy (by decide) hb data
  case stop => exact exec_hostWr_of_not_busy (by decide) hb data
  case stepCfg => exact exec_hostWr_of_not_busy (by decide) hb data
  case ctrl => exact (exec_hostWr_of_not_busy (by decide) hb data).trans (exec_decodeCtrl data s).symm
  case readOnly => rw [exec_hostWr_of_not_busy ((offsetOk_iff off).mpr ⟨hmod, hle⟩) hb, regWrite_of_readOnly hro]

/-- Settles O53: each command is one of the two writes to `CTRL`, and `BUSY` decides what that write does. -/
theorem goStartsAJobUnlessBusy : Obligations.GoStartsAJobUnlessBusy := by
  unfold Obligations.GoStartsAJobUnlessBusy
  refine fun s => ⟨fun i m hi => ⟨fun hb => ?goIgnored, fun hb => ⟨s.acceptGo m, ?goAccepted, rfl⟩⟩,
    fun m => ⟨fun hb => ?modeIgnored, fun hb => ?modeStored⟩⟩
  case goIgnored => rw [exec_goCommand hi, go_of_busy hb]
  case goAccepted => rw [exec_goCommand hi, go_of_not_busy hb]
  case modeIgnored => rw [exec_ctrlMode, storeMode_of_busy hb]
  case modeStored => rw [exec_ctrlMode, storeMode_of_not_busy hb]

end Sys2Proof.Proofs
end

section
/-! The external reset (R340, R56). What the host reads after it, and that the state right after reset is one the
external reset leaves as it is, so that what holds after the one holds of the other. -/

namespace Sys2Proof.Proofs

open Sys2Proof.Machine Sys2Proof.Laws

theorem exec_hostRd_of_regRead? {s : State} {off : BitVec 7} {v : Word} (h : s.regRead? off = some v) :
    exec (.hostRd off) s = .next { s with hostData := v, reads := s.reads + 1 } := by
  change execHostRd off s = _
  rw [execHostRd, h]

/-- The block is not `BUSY` after reset, so `STATUS` and the counters show their present values, which are 0 like the
other registers'. -/
theorem externalReset_regRead? (s : State) {off : BitVec 7} (hoff : offsetOk off = true) :
    s.externalReset.regRead? off = some 0 := by
  obtain ⟨hmod, hle⟩ := (offsetOk_iff off).mp hoff
  have hphase (pick : Nat) : s.externalReset.phaseShown pick = 0 := (phaseShown_spec _ pick).1 (externalReset_busy s)
  have hcounter (atGo now : Word) (pick : Nat) : s.externalReset.counterShown atGo now pick = now :=
    (counterShown_spec _ atGo now pick).1 (externalReset_busy s)
  unfold State.regRead?
  split
  case h_5 => rw [hphase]; rfl
  case h_10 => rw [hcounter, externalReset_nextTicket]
  case h_11 => rw [hcounter, externalReset_nextDispatch]
  case h_12 => grind
  all_goals rfl

theorem externalReset_atReset (s : State) : s.externalReset.atReset := by
  refine ⟨fun off hmod hle => ?reads, externalReset_phase s, externalReset_failFlag s, externalReset_acc s,
    externalReset_retired s, externalReset_nextDispatch s, externalReset_nextTicket s, fun k hk => ?workers⟩
  case reads =>
    exact ⟨_, exec_hostRd_of_regRead? (externalReset_regRead? s ((offsetOk_iff off).mpr ⟨hmod, hle⟩)), rfl⟩
  case workers =>
    rw [externalReset_workers] at hk
    obtain ⟨-, rfl⟩ := List.mem_replicate.mp hk
    exact ⟨rfl, rfl⟩

@[simp] theorem resetOf_workers_length (p : Params) (nw : Nat) : (State.resetOf p nw).workers.length = nw :=
  List.length_replicate

theorem externalReset_resetOf (p : Params) (nw : Nat) : (State.resetOf p nw).externalReset = State.resetOf p nw := by
  rw [State.externalReset, resetOf_workers_length]
  rfl

theorem step_of_reset {s : State} {rest : List Event} (h : s.events = .reset :: rest) :
    step s = .next ({ s with events := rest } : State).externalReset := by
  rw [step, h]
  rfl

/-- Settles O55: both states are ones the external reset leaves. -/
theorem resetLeavesTheStatedValues : Obligations.ResetLeavesTheStatedValues := by
  unfold Obligations.ResetLeavesTheStatedValues
  refine ⟨fun p nw => ⟨?atReset, resetOf_workers_length p nw⟩, fun s rest hs =>
    ⟨_, step_of_reset hs, externalReset_atReset _, externalReset_sink _, externalReset_events _,
      externalReset_params _, ?workers⟩⟩
  case atReset => exact externalReset_resetOf p nw ▸ externalReset_atReset (State.resetOf p nw)
  case workers => rw [externalReset_workers, List.length_replicate]

end Sys2Proof.Proofs
end

section
/-! Commands (R90 to R99): the bytes of a table word hold the word, and the fields of a register access and of a `CTRL`
value are read back where they were packed. -/

namespace Sys2Proof.Proofs

open Sys2Proof.Machine

/-! ## The bytes of a word -/

theorem length_bytesOfNat (k w : Nat) : (bytesOfNat k w).length = k := by
  induction k generalizing w with
  | zero => rfl
  | succ k ih => rw [bytesOfNat, List.length_cons, ih]

theorem natOfBytes_bytesOfNat (k w : Nat) : natOfBytes (bytesOfNat k w) = w % 256 ^ k := by
  induction k generalizing w with
  | zero => rw [bytesOfNat, natOfBytes, Nat.pow_zero, Nat.mod_one]
  | succ k ih =>
    rw [bytesOfNat, natOfBytes, ih, BitVec.toNat_ofNat, pow_succ' 256 k]
    exact Nat.mod_mul.symm

theorem natOfBytes_bytesOfNat_of_lt {k w : Nat} (h : w < 256 ^ k) : natOfBytes (bytesOfNat k w) = w := by
  rw [natOfBytes_bytesOfNat, Nat.mod_eq_of_lt h]

theorem tableCommand_unit {w : Nat} (h : w < 2 ^ 8) : tableCommand 8 w = some (.unit (BitVec.ofNat 8 w) {}) := by
  simp only [tableCommand, tableBytes, commandOfBytes, length_bytesOfNat]
  rw [natOfBytes_bytesOfNat_of_lt (by simpa using h)]

theorem tableCommand_ctrl {w : Nat} (h : w < 2 ^ 64) : tableCommand 64 w = some (.ctrl (BitVec.ofNat 64 w)) := by
  simp only [tableCommand, tableBytes, commandOfBytes, length_bytesOfNat]
  rw [natOfBytes_bytesOfNat_of_lt (by simpa using h)]

theorem tableCommand_reg {w : Nat} (h : w < 2 ^ 72) : tableCommand 72 w = some (.reg (BitVec.ofNat 72 w)) := by
  simp only [tableCommand, tableBytes, commandOfBytes, length_bytesOfNat]
  rw [natOfBytes_bytesOfNat_of_lt (by simpa using h)]

/-- A table word decodes as the command its bytes hold. -/
theorem decodeTableWord_eq_some {nbits w : Nat} {i : Instr} :
    decodeTableWord nbits w = some i ↔ ∃ c, tableCommand nbits w = some c ∧ decode c = .ok i := by
  unfold decodeTableWord tableCommand decodeBytes
  cases commandOfBytes (tableBytes nbits w) with
  | error e => simp
  | ok c => cases hc : decode c <;> simp [hc]

/-! ## The fields of a register access (R91) -/

theorem regAccess_toNat (dir : Bool) (off : BitVec 7) (data : Word) :
    (regAccess dir off data).toNat = dir.toNat + 2 * off.toNat + 256 * data.toNat := by
  have hdir := dir.toNat_lt
  rw [regAccess, BitVec.toNat_ofNat]
  omega

theorem regAccess_dir (dir : Bool) (off : BitVec 7) (data : Word) : (regAccess dir off data).getLsbD 0 = dir := by
  rw [BitVec.getLsbD, regAccess_toNat, Nat.testBit_zero]
  cases dir <;> simp <;> omega

theorem regAccess_off (dir : Bool) (off : BitVec 7) (data : Word) :
    (regAccess dir off data).extractLsb' 1 7 = off := by
  have hdir := dir.toNat_lt
  refine BitVec.eq_of_toNat_eq ?_
  rw [BitVec.extractLsb'_toNat, regAccess_toNat, Nat.shiftRight_eq_div_pow]
  omega

theorem regAccess_data (dir : Bool) (off : BitVec 7) (data : Word) :
    (regAccess dir off data).extractLsb' 8 64 = data := by
  have hdir := dir.toNat_lt
  refine BitVec.eq_of_toNat_eq ?_
  rw [BitVec.extractLsb'_toNat, regAccess_toNat, Nat.shiftRight_eq_div_pow]
  omega

theorem decodeReg_write (off : BitVec 7) (data : Word) : decodeReg (regAccess true off data) = .hostWr off data := by
  rw [decodeReg, regAccess_dir, if_pos rfl, regAccess_off, regAccess_data]

theorem decodeReg_read (off : BitVec 7) : decodeReg (regAccess false off 0) = .hostRd off := by
  rw [decodeReg, regAccess_dir, if_neg Bool.false_ne_true, regAccess_off]

/-! ## The fields of a `CTRL` value (R92) -/

theorem decodeCtrl_mode (mode : BitVec 2) : decodeCtrl (ctrlValue false mode) = .ctrlMode mode := by
  revert mode
  decide

/-- The bits above `MODE` are ignored. -/
theorem decodeCtrl_and_seven (data : Word) : decodeCtrl (data &&& 7) = decodeCtrl data := by
  have hgo : ctrlGo (data &&& 7) = ctrlGo data := by
    rw [ctrlGo, BitVec.getLsbD_and]
    exact Bool.and_true _
  have hmode : ctrlModeField (data &&& 7) = ctrlModeField data := by
    unfold ctrlModeField
    rw [BitVec.extractLsb'_and]
    exact BitVec.and_allOnes
  rw [decodeCtrl, hgo, hmode, ← decodeCtrl]

/-! ## The statements -/

/-- A unit code and the wires of its operands decode to the operation. -/
theorem decode_encode (i : Instr) : decode (encode i) = .ok i := by
  cases i with
  | hostRd off => exact congrArg Except.ok (decodeReg_read off)
  | hostWr off data => exact congrArg Except.ok (decodeReg_write off data)
  | ctrlMode mode => exact congrArg Except.ok (decodeCtrl_mode mode)
  | _ => rfl

theorem decodeTableWord_reg {access : BitVec 72} {i : Instr} (h : decode (.reg access) = .ok i) :
    decodeTableWord 72 access.toNat = some i := by
  have hc := tableCommand_reg access.isLt
  rw [BitVec.ofNat_toNat, BitVec.setWidth_eq] at hc
  exact decodeTableWord_eq_some.mpr ⟨_, hc, h⟩

theorem decodeTableWord_ctrl (data : Word) : decodeTableWord 64 data.toNat = some (decodeCtrl data) := by
  have hc := tableCommand_ctrl data.isLt
  rw [BitVec.ofNat_toNat, BitVec.setWidth_eq] at hc
  exact decodeTableWord_eq_some.mpr ⟨_, hc, rfl⟩

/-- Settles O1: the formats one by one, and a table word through the command its bytes hold. -/
theorem encodedOperationDecodesToItself : Obligations.EncodedOperationDecodesToItself := by
  unfold Obligations.EncodedOperationDecodesToItself
  exact ⟨fun i _ => decode_encode i, fun _ => tableCommand_unit, fun _ => tableCommand_ctrl, fun _ => tableCommand_reg,
    fun off data => decodeTableWord_reg (decode_encode (.hostWr off data)),
    fun off => decodeTableWord_reg (decode_encode (.hostRd off)), decodeTableWord_ctrl⟩

/-- Settles O3: closed words, evaluated. -/
theorem writtenWordsDecode : Obligations.WrittenWordsDecode := by
  unfold Obligations.WrittenWordsDecode
  decide

/-- Settles O4: the value under mask 7 decodes as the value itself. -/
theorem controlWordDecodesByLowThreeBits : Obligations.ControlWordDecodesByLowThreeBits := by
  unfold Obligations.ControlWordDecodesByLowThreeBits
  intro data
  rw [← decodeCtrl_and_seven data]
  generalize data &&& 7 = low
  and_intros <;> (rintro rfl; rfl)

end Sys2Proof.Proofs
end

section
/-! The bitset operations that replace the named bitset (R123, R125, R126, R128), and how the population count follows
them (R130). -/

namespace Sys2Proof.Proofs

open Sys2Proof.Machine Sys2Proof.Laws

/-! ## The operations -/

section
variable {s : State} {X Y : BitsetId} {A B C : Bitset}

theorem exec_bsSet_of_bitset (h : s.bitset? X = some B) (p : Word) :
    exec (.bsSet X p) s = (B.bitWrite p.toNat true).bind fun C => .next (s.putBitset X C) := by
  change execBsSet X p s = _
  rw [execBsSet, withBitset_of_some h]

theorem exec_bsPutb_of_bitset (h : s.bitset? X = some B) (b : Word) (v : Byte) :
    exec (.bsPutb X b v) s = (B.memWrite b.toNat v).bind fun C => .next (s.putBitset X C) := by
  change execBsPutb X b v s = _
  rw [execBsPutb, withBitset_of_some h]

theorem exec_bsClrr_of_bitset (h : s.bitset? X = some B) (lo hi : Word) :
    exec (.bsClrr X lo hi) s = (B.clearRange lo.toNat hi.toNat).bind fun C => .next (s.putBitset X C) := by
  change execBsClrr X lo hi s = _
  rw [execBsClrr, withBitset_of_some h]

theorem exec_bsCopy_of_bitsets (hX : s.bitset? X = some A) (hY : s.bitset? Y = some B) :
    exec (.bsCopy X Y) s = (Bitset.copy (s.capacity X) B).bind fun C => .next (s.putBitset X C) := by
  change execBsCopy X Y s = _
  rw [execBsCopy, withBitset_of_some hX, withBitset_of_some hY]

theorem exec_bsCopy_of_le (hX : s.bitset? X = some A) (hY : s.bitset? Y = some B) (hB : B.wf)
    (hcap : B.n.toNat ≤ s.capacity X) : exec (.bsCopy X Y) s = .next (s.putBitset X B) := by
  rw [exec_bsCopy_of_bitsets hX hY, copy_eq_next.mpr ⟨hcap, rfl⟩, bind_next, copied_of_wf hB]

/-! ## What the whole-array operations leave -/

theorem memWrite_of_lt {b : Nat} (h : b < bytesFor B.n.toNat) (v : Byte) : ∃ C, B.memWrite b v = .next C :=
  ⟨_, memWrite_eq_next.mpr ⟨h, rfl⟩⟩

theorem clearRange_of_lt (lo : Nat) {hi : Nat} (h : hi < B.n.toNat) : ∃ C, B.clearRange lo hi = .next C :=
  clearFrom_ends _ B lo (by omega)

theorem clearRange_of_gt {lo hi : Nat} (h : hi < lo) : B.clearRange lo hi = .next B := by
  rw [Bitset.clearRange, show hi + 1 - lo = 0 by omega, Bitset.clearFrom]

theorem clearRange_bit {lo hi : Nat} (hB : Memory.wf B.mem) (h : B.clearRange lo hi = .next C) (q : Nat) :
    C.bit q = if lo ≤ q ∧ q ≤ hi then false else B.bit q := by
  obtain ⟨-, -, hspec⟩ := clearFrom_spec h
  obtain ⟨-, hbit⟩ := hspec hB
  rw [hbit]
  split
  · next hin => simp [show lo ≤ q ∧ q < lo + (hi + 1 - lo) by omega]
  · next hout => simp [show ¬(lo ≤ q ∧ q < lo + (hi + 1 - lo)) by omega]

/-! ## How the population count follows a write -/

theorem ones_eq_sum_toNat (X : Bitset) : X.ones = ∑ p ∈ Finset.range X.n.toNat, (X.bit p).toNat := by
  unfold Bitset.ones
  induction X.n.toNat with
  | zero => rfl
  | succ m ih =>
    rw [List.range_succ, List.countP_append, Finset.sum_range_succ, ih, List.countP_singleton]
    cases X.bit m <;> rfl

theorem ones_filled (n : Word) : (Bitset.filled n).ones = n.toNat - 1 := by
  unfold Bitset.ones
  rw [filled_n]
  cases hn : n.toNat with
  | zero => rfl
  | succ m =>
    rw [List.range_succ_eq_map, List.countP_cons_of_neg (by simp [filled_bit]), List.countP_map,
      List.countP_eq_length.mpr, List.length_range, Nat.add_sub_cancel]
    intro p hp
    simpa [filled_bit, hn] using hp

/-- A write changes the count by the difference of the bit written and the bit that stood there. -/
theorem ones_bitWrite {p : Nat} {x : Bool} (hB : Memory.wf B.mem) (h : B.bitWrite p x = .next C) :
    C.ones + (B.bit p).toNat = B.ones + x.toNat := by
  obtain ⟨hp, -⟩ := bitWrite_eq_next.mp h
  have hmem : p ∈ Finset.range B.n.toNat := Finset.mem_range.mpr hp
  have hself : C.bit p = x := by rw [bitWrite_bit hB h, if_pos rfl]
  have hothers : ∑ q ∈ (Finset.range B.n.toNat).erase p, (C.bit q).toNat =
      ∑ q ∈ (Finset.range B.n.toNat).erase p, (B.bit q).toNat :=
    Finset.sum_congr rfl fun q hq => by rw [bitWrite_bit hB h, if_neg (Finset.ne_of_mem_erase hq)]
  rw [ones_eq_sum_toNat, ones_eq_sum_toNat, bitWrite_n h, ← Finset.add_sum_erase _ _ hmem,
    ← Finset.add_sum_erase _ (fun q => (B.bit q).toNat) hmem, hothers, hself]
  omega

end

/-! ## The statements -/

/-- Settles O12: a set is one bit write, and a write of the bit that stands there changes nothing. -/
theorem setTurnsOnOnePosition : Obligations.SetTurnsOnOnePosition := by
  unfold Obligations.SetTurnsOnOnePosition
  refine ⟨fun _ => rfl, fun s X p B hB hw hp => ⟨?sets, fun hset => ?idempotent⟩⟩
  case sets =>
    obtain ⟨C, hC⟩ := bitWrite_of_lt (x := true) hp
    exact ⟨s.putBitset X C, C, by rw [exec_bsSet_of_bitset hB, hC, bind_next], onlyBitset_putBitset hB C,
      bitWrite_wf hw hC, bitWrite_n hC, bitWrite_bit hw.1 hC⟩
  case idempotent =>
    rw [exec_bsSet_of_bitset hB, bitWrite_of_bit_eq hw hp hset, bind_next, putBitset_of_bitset hB]

/-- Settles O15: the copy of a canonical bitset is the bitset itself; where source and destination are one, it is put
back. -/
theorem copyMakesTheDestinationEqual : Obligations.CopyMakesTheDestinationEqual := by
  unfold Obligations.CopyMakesTheDestinationEqual
  refine ⟨fun _ => rfl, fun s X Y A B hX hY hw hcap =>
    ⟨_, exec_bsCopy_of_le hX hY hw hcap, onlyBitset_putBitset hX B, ?source⟩⟩
  case source =>
    by_cases hXY : X = Y
    · rw [← hXY, putBitset_self hX]
    · rw [putBitset_other s hXY, hY]

/-- Settles O16: the byte is written under the mask of its cells. -/
theorem putByteWritesEightPositions : Obligations.PutByteWritesEightPositions := by
  unfold Obligations.PutByteWritesEightPositions
  refine ⟨fun _ => rfl, fun s X b v B hB hw hb => ?_⟩
  obtain ⟨C, hC⟩ := memWrite_of_lt hb v
  have hn := memWrite_n hC
  have hbit := memWrite_bit hw.1 hC
  refine ⟨s.putBitset X C, C, by rw [exec_bsPutb_of_bitset hB, hC, bind_next], onlyBitset_putBitset hB C,
    memWrite_wf hw hC, hn, fun r hr hcell => ?cell, fun r hr hpad => ?pad, fun q hq => ?other⟩
  case cell => rw [hbit, if_pos (by omega), Nat.mul_add_mod, Nat.mod_eq_of_lt hr]
  case pad => rw [byte_getLsbD hr, bit_of_ge (by rwa [hn])]
  case other => rw [hbit, if_neg fun h => hq h.1]

/-- Settles O18: a range is cleared position by position, and an empty one by no write. -/
theorem clearRangeClearsExactlyTheRange : Obligations.ClearRangeClearsExactlyTheRange := by
  unfold Obligations.ClearRangeClearsExactlyTheRange
  refine ⟨fun _ => rfl, fun s X lo hi B hB hw hhi => ⟨?clears, fun hempty => ?empty⟩⟩
  case clears =>
    obtain ⟨C, hC⟩ := clearRange_of_lt lo.toNat hhi
    obtain ⟨hn, hwf, -⟩ := clearRange_keeps hC
    exact ⟨s.putBitset X C, C, by rw [exec_bsClrr_of_bitset hB, hC, bind_next], onlyBitset_putBitset hB C, hwf hw, hn,
      clearRange_bit hw.1 hC⟩
  case empty => rw [exec_bsClrr_of_bitset hB, clearRange_of_gt hempty, bind_next, putBitset_of_bitset hB]

/-- Settles O19: each count is that of the bitset the operation puts. -/
theorem popcountFollowsTheBitsetOperations : Obligations.PopcountFollowsTheBitsetOperations := by
  unfold Obligations.PopcountFollowsTheBitsetOperations
  refine fun s X Y A B hX hA hY hB => ⟨fun n h1 hcap => ?fill, fun p hp => ⟨?clear, ?set⟩, fun hcap => ?copy⟩
  case fill => exact ⟨_, _, exec_bsFill_of_le hX h1 hcap, putBitset_self hX _, ones_filled n⟩
  case clear =>
    obtain ⟨C, hC⟩ := bitWrite_of_lt (x := false) hp
    exact ⟨s.putBitset X C, C, by rw [exec_bsClr_of_bitset hX, hC, bind_next], putBitset_self hX C,
      ones_bitWrite hA.1 hC⟩
  case set =>
    obtain ⟨C, hC⟩ := bitWrite_of_lt (x := true) hp
    refine ⟨s.putBitset X C, C, by rw [exec_bsSet_of_bitset hX, hC, bind_next], putBitset_self hX C, ?_⟩
    have hcount := ones_bitWrite hA.1 hC
    have hbit := (A.bit p.toNat).toNat_le
    rw [Bool.toNat_true] at hcount
    omega
  case copy => exact ⟨_, B, exec_bsCopy_of_le hX hY hB hcap, putBitset_self hX B, rfl⟩

end Sys2Proof.Proofs
end

section
/-! The wheel integer of an index, the oracle's answer for one, and the walk of one marker set through `WM.SEEK` and
`WM.MARK` (R143, R152, R153, R173). -/

namespace Sys2Proof.Proofs

open Sys2Proof.Machine Sys2Proof.Laws

/-! ## `WC.DEC` (R143) -/

theorem wheelVal_eq (i : Nat) : wheelVal i = 3 * i + 1 + i % 2 := rfl

theorem exec_wcDec_of_base {s : State} {base : IndexBase} {nOff i : Word} (h : s.baseOffset? base = some nOff)
    (hi : 1 ≤ i.toNat) (hfit : nOff.toNat + wheelVal i.toNat < 2 ^ 64) :
    exec (.wcDec base i) s = .next (s.returns [BitVec.ofNat 64 (nOff.toNat + wheelVal i.toNat)]) := by
  change execWcDec base i s = _
  rw [execWcDec, h, ← wheelDecode_toNat (by omega) hfit, BitVec.ofNat_toNat, BitVec.setWidth_eq]

/-- Settles O20: an absolute index has offset 0, a local one the segment's. -/
theorem decodeGivesTheWheelInteger : Obligations.DecodeGivesTheWheelInteger := by
  unfold Obligations.DecodeGivesTheWheelInteger
  refine ⟨fun _ => rfl, fun s i hi => ⟨fun hfit => ?absolute, fun w k hk hfit => ?segment⟩⟩
  case absolute =>
    have hval : (0 : Word).toNat + wheelVal i.toNat = 3 * i.toNat + 1 + i.toNat % 2 := Nat.zero_add _
    rw [← hval] at hfit ⊢
    exact exec_wcDec_of_base rfl hi hfit
  case segment =>
    have hbase : s.baseOffset? (.segment w) = some k.nOff := congrArg (Option.map Worker.nOff) hk
    have hval : k.nOff.toNat + 3 * i.toNat + 1 + i.toNat % 2 = k.nOff.toNat + wheelVal i.toNat := by
      rw [wheelVal_eq]
      omega
    rw [hval] at hfit ⊢
    exact exec_wcDec_of_base hbase hi hfit

/-! ## `ORC.TEST` (R173) -/

theorem exec_orcTest_of_answer {s : State} {i : Word} {b : Bool} (h : oracleTest s.qtab.toNat s.spt i.toNat = .next b) :
    exec (.orcTest i) s = .next (s.returns [bitWord b]) := by
  change execOrcTest i s = _
  rw [execOrcTest, h, bind_next]

theorem oracleTest_of_le {qtab i : Nat} {spt : Bitset} (hi : i ≤ qtab) (hn : i < spt.n.toNat) :
    oracleTest qtab spt i = .next (spt.bit i) := by
  rw [oracleTest, if_pos hi, bitRead_of_lt hn]

theorem oracleTest_of_gt {qtab i : Nat} (spt : Bitset) (hi : qtab < i) :
    oracleTest qtab spt i = .next (decide (wheelVal i % 5 ≠ 0)) := by
  rw [oracleTest, if_neg (Nat.not_le.mpr hi)]

/-- From index 2 on a prime is above 5, so 5 does not divide it. -/
theorem wheelVal_mod_five_ne_zero {i : Nat} (hi : 2 ≤ i) (hp : (wheelVal i).Prime) : wheelVal i % 5 ≠ 0 := by
  intro h5
  have hfive : 5 = wheelVal i := (Nat.prime_dvd_prime_iff_eq (by decide) hp).mp (Nat.dvd_of_mod_eq_zero h5)
  rw [wheelVal_eq] at hfive
  omega

/-- Settles O30: the table answers up to `QTAB`, the test modulo 5 beyond. -/
theorem oracleTestLooksUpOrFallsBack : Obligations.OracleTestLooksUpOrFallsBack := by
  unfold Obligations.OracleTestLooksUpOrFallsBack
  refine ⟨fun _ => rfl, fun s i _ => ⟨fun hi hn => ?table, fun hi => ?beyond, fun hi h2 hp => ?prime⟩⟩
  case table => exact exec_orcTest_of_answer (oracleTest_of_le hi hn)
  case beyond =>
    rw [exec_orcTest_of_answer (oracleTest_of_gt s.spt hi), wheelVal_eq]
    simp only [bitWord, decide_eq_true_eq, State.returns]
  case prime =>
    rw [exec_orcTest_of_answer (oracleTest_of_gt s.spt hi), decide_eq_true (wheelVal_mod_five_ne_zero h2 hp)]
    rfl

/-! ## `WM.SEEK` (R152) -/

section
variable {m n : Marker} {joff r : Nat}

/-- A resumed walk stands at its member, and its stride leads to the next. -/
theorem ResumedAt.stands (h : ResumedAt m joff r n) :
    n.j.toNat = walkMember m.j.toNat m.ij.toNat m.t.toNat r ∧
      n.j.toNat + n.ij.toNat = walkMember m.j.toNat m.ij.toNat m.t.toNat (r + 1) := by
  have hnext : n.j.toNat + n.ij.toNat = walkMember n.j.toNat n.ij.toNat n.t.toNat 1 := by simp [walkMember]
  have hhere := h.members 0
  rw [walkMember_zero] at hhere
  exact ⟨hhere, hnext.trans (h.members 1)⟩

/-- One stride further the walk stands at the next member, where the one left lies at or below the offset. -/
theorem ResumedAt.of_stride (hw : m.walking) (hfit : m.j.toNat + m.ij.toNat < 2 ^ 64) (hle : m.j.toNat ≤ joff)
    (h : ResumedAt m.stride joff r n) : ResumedAt m joff (r + 1) n := by
  obtain ⟨-, hijt⟩ := hw
  have hmember (q : Nat) : walkMember m.stride.j.toNat m.stride.ij.toNat m.stride.t.toNat q =
      walkMember m.j.toNat m.ij.toNat m.t.toNat (q + 1) := by
    rw [stride_j hfit, stride_ij hijt.le, stride_t, walkMember_stride _ _ _ _ hijt.le]
  refine ⟨h.walking, h.reached, fun q => ?members, fun q hq => ?skipped⟩
  case members => rw [h.members, hmember, Nat.add_right_comm]
  case skipped =>
    cases q with
    | zero => rwa [walkMember_zero]
    | succ q => exact hmember q ▸ h.skipped q (by omega)

end

/-- Settles O27: `exists_resumedAt_seek` says where the walk is resumed. -/
theorem seekSkipsNothingAboveTheOffset : Obligations.SeekSkipsNothingAboveTheOffset := by
  unfold Obligations.SeekSkipsNothingAboveTheOffset
  intro s M m joff hM hw hb _
  obtain ⟨r, hr⟩ := exists_resumedAt_seek hw hb
  obtain ⟨hi, hc, hk, ht⟩ := seek_frame m joff.toNat
  obtain ⟨hj, hij⟩ := hr.stands
  refine ⟨_, m.seek joff.toNat, r, exec_wmSeek_of_marker hM joff, onlyMarker_putMarker hM _, hr.walking, ?frame,
    hr.reached, hj, hij, hr.skipped⟩
  case frame => rw [← hi, ← hc, ← hk, ← ht]

/-! ## `WM.MARK` (R153) -/

section
variable {m n : Marker} {X Y : Bitset} {joff mx : Nat}

/-- A marking loop that ends in the middle of a walk stands at the walk's first member beyond the window. -/
theorem exists_resumedAt_markLoop {k : Nat} (hw : m.walking) (hb : joff + mx + m.t.toNat < 2 ^ 64)
    (h : Marker.markLoop k m X joff mx = .next (n, Y)) : ∃ r, ResumedAt m (joff + mx) r n := by
  induction k generalizing m X with
  | zero => cases h
  | succ k ih =>
    obtain ⟨-, hijt⟩ := id hw
    rw [Marker.markLoop] at h
    split at h
    · cases h
    · split at h
      · next hlow hin =>
        obtain ⟨Z, -, h⟩ := bind_eq_next.mp h
        split at h
        · cases h
        · obtain ⟨r, hr⟩ := ih (stride_walking hw) (by rwa [stride_t]) h
          exact ⟨r + 1, hr.of_stride hw (by omega) (by omega)⟩
      · next hlow hout =>
        cases h
        exact ⟨0, hw, by omega, fun q => by rw [Nat.zero_add], nofun⟩

theorem exec_wmMark_of_operands {s : State} {M : MarkerId} {B : BitsetId} (hM : s.marker? M = some m)
    (hB : s.bitset? B = some X) (joff mx : Word) :
    exec (.wmMark M B joff mx) s =
      (m.mark X joff.toNat mx.toNat).bind fun r => .next ((s.putMarker M r.1).putBitset B r.2) := by
  change execWmMark M B joff mx s = _
  rw [execWmMark, withMarker_of_some hM, withBitset_of_some hB]

end

/-- Settles O28: `markLoop_spec` says that the loop ends and what it clears, `exists_resumedAt_markLoop` where the marker
set then stands. -/
theorem markClearsExactlyTheWalk : Obligations.MarkClearsExactlyTheWalk := by
  unfold Obligations.MarkClearsExactlyTheWalk
  refine ⟨fun _ => rfl, fun s M X m B joff mx hM hB hw hwf hj hmx hb => ?_⟩
  obtain ⟨n, C, hmark, -, hbeyond, -, hbit⟩ := markLoop_spec markTurns m B joff.toNat mx.toNat hw hwf.1 hj hmx hb
    (by unfold markTurns; omega)
  obtain ⟨hi, hc, hk, ht, ⟨hn, hkeep, -⟩, -⟩ := mark_frame hmark
  obtain ⟨r, hr⟩ := exists_resumedAt_markLoop hw hb hmark
  obtain ⟨hnj, hnij⟩ := hr.stands
  have hexec : exec (.wmMark M X joff mx) s = .next ((s.putMarker M n).putBitset X C) := by
    rw [exec_wmMark_of_operands hM hB, Marker.mark, hmark, bind_next]
  have hB' : (s.putMarker M n).bitset? X = some B := by rw [putMarker_bitset, hB]
  refine ⟨_, n, C, r, hexec, rfl, ?marker, putBitset_self hB' C, fun N hN => ?markers, fun Y hY => ?bitsets, ?frame,
    hr.walking, hnj, hnij, hbeyond, hr.skipped, hkeep hwf, hn, fun p => ?bits⟩
  case marker => rw [putBitset_marker, putMarker_self hM]
  case markers => rw [putBitset_marker, putMarker_other s hN.symm]
  case bitsets => rw [putBitset_other _ hY.symm, putMarker_bitset]
  case frame => rw [← hi, ← hc, ← hk, ← ht]
  case bits => rw [hbit, Nat.add_comm p]

end Sys2Proof.Proofs
end

section
/-! The statements about one worker's segment (R194, R195, R196, R222), read off from what each operation does to the
worker's bitset. -/

namespace Sys2Proof.Proofs

open Sys2Proof.Machine Sys2Proof.Laws

/-- Settles O34: the copied template with the seeds exposed. -/
theorem copyRestoresTheSeedsInSegmentZero : Obligations.CopyRestoresTheSeedsInSegmentZero := by
  unfold Obligations.CopyRestoresTheSeedsInSegmentZero
  refine ⟨fun _ => rfl, fun s w k hk hwf h8 hcap => ?_⟩
  obtain ⟨C, hexec, hC⟩ := exec_segCopy_of_worker hk hwf h8 hcap
  obtain ⟨hn, hkeep, -⟩ := hC.keeps
  exact ⟨_, C, hexec, onlyWorker_setWorker hk _, hkeep hwf, hn, hC.other, hC.origin, hC.shifted⟩

/-- Settles O35: the clipped bitset keeps its length and form. -/
theorem clipClearsOutsideTheRange : Obligations.ClipClearsOutsideTheRange := by
  unfold Obligations.ClipClearsOutsideTheRange
  refine ⟨fun _ => rfl, fun s w k hk hwf h3 hmtpl => ?_⟩
  obtain ⟨C, hexec, ⟨hn, hkeep, -⟩, hbit⟩ := exec_segClip_of_worker hk hwf.1 h3 hmtpl
  exact ⟨_, C, hexec, onlyWorker_setWorker hk _, hkeep hwf, hn, hbit⟩

/-! ## Only composites are sieved out (R130 d, R196) -/

/-- What a marking of the walk of index `i + 1` clears, at position 0 too, that index strikes. -/
theorem AfterIndex.strikes_of_mark {i p joff mx : Nat} {m n : Marker} {X Y : Bitset} (h : AfterIndex i m)
    (hi : i + 1 ≤ 1431655765) (hX : Memory.wf X.mem) (hmx : mx < X.n.toNat)
    (hb : joff + mx + 2 * wheelVal (i + 1) < 2 ^ 64) (hmark : (m.advance.seek joff).mark X joff mx = .next (n, Y))
    (hset : X.bit p = true) (hclear : Y.bit p = false) : Strikes (i + 1) (joff + p) := by
  have ht := (h.advance hi).twice
  obtain ⟨-, -, -, hseekt⟩ := seek_frame m.advance joff
  obtain ⟨r, hr⟩ := exists_resumedAt_seek (joff := joff) (h.advance_walking hi) (by omega)
  obtain ⟨n', Y', hmark', -, -, -, hbit⟩ := markLoop_spec markTurns (m.advance.seek joff) X joff mx hr.walking hX
    hr.reached hmx (by rw [hseekt]; omega) (by unfold markTurns; omega)
  cases hmark.symm.trans hmark'
  obtain ⟨-, q, hq⟩ : p ≤ mx ∧ ∃ q, p + joff = _ := by
    by_contra hnot
    exact Bool.false_ne_true (hclear.symm.trans ((hbit p).mpr ⟨hset, hnot⟩))
  exact (h.strikes_iff hi _).mpr ⟨r + q, by rw [← hr.members, ← hq, Nat.add_comm]⟩

/-- What a sieve clears some index strikes. -/
theorem exists_strikes_of_sieveLoop {qtab joff mx q t i p : Nat} {spt : Bitset} {m n : Marker} {X Y : Bitset}
    (hq : q ≤ 1431655765) (hb : joff + mx + 2 * wheelVal q < 2 ^ 64) (hm : AfterIndex i m) (hX : Memory.wf X.mem)
    (hmx : mx < X.n.toNat) (h : sieveLoop qtab spt joff mx q t m X = .next (n, Y)) (hset : X.bit p = true)
    (hclear : Y.bit p = false) : ∃ d, 1 ≤ d ∧ Strikes d (joff + p) := by
  induction t generalizing i m X with
  | zero =>
    rw [sieveLoop] at h
    split at h
    · cases h
    · cases h; exact absurd (hclear.symm.trans hset) Bool.false_ne_true
  | succ t ih =>
    rw [sieveLoop, hm.index] at h
    split at h
    · next hle =>
      have hval : wheelVal (i + 1) ≤ wheelVal q := wheelVal_le_iff.mpr hle
      obtain ⟨b, -, h⟩ := bind_eq_next.mp h
      split at h
      · obtain ⟨m₁, X₁, hmark, hm₁, ⟨⟨hn, -, hwf⟩, -⟩, -⟩ :=
          hm.mark_advance (joff := joff) (by omega) hX hmx (by omega)
        rw [hmark, bind_next] at h
        cases hp : X₁.bit p with
        | true => exact ih hm₁ (hwf hX) (by rwa [hn]) h hp
        | false => exact ⟨i + 1, by omega, hm.strikes_of_mark (by omega) hX hmx (by omega) hmark hset hp⟩
      · exact ih (hm.advance (by omega)) hX hmx h hset
    · cases h; exact absurd (hclear.symm.trans hset) Bool.false_ne_true

theorem setWorker_inj {s : State} {w : Nat} {k l l' : Worker} (hk : s.workers[w]? = some k)
    (h : s.setWorker w l = s.setWorker w l') : l = l' :=
  Option.some.inj ((setWorker_self hk l).symm.trans (h ▸ setWorker_self hk l'))

/-- With no index left to sieve the loop takes no turn. -/
theorem exec_segSieve_of_lt {s : State} {w : Nat} {k : Worker} (hk : s.workers[w]? = some k)
    (h : k.q.toNat < s.ri.toNat) :
    exec (.segSieve w) s = .next (s.setWorker w { k with m := k.m.load s.ri s.rc s.rk s.rt }) := by
  have hnone : k.q.toNat + 1 - s.ri.toNat = 0 := by omega
  change execSegSieve w s = _
  simp only [execSegSieve, withWorker_of_some hk, Marker.load, hnone, sieveLoop, if_neg (Nat.not_le.mpr h), bind_next]

/-- Settles O36: the loop ends at the index after `Q`, and what it clears some index strikes. -/
theorem sieveClearsOnlyComposites : Obligations.SieveClearsOnlyComposites := by
  unfold Obligations.SieveClearsOnlyComposites
  refine ⟨fun _ => rfl, fun s w k hk hresume hq hspt hwf hmseg hb => ?_⟩
  have hload := afterIndex_load hresume k.m
  have hri : s.ri.toNat = s.nseed.toNat + 1 := hload.index
  have hval : k.jOff.toNat + k.mseg.toNat + 2 * wheelVal k.q.toNat < 2 ^ 64 := by
    unfold wheelVal
    omega
  obtain ⟨n, C, hloop, hn, ⟨⟨hlen, hkeep, -⟩, hclears⟩, -⟩ := sieveLoop_spec hq hspt hval rfl hload hwf.1 hmseg
  have hexec : exec (.segSieve w) s = .next (s.setWorker w { k with m := n, sb := C }) := by
    change execSegSieve w s = _
    simp only [execSegSieve, withWorker_of_some hk, hload.index, Nat.add_sub_add_right, hloop, bind_next]
  refine ⟨_, n, C, hexec, onlyWorker_setWorker hk _, ?index, hkeep hwf, hlen, fun hlt => ?none, hclears hwf.1,
    fun p hset hclear => ?composite⟩
  case index => rw [hn.index]; omega
  case none =>
    have hsame := hexec.symm.trans (exec_segSieve_of_lt hk hlt)
    exact congrArg Worker.sb (setWorker_inj hk (Host.Outcome.next.inj hsame))
  case composite =>
    obtain ⟨d, hd, hstrikes⟩ := exists_strikes_of_sieveLoop hq hval hload hwf.1 hmseg hloop hset hclear
    exact hstrikes.not_prime hd

/-! ## `AGG.COUNT` (R222) -/

theorem exec_aggCount_of_worker {s : State} {w : Nat} {k : Worker} (hk : s.workers[w]? = some k) (hwf : k.sb.wf) :
    exec (.aggCount w) s = .next (s.setWorker w
      { k with lacc := narrow 64 (k.sb.ones + (s.small k 2).toNat + (s.small k 3).toNat : Nat) }) := by
  change execAggCount w s = _
  rw [execAggCount, withWorker_of_some hk, popcount_eq_ones hwf]

/-- Settles O38: the set positions and each of 2 and 3 the segment answers for. -/
theorem countAddsTheSmallPrimes : Obligations.CountAddsTheSmallPrimes := by
  unfold Obligations.CountAddsTheSmallPrimes
  refine ⟨fun _ => rfl, fun s w k hk hwf => ?_⟩
  simp only [← small_toNat]
  intro hfit
  refine ⟨_, _, exec_aggCount_of_worker hk hwf, onlyWorker_setWorker hk _, narrow_toNat hfit, fun h0 hn => ?bound⟩
  case bound =>
    have hones := ones_le_pred h0
    have htwo := (s.small k 2).toNat_le
    have hthree := (s.small k 3).toNat_le
    rw [narrow_toNat hfit]
    omega

end Sys2Proof.Proofs
end

section
/-! The turns of the sequencers, the waits, and the operations of the scheduler and the gate (R30, R31, R250 to R270). -/

namespace Sys2Proof.Proofs

open Sys2Proof.Machine Sys2Proof.Laws

/-! ## The step (R15) -/

section
variable {s : State} {rest : List Event}

theorem step_of_event {e : Event} (h : s.events = e :: rest) : step s = takeEvent e { s with events := rest } := by
  rw [step, h]

theorem runCommand_of_decode {c : Command} {i : Instr} (h : decode c = .ok i) (s : State) :
    runCommand c s = exec i s := by
  rw [runCommand, h]

/-- A command presented in front of everything else runs on the state itself. -/
theorem step_present {c : Command} {i : Instr} (h : decode c = .ok i) (s : State) : step (s.present c) = exec i s :=
  (step_of_event (s := s.present c) (rest := s.events) rfl).trans (runCommand_of_decode h s)

theorem withFetchWord_of_tableCommand {nbits w : Nat} {c : Command} (h : tableCommand nbits w = some c) (s : State) :
    s.withFetchWord nbits w = s.present c := by
  rw [State.withFetchWord, h]

theorem step_of_quiescent (hp : s.phase.quiescent = true) (he : s.events = []) : step s = .next s := by
  rw [step, he]
  exact if_pos hp

end

/-- Settles O5: the event presented next is taken off and run. -/
theorem stepRunsThePresentedCommand : Obligations.StepRunsThePresentedCommand := by
  unfold Obligations.StepRunsThePresentedCommand
  refine ⟨fun s c rest i he hc => ?command, fun s nbits w i hw => ?word, fun s t rest he => step_of_event he,
    fun s rest he => step_of_event he⟩
  case command => exact (step_of_event he).trans (runCommand_of_decode hc _)
  case word =>
    obtain ⟨c, hc, hi⟩ := decodeTableWord_eq_some.mp hw
    rw [withFetchWord_of_tableCommand hc, step_present hi]

/-! ## The controller's turn (R30) -/

theorem joinReady_iff (s : State) : s.joinReady = true ↔
    (∀ k ∈ s.workers, k.wphase = .idle) ∧ (s.nextDispatch = s.numSegments ∨ s.failFlag = true) := by
  simp [State.joinReady]

/-- Settles O6: the controller's turn, phase by phase. -/
theorem controllerTurnFollowsPhaseTable : Obligations.ControllerTurnFollowsPhaseTable := by
  unfold Obligations.ControllerTurnFollowsPhaseTable
  refine fun s => ⟨controllerTurn_check, controllerTurn_config, controllerTurn_oracle, controllerTurn_template,
    fun hp hj => ?join, fun hp hj => ?wait, controllerTurn_join, fun hp => controllerTurn_quiescent ?_⟩
  case join => exact (controllerTurn_parallel hp).trans (by rw [if_pos ((joinReady_iff s).mpr hj)])
  case wait => exact (controllerTurn_parallel hp).trans (by rw [if_neg (mt (joinReady_iff s).mp hj)])
  obtain hp | hp | hp := hp <;> rw [hp] <;> rfl

/-! ## A worker's turn (R31) -/

section
variable {s : State} {w : Nat} {k : Worker}

theorem workerTurn_of_not_parallel (w : Nat) (hp : s.phase ≠ .parallel) : workerTurn w s = .next s := by
  unfold workerTurn
  split
  · rfl
  · rw [if_neg hp]

theorem dispatchTurn_of_not_parallel (w : Nat) (hp : s.phase ≠ .parallel) : dispatchTurn w s = .next s :=
  if_neg fun h => hp h.1

theorem dispatchTurn_of_worker (hk : s.workers[w]? = some k) (hp : s.phase = .parallel) :
    dispatchTurn w s = exec (.schDispatch w) s :=
  if_pos ⟨hp, worker_lt hk⟩

/-- Where an operation replaces the worker the latched mode stays, so the phase that follows is the one the mode gives. -/
theorem workerTurn_of_replaces {i : Instr} {c : Nat} {p p' : WPhase} (hk : s.workers[w]? = some k)
    (hp : s.phase = .parallel) (hw : k.wphase = p) (hc : workerCode p s.jMode = some c)
    (hi : decode (unitCommand c { w := w }) = .ok i) (hn : workerNext p s.jMode = some p')
    (hx : ∀ t, exec i s = .next t → ∃ l, t = s.setWorker w l) :
    workerTurn w s = Res.bind (exec i s) fun t =>
      .next { t with workers := t.workers.modify w fun k => { k with wphase := p' } } := by
  rw [workerTurn_of_code hk hp hw hc, runCommand_of_decode hi]
  cases ht : exec i s with
  | next t =>
    obtain ⟨l, rfl⟩ := hx t ht
    rw [bind_next, bind_next, workerAdvance, setWorker_jMode, hn]
  | fault | refused => rfl

/-- An operation whose own rule moves the worker is the whole turn. -/
theorem workerTurn_of_moves {i : Instr} {c : Nat} {p : WPhase} (hk : s.workers[w]? = some k) (hp : s.phase = .parallel)
    (hw : k.wphase = p) (hc : workerCode p s.jMode = some c) (hi : decode (unitCommand c { w := w }) = .ok i)
    (hn : ∀ m, workerNext p m = none) : workerTurn w s = exec i s := by
  have hstay (t : State) : workerAdvance w p t = t := by rw [workerAdvance, hn]
  rw [workerTurn_of_code hk hp hw hc, runCommand_of_decode hi]
  simp only [hstay, bind_next_self]

theorem ComputesOn.replaces {t : State} (h : ComputesOn s w k t) : ∃ l, t = s.setWorker w l :=
  h.imp fun _ ⟨ht, _⟩ => ht

theorem execAggPrint_replaces {t : State} (hk : s.workers[w]? = some k) (h : execAggPrint w s = .next t) :
    ∃ l, t = s.setWorker w l :=
  (execAggPrint_frame hk h).elim fun _ ht => ⟨_, ht⟩

end

/-- Settles O7: a worker's turn, phase by phase. -/
theorem workerTurnFollowsPhaseTable : Obligations.WorkerTurnFollowsPhaseTable := by
  unfold Obligations.WorkerTurnFollowsPhaseTable
  refine ⟨fun s w hp => ⟨workerTurn_of_not_parallel w hp, dispatchTurn_of_not_parallel w hp⟩, fun s w k hk hp => ?_⟩
  exact ⟨fun hw => workerTurn_of_no_code hk hw rfl,
    fun hw => workerTurn_of_replaces hk hp hw rfl rfl rfl fun _ h => (execSegSetup_computes hk h).replaces,
    fun hw => workerTurn_of_replaces hk hp hw rfl rfl rfl fun _ h => (execSegCopy_computes hk h).replaces,
    fun hw => workerTurn_of_replaces hk hp hw rfl rfl rfl fun _ h => (execSegClip_computes hk h).replaces,
    fun hw => workerTurn_of_replaces hk hp hw rfl rfl rfl fun _ h => (execSegSieve_computes hk h).replaces,
    fun hw hm => workerTurn_of_replaces (c := 0x60) hk hp hw (by rw [hm]; rfl) rfl (by rw [hm]; rfl)
      fun _ h => (execAggCount_computes hk h).replaces,
    fun hw hm => workerTurn_of_replaces (c := 0x61) hk hp hw (by rw [hm]; rfl) rfl (by rw [hm]; rfl)
      fun _ h => (execAggSum_computes hk h).replaces,
    fun hw hm => workerTurn_of_replaces (c := 0x62) hk hp hw (by rw [hm]; rfl) rfl (by rw [hm]; rfl)
      fun _ h => execAggPrint_replaces hk h,
    fun hw => workerTurn_of_moves hk hp hw rfl rfl fun _ => rfl,
    fun hw => workerTurn_of_moves hk hp hw rfl rfl fun _ => rfl,
    fun hw => workerTurn_of_moves hk hp hw rfl rfl fun _ => rfl,
    fun hw => workerTurn_of_moves hk hp hw rfl rfl fun _ => rfl,
    fun hw => workerTurn_of_moves hk hp hw rfl rfl fun _ => rfl,
    dispatchTurn_of_worker hk hp⟩

/-! ## The gate (R261, R262) -/

section
variable {s : State} {w : Nat} {k : Worker} (hk : s.workers[w]? = some k)
include hk

theorem exec_schDispatch_of_not_enabled (he : s.dispatchEnabled k = false) : exec (.schDispatch w) s = .next s := by
  change execSchDispatch w s = _
  rw [execSchDispatch, withWorker_of_some hk, if_neg (by simp [he])]

theorem exec_gateWait_of_fail (hf : s.failFlag = true) :
    exec (.gateWait w) s = .next (s.setWorker w { k with wphase := .retire }) := by
  change execGateWait w s = _
  rw [execGateWait, withWorker_of_some hk, if_pos hf]

theorem exec_gateWait_of_ticket (hf : s.failFlag = false) (ht : s.nextTicket = k.segN) :
    exec (.gateWait w) s = .next (s.setWorker w { k with wphase := .emit }) := by
  change execGateWait w s = _
  rw [execGateWait, withWorker_of_some hk, if_neg (by simp [hf]), if_pos ht]

theorem exec_gateWait_of_wait (hf : s.failFlag = false) (ht : s.nextTicket ≠ k.segN) :
    exec (.gateWait w) s = .next s := by
  change execGateWait w s = _
  rw [execGateWait, withWorker_of_some hk, if_neg (by simp [hf]), if_neg ht]

theorem exec_gateEmit_of_nil (hb : k.obuf = []) :
    exec (.gateEmit w) s = .next (s.setWorker w { k with wphase := .pass }) := by
  change execGateEmit w s = _
  rw [execGateEmit, withWorker_of_some hk, hb]

section
variable {b : Byte} {rest : List Byte} (hb : k.obuf = b :: rest)
include hb

theorem exec_gateEmit_of_no_answer (ha : s.sinkAnswers = []) : exec (.gateEmit w) s = .next s := by
  change execGateEmit w s = _
  rw [execGateEmit, withWorker_of_some hk, hb, ha]

theorem exec_gateEmit_of_ok {more : List SinkAnswer} (ha : s.sinkAnswers = .ok :: more) :
    exec (.gateEmit w) s = .next
      (({ s with sink := s.sink ++ [b], sinkAnswers := more } : State).setWorker w { k with obuf := rest }) := by
  change execGateEmit w s = _
  rw [execGateEmit, withWorker_of_some hk, hb, ha]
  rfl

theorem exec_gateEmit_of_fail {more : List SinkAnswer} (ha : s.sinkAnswers = .fail :: more) :
    exec (.gateEmit w) s = .next
      (({ s with failFlag := true, sinkAnswers := more } : State).setWorker w { k with wphase := .retire }) := by
  change execGateEmit w s = _
  rw [execGateEmit, withWorker_of_some hk, hb, ha]
  rfl

end

end

/-- Settles O47: `FAIL` is tested before the ticket. -/
theorem gateOpensInTurnOrOnFailure : Obligations.GateOpensInTurnOrOnFailure := by
  unfold Obligations.GateOpensInTurnOrOnFailure
  exact ⟨fun _ => rfl, fun s w k hk =>
    ⟨fun hf => ⟨_, exec_gateWait_of_fail hk hf, onlyWorker_setWorker hk _⟩,
      fun hf ht => ⟨_, exec_gateWait_of_ticket hk hf ht, onlyWorker_setWorker hk _⟩⟩⟩

/-- Settles O48: the buffer's head and the sink's answer decide. -/
theorem emitOffersOneByte : Obligations.EmitOffersOneByte := by
  unfold Obligations.EmitOffersOneByte
  exact ⟨fun _ => rfl, fun s w k hk =>
    ⟨fun hb => ⟨_, exec_gateEmit_of_nil hk hb, onlyWorker_setWorker hk _⟩,
      fun b rest more hb ha => ⟨_, exec_gateEmit_of_ok hk hb ha, onlyWorker_setWorker (by exact hk) _⟩,
      fun b rest more hb ha => ⟨_, exec_gateEmit_of_fail hk hb ha, onlyWorker_setWorker (by exact hk) _⟩⟩⟩

/-- Settles O9: each wait is the operation's arm that answers the state itself. -/
theorem waitingChangesNothing : Obligations.WaitingChangesNothing := by
  unfold Obligations.WaitingChangesNothing
  refine fun s => ⟨fun w k hk => ⟨fun hoff => ?dispatch, exec_gateWait_of_wait hk, fun hb ha => ?emit⟩,
    fun hp he => step_of_quiescent ?quiet he⟩
  case dispatch =>
    refine exec_schDispatch_of_not_enabled hk (Bool.eq_false_iff.mpr fun he => ?_)
    obtain ⟨hp, hidle, hleft, hfail⟩ := (dispatchEnabled_iff s k).mp he
    obtain h | h | h | h := hoff
    · exact h hp
    · exact h hidle
    · exact absurd hleft (Nat.not_lt.mpr h)
    · exact Bool.false_ne_true (hfail.symm.trans h)
  case emit =>
    obtain ⟨b, rest, hcons⟩ := List.exists_cons_of_ne_nil hb
    exact exec_gateEmit_of_no_answer hk hcons ha
  case quiet => obtain hp | hp | hp := hp <;> rw [hp] <;> rfl

/-! ## The reduction (R252) and the join (R270) -/

theorem exec_schReduce_of_worker {s : State} {w : Nat} {k : Worker} (hk : s.workers[w]? = some k) :
    exec (.schReduce w) s = .next (({ s with
      acc := s.acc + k.lacc, retired := narrow 64 (s.retired.toNat + 1) } : State).setWorker w
        { k with wphase := .idle }) := by
  change execSchReduce w s = _
  rw [execSchReduce, withWorker_of_some hk]
  rfl

/-- Two reductions of different workers, run one after the other. -/
theorem runOps_schReduce_schReduce {s : State} {v w : Nat} {k l : Worker} (hvw : v ≠ w) (hk : s.workers[v]? = some k)
    (hl : s.workers[w]? = some l) :
    runOps [.schReduce v, .schReduce w] s = .next { s with
      acc := s.acc + k.lacc + l.lacc
      retired := narrow 64 ((narrow 64 (s.retired.toNat + 1)).toNat + 1)
      workers := (s.workers.set v { k with wphase := .idle }).set w { l with wphase := .idle } } := by
  rw [runOps, exec_schReduce_of_worker hk, bind_next, runOps, exec_schReduce_of_worker (k := l), bind_next]
  · rfl
  · exact (setWorker_other _ hvw _).trans hl

/-- Settles O46: in either order both partial results are added, the count rises by two and both workers are idle. -/
theorem reduceAddsAndCommutes : Obligations.ReduceAddsAndCommutes := by
  unfold Obligations.ReduceAddsAndCommutes
  refine ⟨fun _ => rfl, fun s w k hk hretired => ?adds, fun s v w hv hw hvw => ?commutes⟩
  case adds =>
    refine ⟨_, exec_schReduce_of_worker hk, ?_⟩
    rw [narrow_add_one hretired]
    exact onlyWorker_setWorker (by exact hk) _
  case commutes =>
    have hk := List.getElem?_eq_getElem hv
    have hl := List.getElem?_eq_getElem hw
    rw [runOps_schReduce_schReduce hvw hk hl, runOps_schReduce_schReduce hvw.symm hl hk, BitVec.add_assoc,
      BitVec.add_comm (_ : Worker).lacc, ← BitVec.add_assoc, List.set_comm _ _ hvw]

theorem exec_schJoin_of_fail {s : State} (hf : s.failFlag = true) : exec .schJoin s = .next (s.raise .outputError) := by
  change execSchJoin s = _
  rw [execSchJoin, if_pos hf]

theorem exec_schJoin_of_result {s : State} {r : Word} (hf : s.failFlag = false) (hr : s.jobResult = r) :
    exec .schJoin s = .next { s with result := r, phase := .done, busy := false, done := true } := by
  change execSchJoin s = _
  rw [execSchJoin, if_neg (by simp [hf]), State.finish, hr]

theorem jobResult_of_total {s : State} (hm : s.jMode = 0 ∨ s.jMode = 1) : s.jobResult = s.acc := by
  obtain hm | hm := hm <;> rw [State.jobResult, hm] <;> rfl

theorem jobResult_of_print {s : State} (hm : s.jMode = 2) : s.jobResult = 0 := by
  rw [State.jobResult, hm]
  rfl

/-- Settles O50: the failure flag decides, and the mode says which result. -/
theorem joinDeliversOrRaises : Obligations.JoinDeliversOrRaises := by
  unfold Obligations.JoinDeliversOrRaises
  exact ⟨fun _ => rfl, fun s => ⟨exec_schJoin_of_fail, fun hf hm => exec_schJoin_of_result hf (jobResult_of_total hm),
    fun hf hm => exec_schJoin_of_result hf (jobResult_of_print hm)⟩⟩

end Sys2Proof.Proofs
end

section
/-! What every operation keeps of the state (R8, R64, R131, R281): the parameters, the number of workers, what is still
presented, the notes of a running job, and of every bitset each property that filling gives and clearing keeps. -/

namespace Sys2Proof.Proofs

open Sys2Proof.Machine Sys2Proof.Laws

/-! ## Computations that leave something -/

/-- Whatever value the computation ends with has the property. -/
def Leaves {α : Type} (x : Res α) (Q : α → Prop) : Prop := ∀ a, x = .next a → Q a

section
variable {α β : Type} {Q : α → Prop} {R : β → Prop} {S : State → Prop} {s : State}

theorem leaves_next {a : α} (h : Q a) : Leaves (.next a) Q := fun _ hb => by cases hb; exact h

theorem leaves_bind {x : Res α} {f : α → Res β} (hx : Leaves x Q) (hf : ∀ a, Q a → Leaves (f a) R) :
    Leaves (x.bind f) R := fun b hb => by
  obtain ⟨a, ha, hfa⟩ := bind_eq_next.mp hb
  exact hf a (hx a ha) b hfa

theorem leaves_refused (r : Refusal) : Leaves (.refused r) Q := fun _ h => by cases h

/-- Where the intermediate value does not matter. -/
theorem leaves_bind_any {x : Res α} {f : α → Res β} (hf : ∀ a, Leaves (f a) R) : Leaves (x.bind f) R :=
  leaves_bind (Q := fun _ => True) (fun _ _ => trivial) fun a _ => hf a

theorem leaves_withWorker {w : Nat} {f : Worker → Res State} (h : ∀ k, s.workers[w]? = some k → Leaves (f k) S) :
    Leaves (s.withWorker w f) S := fun t ht => by
  obtain ⟨k, hk, hf⟩ := withWorker_eq_next.mp ht
  exact h k hk t hf

theorem leaves_withBitset {X : BitsetId} {f : Bitset → Res State} (h : ∀ B, s.bitset? X = some B → Leaves (f B) S) :
    Leaves (s.withBitset X f) S := fun t ht => by
  obtain ⟨B, hB, hf⟩ := withBitset_eq_next.mp ht
  exact h B hB t hf

theorem leaves_withMarker {M : MarkerId} {f : Marker → Res State} (h : ∀ m, Leaves (f m) S) :
    Leaves (s.withMarker M f) S := fun t ht => by
  obtain ⟨m, -, hf⟩ := withMarker_eq_next.mp ht
  exact h m t hf

end

/-! ## What a computation on a bitset passes on -/

/-- Every bitset of the block has the property. -/
structure EveryBitset (P : Bitset → Prop) (s : State) : Prop where
  spt : P s.spt
  pst : P s.pst
  sb  : ∀ k ∈ s.workers, P k.sb

/-- A computation that keeps the form and sets no bit of position 0. -/
structure Tame (X Y : Bitset) : Prop where
  keeps : Keeps X Y
  zero  : Memory.wf X.mem → X.bit 0 = false → Y.bit 0 = false

/-- A property of canonical bitsets that the content at reset and after a fill has, and that tame computations pass on. -/
structure Inherited (P : Bitset → Prop) : Prop where
  wf     : ∀ {X}, P X → X.wf
  reset  : P Bitset.reset
  filled : ∀ n, P (Bitset.filled n)
  tame   : ∀ {X Y}, Tame X Y → P X → P Y

theorem tame_wf {X Y : Bitset} (h : Tame X Y) : X.wf → Y.wf := by
  obtain ⟨-, hwf, -⟩ := h.keeps
  exact hwf

theorem inherited_wf : Inherited fun X => X.wf where
  wf hX := hX
  reset := reset_bitset_wf
  filled := filled_wf
  tame h := tame_wf h

theorem inherited_zeroClear : Inherited fun X => X.wf ∧ X.bit 0 = false where
  wf hX := hX.1
  reset := ⟨reset_bitset_wf, rfl⟩
  filled n := ⟨filled_wf n, by simp [filled_bit]⟩
  tame h hX := ⟨tame_wf h hX.1, h.zero hX.1.1 hX.2⟩

section
variable {X Y Z : Bitset}

theorem Tame.refl (X : Bitset) : Tame X X := ⟨Keeps.refl X, fun _ => id⟩

theorem Tame.trans (h : Tame X Y) (g : Tame Y Z) : Tame X Z := by
  obtain ⟨-, -, hmem⟩ := h.keeps
  exact ⟨h.keeps.trans g.keeps, fun hw h0 => g.zero (hmem hw) (h.zero hw h0)⟩

theorem tame_of_clears (h : Clears X Y) : Tame X Y :=
  ⟨h.1, fun hw h0 => Bool.eq_false_iff.mpr fun h1 => Bool.eq_false_iff.mp h0 (h.2 hw 0 h1)⟩

theorem tame_bitWrite_false {p : Nat} (h : X.bitWrite p false = .next Y) : Tame X Y := by
  refine tame_of_clears ⟨bitWrite_keeps h, fun hw q hq => ?_⟩
  rw [bitWrite_bit hw h] at hq
  split at hq
  · cases hq
  · exact hq

theorem tame_clearRange {lo hi : Nat} (h : X.clearRange lo hi = .next Y) : Tame X Y := by
  refine tame_of_clears ⟨clearRange_keeps h, fun hw q hq => ?_⟩
  rw [clearRange_bit hw h] at hq
  split at hq
  · cases hq
  · exact hq

/-- The seeds' positions lie above 0. -/
theorem tame_writeSeeds {x : Bool} {t a joff : Nat} (h : writeSeeds x t a joff X = .next Y) : Tame X Y := by
  obtain ⟨hkeeps, hbit⟩ := writeSeeds_spec h
  exact ⟨hkeeps, fun hw h0 => by rw [hbit hw, if_neg (by omega), h0]⟩

theorem tame_memWrite {b : Nat} {v : Byte} (hv : v.getLsbD 0 = false) (h : X.memWrite b v = .next Y) : Tame X Y := by
  refine ⟨memWrite_keeps h, fun hw h0 => ?_⟩
  rw [memWrite_bit hw h]
  split
  · exact hv
  · exact h0

theorem tame_clearSeeds {sa : Word} {nseed joff : Nat} (h : clearSeeds sa nseed joff X = .next Y) : Tame X Y := by
  unfold clearSeeds at h
  split at h
  · exact tame_memWrite (by split <;> rfl) h
  · exact tame_writeSeeds h

theorem tame_exposeSeeds {k : Worker} {nseed : Nat} (h : exposeSeeds k nseed X = .next Y) : Tame X Y := by
  unfold exposeSeeds at h
  split at h
  · split at h
    · exact tame_memWrite rfl h
    · exact tame_writeSeeds h
  · exact Host.Outcome.next.inj h ▸ Tame.refl X

theorem tame_clipBelow {k : Worker} {js : Word} {p d : Nat} (h : clipBelow k js p d X = .next Y) : Tame X Y := by
  unfold clipBelow at h
  split at h
  · exact tame_bitWrite_false h
  · exact Host.Outcome.next.inj h ▸ Tame.refl X

theorem tame_clipLow {k : Worker} {js : Word} (h : clipLow k js X = .next Y) : Tame X Y := by
  unfold clipLow at h
  split at h
  · obtain ⟨Z, hZ, h⟩ := bind_eq_next.mp h
    exact (tame_clipBelow hZ).trans (tame_clipBelow h)
  · exact Host.Outcome.next.inj h ▸ Tame.refl X

theorem tame_clipHigh {k : Worker} {ns mtpl : Word} (h : clipHigh k ns mtpl X = .next Y) : Tame X Y := by
  unfold clipHigh at h
  split at h
  · exact tame_clearRange h
  · exact Host.Outcome.next.inj h ▸ Tame.refl X

end

/-! ## What a step keeps -/

/-- `t` keeps what no operation changes, and every property of its bitsets that tame computations pass on. -/
structure Conserves (P : Bitset → Prop) (s t : State) : Prop where
  params  : t.params = s.params
  events  : t.events = s.events
  count   : t.workers.length = s.workers.length
  notes   : s.busy = true → t.goTicket = s.goTicket ∧ t.goDispatch = s.goDispatch
  bitsets : EveryBitset P s → EveryBitset P t

/-- `t` agrees with `s` in what `Conserves` looks at, but for the workers. -/
structure SameStore (s t : State) : Prop where
  params     : t.params = s.params
  events     : t.events = s.events
  goTicket   : t.goTicket = s.goTicket
  goDispatch : t.goDispatch = s.goDispatch
  spt        : t.spt = s.spt
  pst        : t.pst = s.pst

section
variable {P : Bitset → Prop} {s t u : State} {w : Nat} {k l : Worker} {X : BitsetId} {B : Bitset}

theorem EveryBitset.worker (h : EveryBitset P s) (hk : s.workers[w]? = some k) : P k.sb :=
  h.sb k (List.mem_of_getElem? hk)

theorem EveryBitset.named (h : EveryBitset P s) (hB : s.bitset? X = some B) : P B := by
  cases X with
  | spt => cases hB; exact h.spt
  | pst => cases hB; exact h.pst
  | sb w =>
    obtain ⟨k, hk, rfl⟩ := Option.map_eq_some_iff.mp hB
    exact h.worker hk

theorem conserves_of_workers (hs : SameStore s t) (hlen : t.workers.length = s.workers.length)
    (hw : EveryBitset P s → ∀ l ∈ t.workers, P l.sb) : Conserves P s t where
  params := hs.params
  events := hs.events
  count := hlen
  notes _ := ⟨hs.goTicket, hs.goDispatch⟩
  bitsets h := ⟨hs.spt ▸ h.spt, hs.pst ▸ h.pst, hw h⟩

theorem conserves_of_same (hs : SameStore s t) (hw : t.workers = s.workers) : Conserves P s t :=
  conserves_of_workers hs (by rw [hw]) fun h => hw ▸ h.sb

theorem Conserves.refl (s : State) : Conserves P s s := conserves_of_same (by constructor <;> rfl) rfl

/-- One worker replaced. -/
theorem conserves_of_set (hs : SameStore s t) (hw : t.workers = s.workers.set w l) (hl : EveryBitset P s → P l.sb) :
    Conserves P s t := by
  refine conserves_of_workers hs (by rw [hw, List.length_set]) fun h m hm => ?_
  obtain hm | rfl := List.mem_or_eq_of_mem_set (hw ▸ hm)
  · exact h.sb m hm
  · exact hl h

/-- One worker modified, its bitset left alone. -/
theorem conserves_of_modify {f : Worker → Worker} (hs : SameStore s t) (hw : t.workers = s.workers.modify w f)
    (hf : ∀ k, (f k).sb = k.sb) : Conserves P s t := by
  refine conserves_of_workers hs (by rw [hw, List.length_modify]) fun h m hm => ?_
  obtain ⟨v, hv⟩ := List.mem_iff_getElem?.mp (hw ▸ hm)
  rw [modify_worker] at hv
  obtain ⟨k, hk, rfl⟩ := Option.map_eq_some_iff.mp hv
  split
  · rw [hf]; exact h.worker hk
  · exact h.worker hk

/-- The worker replaced by one with the same bitset. -/
theorem conserves_of_set_same (hs : SameStore s t) (hk : s.workers[w]? = some k)
    (hw : t.workers = s.workers.set w l) (hl : l.sb = k.sb) : Conserves P s t :=
  conserves_of_set hs hw fun h => hl ▸ h.worker hk

theorem conserves_putBitset (hB : EveryBitset P s → P B) : Conserves P s (s.putBitset X B) := by
  cases X with
  | spt => exact ⟨rfl, rfl, rfl, fun _ => ⟨rfl, rfl⟩, fun h => ⟨hB h, h.pst, h.sb⟩⟩
  | pst => exact ⟨rfl, rfl, rfl, fun _ => ⟨rfl, rfl⟩, fun h => ⟨h.spt, hB h, h.sb⟩⟩
  | sb w =>
    refine conserves_of_workers (by constructor <;> rfl) (List.length_modify ..) fun h m hm => ?_
    obtain ⟨v, hv⟩ := List.mem_iff_getElem?.mp hm
    rw [State.putBitset, modify_worker] at hv
    obtain ⟨k, hk, rfl⟩ := Option.map_eq_some_iff.mp hv
    split
    · exact hB h
    · exact h.worker hk

theorem conserves_putMarker (M : MarkerId) (m : Marker) : Conserves P s (s.putMarker M m) := by
  cases M with
  | cm => exact conserves_of_same (by constructor <;> rfl) rfl
  | m w => exact conserves_of_modify (by constructor <;> rfl) rfl fun _ => rfl

theorem Conserves.trans (h : Conserves P s t) (g : Conserves P t u)
    (hn : u.goTicket = t.goTicket ∧ u.goDispatch = t.goDispatch) : Conserves P s u where
  params := g.params.trans h.params
  events := g.events.trans h.events
  count := g.count.trans h.count
  notes hb := ⟨hn.1.trans (h.notes hb).1, hn.2.trans (h.notes hb).2⟩
  bitsets hP := g.bitsets (h.bitsets hP)

end

end Sys2Proof.Proofs
end

section
/-! Every operation conserves the state (R8, R64, R131): the operations that a host or a sequencer can run conserve
every inherited property, and those that only a unit code from outside can run the canonical form. -/

namespace Sys2Proof.Proofs

open Sys2Proof.Machine Sys2Proof.Laws

/-- The operations that the host's formats and the block's own sequencers can run (R90, R30, R31): a unit code presented
from outside is needed for the others. -/
def hostOrSequencer : Instr → Bool
  | .bsFill _ _ | .bsGet _ _ | .bsSet _ _ | .bsClr _ _ | .bsPopcnt _ | .bsCopy _ _ | .bsPutb _ _ _ | .bsClrr _ _ _
  | .wcDec _ _ | .wcEnc _ | .wmInit _ | .wmNext _ | .wmSeek _ _ | .wmStep _ | .wmMark _ _ _ _ | .wmLoad _
  | .orcTest _ | .fmtDec _ _ => false
  | _ => true

section
variable {P : Bitset → Prop} {s : State}

/-! ## The host's commands -/

theorem conserves_go (mode : BitVec 2) : Conserves P s (s.go mode) := by
  unfold State.go
  split
  · exact .refl s
  · next hb => exact ⟨rfl, rfl, rfl, fun h => absurd h hb, fun h => ⟨h.spt, h.pst, h.sb⟩⟩

theorem conserves_storeMode (mode : BitVec 2) : Conserves P s (s.storeMode mode) := by
  unfold State.storeMode
  split
  · exact .refl s
  · exact conserves_of_same (by constructor <;> rfl) rfl

theorem conserves_ctrlWrite (data : Word) : Conserves P s (s.ctrlWrite data) := by
  unfold State.ctrlWrite
  split
  · exact conserves_go _
  · exact conserves_storeMode _

theorem conserves_regWrite (off : BitVec 7) (data : Word) : Conserves P s (s.regWrite off data) := by
  unfold State.regWrite
  split
  case h_3 => exact conserves_ctrlWrite data
  all_goals exact conserves_of_same (by constructor <;> rfl) rfl

theorem execHostWr_conserves (off : BitVec 7) (data : Word) : Leaves (execHostWr off data s) (Conserves P s) := by
  unfold execHostWr
  split_ifs
  · exact leaves_next (.refl s)
  · exact leaves_next (conserves_regWrite off data)
  · exact leaves_refused _

theorem execHostRd_conserves (off : BitVec 7) : Leaves (execHostRd off s) (Conserves P s) := by
  unfold execHostRd
  split
  · exact leaves_next (conserves_of_same (by constructor <;> rfl) rfl)
  · exact leaves_refused _

/-! ## The controller's operations -/

theorem execSchCheck_conserves : Leaves (execSchCheck s) (Conserves P s) := by
  refine leaves_next ?_
  split <;> exact conserves_of_same (by constructor <;> rfl) rfl

theorem execSchConfig_conserves : Leaves (execSchConfig s) (Conserves P s) := by
  refine leaves_next ?_
  split_ifs <;> exact conserves_of_same (by constructor <;> rfl) rfl

theorem execSchJoin_conserves : Leaves (execSchJoin s) (Conserves P s) := by
  refine leaves_next ?_
  split <;> exact conserves_of_same (by constructor <;> rfl) rfl

theorem fill_leaves (hP : Inherited P) (cap n : Nat) : Leaves (Bitset.fill cap n) P := fun X hX => by
  obtain ⟨-, rfl⟩ := fill_eq_next.mp hX
  exact hP.filled _

theorem execOrcBuild_conserves (hP : Inherited P) : Leaves (execOrcBuild s) (Conserves P s) := by
  refine leaves_bind (fill_leaves hP _ _) fun X hX => ?_
  refine leaves_bind (Q := fun r => P r.2)
    (fun r hr => hP.tame (tame_of_clears (oracleLoop_clears hr)) hX) fun r hr => ?_
  exact leaves_next ⟨rfl, rfl, rfl, fun _ => ⟨rfl, rfl⟩, fun h => ⟨hr, h.pst, h.sb⟩⟩

theorem execTplBuild_conserves (hP : Inherited P) : Leaves (execTplBuild s) (Conserves P s) := by
  refine leaves_bind (fill_leaves hP _ _) fun X hX => ?_
  refine leaves_bind (Q := fun r => P r.2)
    (fun r hr => hP.tame (tame_of_clears (templateLoop_clears hr)) hX) fun r hr => ?_
  refine leaves_bind (fun Y hY => hP.tame (tame_clearSeeds hY) hr) fun Y hY => ?_
  exact leaves_next ⟨rfl, rfl, rfl, fun _ => ⟨rfl, rfl⟩, fun h => ⟨h.spt, hY, h.sb⟩⟩

/-! ## The workers' operations -/

theorem copy_leaves (hP : Inherited P) (cap : Nat) (X : Bitset) : Leaves (Bitset.copy cap X) fun Y => P X → P Y :=
  fun Y hY hX => by
    obtain ⟨-, rfl⟩ := copy_eq_next.mp hY
    rwa [copied_of_wf (hP.wf hX)]

theorem execSegCopy_conserves (hP : Inherited P) (w : Nat) : Leaves (execSegCopy w s) (Conserves P s) := by
  refine leaves_withWorker fun k hk => leaves_bind (copy_leaves hP _ s.pst) fun X hX => ?_
  refine leaves_bind (Q := fun Y => P s.pst → P Y) (fun Y hY h => hP.tame (tame_exposeSeeds hY) (hX h)) fun Y hY => ?_
  exact leaves_next (conserves_of_set (by constructor <;> rfl) rfl fun h => hY h.pst)

theorem execSegClip_conserves (hP : Inherited P) (w : Nat) : Leaves (execSegClip w s) (Conserves P s) := by
  refine leaves_withWorker fun k hk => leaves_bind (Q := Tame k.sb) (fun _ => tame_clipLow) fun X hX => ?_
  refine leaves_bind (Q := Tame k.sb) (fun _ hY => hX.trans (tame_clipHigh hY)) fun Y hY => ?_
  exact leaves_next (conserves_of_set (by constructor <;> rfl) rfl fun h => hP.tame hY (h.worker hk))

theorem execSegSieve_conserves (hP : Inherited P) (w : Nat) : Leaves (execSegSieve w s) (Conserves P s) := by
  refine leaves_withWorker fun k hk => leaves_bind (Q := fun r => Tame k.sb r.2)
    (fun r hr => tame_of_clears (sieveLoop_clears hr)) fun r hr => ?_
  exact leaves_next (conserves_of_set (by constructor <;> rfl) rfl fun h => hP.tame hr (h.worker hk))

/-- An operation that ends with the worker replaced by one with the same bitset. -/
theorem leaves_conserves_of_set {w : Nat} {k l : Worker} {t : State} (hk : s.workers[w]? = some k) (hs : SameStore s t)
    (hw : t.workers = s.workers.set w l) (hl : l.sb = k.sb) : Leaves (.next t) (Conserves P s) :=
  leaves_next (conserves_of_set_same hs hk hw hl)

theorem execSchDispatch_conserves (w : Nat) : Leaves (execSchDispatch w s) (Conserves P s) := by
  refine leaves_withWorker fun k hk => leaves_next ?_
  split
  · exact conserves_of_set_same (by constructor <;> rfl) hk rfl rfl
  · exact .refl s

theorem execGateWait_conserves (w : Nat) : Leaves (execGateWait w s) (Conserves P s) := by
  refine leaves_withWorker fun k hk => leaves_next ?_
  split_ifs
  · exact conserves_of_set_same (by constructor <;> rfl) hk rfl rfl
  · exact conserves_of_set_same (by constructor <;> rfl) hk rfl rfl
  · exact .refl s

theorem execGateEmit_conserves (w : Nat) : Leaves (execGateEmit w s) (Conserves P s) := by
  refine leaves_withWorker fun k hk => ?_
  split
  · exact leaves_conserves_of_set hk (by constructor <;> rfl) rfl rfl
  · split
    · exact leaves_next (.refl s)
    · exact leaves_conserves_of_set hk (by constructor <;> rfl) rfl rfl
    · exact leaves_conserves_of_set hk (by constructor <;> rfl) rfl rfl

/-! ## Every operation -/

/-- What the host and the sequencers run passes every inherited property on. -/
theorem exec_conserves (hP : Inherited P) {i : Instr} (hi : hostOrSequencer i = true) :
    Leaves (exec i s) (Conserves P s) := by
  have withWorker_set {w : Nat} {f : Worker → State} {g : Worker → Worker} (hs : ∀ k, SameStore s (f k))
      (hw : ∀ k, (f k).workers = s.workers.set w (g k)) (hg : ∀ k, (g k).sb = k.sb) :
      Leaves (s.withWorker w fun k => .next (f k)) (Conserves P s) :=
    leaves_withWorker fun k hk => leaves_conserves_of_set hk (hs k) (hw k) (hg k)
  cases i with
  | bsFill | bsGet | bsSet | bsClr | bsPopcnt | bsCopy | bsPutb | bsClrr | wcDec | wcEnc | wmInit | wmNext | wmSeek
  | wmStep | wmMark | wmLoad | orcTest | fmtDec => cases hi
  | orcBuild => exact execOrcBuild_conserves hP
  | tplBuild => exact execTplBuild_conserves hP
  | segSetup w => exact withWorker_set (fun _ => by constructor <;> rfl) (fun _ => rfl) fun _ => rfl
  | segCopy w => exact execSegCopy_conserves hP w
  | segClip w => exact execSegClip_conserves hP w
  | segSieve w => exact execSegSieve_conserves hP w
  | aggCount w => exact withWorker_set (fun _ => by constructor <;> rfl) (fun _ => rfl) fun _ => rfl
  | aggSum w =>
    exact leaves_withWorker fun k hk => leaves_bind_any fun _ =>
      leaves_conserves_of_set hk (by constructor <;> rfl) rfl rfl
  | aggPrint w =>
    exact leaves_withWorker fun k hk => leaves_bind_any fun _ =>
      leaves_conserves_of_set hk (by constructor <;> rfl) rfl rfl
  | schCheck => exact execSchCheck_conserves
  | schConfig => exact execSchConfig_conserves
  | schDispatch w => exact execSchDispatch_conserves w
  | schReduce w => exact withWorker_set (fun _ => by constructor <;> rfl) (fun _ => rfl) fun _ => rfl
  | gateWait w => exact execGateWait_conserves w
  | gateEmit w => exact execGateEmit_conserves w
  | gatePass w => exact withWorker_set (fun _ => by constructor <;> rfl) (fun _ => rfl) fun _ => rfl
  | schJoin => exact execSchJoin_conserves
  | schFail w => exact withWorker_set (fun _ => by constructor <;> rfl) (fun _ => rfl) fun _ => rfl
  | hostRd off => exact execHostRd_conserves off
  | hostWr off data => exact execHostWr_conserves off data
  | sieveCount | sieveSum | sievePrint | sieveRsvd => exact leaves_next (conserves_go _)
  | ctrlMode mode => exact leaves_next (conserves_storeMode mode)

/-! ## What only a unit code from outside can run -/

theorem leaves_returns (vs : List Word) : Leaves (.next (s.returns vs)) (Conserves P s) :=
  leaves_next (conserves_of_same (by constructor <;> rfl) rfl)

theorem leaves_putMarker (M : MarkerId) (m : Marker) : Leaves (.next (s.putMarker M m)) (Conserves P s) :=
  leaves_next (conserves_putMarker M m)

theorem everyBitset_wf_iff : EveryBitset (fun Y => Y.wf) s ↔ s.memWf :=
  ⟨fun h => ⟨h.spt, h.pst, h.sb⟩, fun ⟨hspt, hpst, hsb⟩ => ⟨hspt, hpst, hsb⟩⟩

/-- An operation that puts a canonical bitset where a canonical one stands. -/
theorem leaves_putBitset {X : BitsetId} {x : Res Bitset} (hx : Leaves x fun C => s.memWf → C.wf) :
    Leaves (x.bind fun C => .next (s.putBitset X C)) (Conserves (fun Y => Y.wf) s) :=
  leaves_bind hx fun _ hC => leaves_next (conserves_putBitset fun h => hC (everyBitset_wf_iff.mp h))

theorem memWf_named {X : BitsetId} {B : Bitset} (h : s.memWf) (hB : s.bitset? X = some B) : B.wf :=
  (everyBitset_wf_iff.mpr h).named hB

theorem execBsCopy_conserves (X Y : BitsetId) : Leaves (execBsCopy X Y s) (Conserves (fun Z => Z.wf) s) :=
  leaves_withBitset fun _ _ => leaves_withBitset fun B hB =>
    leaves_putBitset fun C hC h => copy_leaves inherited_wf _ B C hC (memWf_named h hB)

theorem execWmMark_conserves (M : MarkerId) (X : BitsetId) (joff mx : Word) :
    Leaves (execWmMark M X joff mx s) (Conserves (fun Y => Y.wf) s) := by
  refine leaves_withMarker fun m => leaves_withBitset fun B hB => ?_
  refine leaves_bind (Q := fun r => Keeps B r.2) (fun r hr => ?_) fun r hr => leaves_next ?_
  · obtain ⟨-, -, -, -, hkeeps, -⟩ := mark_frame hr
    exact hkeeps
  · obtain ⟨-, hwf, -⟩ := hr
    have hB' : (s.putMarker M r.1).bitset? X = some B := (putMarker_bitset s M r.1 X).trans hB
    exact (conserves_putMarker M r.1).trans (conserves_putBitset fun h => hwf (h.named hB')) (by simp)

/-- Every operation keeps the canonical form, even one that only a unit code from outside can run. -/
theorem exec_conserves_wf (i : Instr) : Leaves (exec i s) (Conserves (fun Y => Y.wf) s) := by
  cases i with
  | bsFill X n => exact leaves_withBitset fun _ _ => leaves_putBitset fun C hC _ => fill_leaves inherited_wf _ _ C hC
  | bsGet X p => exact leaves_withBitset fun _ _ => leaves_bind_any fun _ => leaves_returns _
  | bsSet X p => exact leaves_withBitset fun _ hB => leaves_putBitset fun C hC h => bitWrite_wf (memWf_named h hB) hC
  | bsClr X p => exact leaves_withBitset fun _ hB => leaves_putBitset fun C hC h => bitWrite_wf (memWf_named h hB) hC
  | bsPopcnt X => exact leaves_withBitset fun _ _ => leaves_returns _
  | bsCopy X Y => exact execBsCopy_conserves X Y
  | bsPutb X b v => exact leaves_withBitset fun _ hB => leaves_putBitset fun C hC h => memWrite_wf (memWf_named h hB) hC
  | bsClrr X lo hi =>
    exact leaves_withBitset fun _ hB => leaves_putBitset fun C hC h => tame_wf (tame_clearRange hC) (memWf_named h hB)
  | wcDec base i =>
    change Leaves (execWcDec base i s) _
    unfold execWcDec
    split
    · exact leaves_returns _
    · exact leaves_refused _
  | wcEnc n => exact leaves_returns _
  | wmInit M => exact leaves_withMarker fun _ => leaves_putMarker M _
  | wmNext M => exact leaves_withMarker fun _ => leaves_next ((conserves_putMarker M _).trans
      (conserves_of_same (by constructor <;> rfl) rfl) ⟨rfl, rfl⟩)
  | wmSeek M joff => exact leaves_withMarker fun _ => leaves_putMarker M _
  | wmStep M => exact leaves_withMarker fun _ => leaves_putMarker M _
  | wmMark M X joff mx => exact execWmMark_conserves M X joff mx
  | wmLoad w => exact leaves_withWorker fun k hk => leaves_conserves_of_set hk (by constructor <;> rfl) rfl rfl
  | orcTest i => exact leaves_bind_any fun _ => leaves_returns _
  | fmtDec w v => exact leaves_withWorker fun k hk => leaves_conserves_of_set hk (by constructor <;> rfl) rfl rfl
  | _ => exact exec_conserves inherited_wf rfl

end

/-! ## Every turn (R30, R31) -/

theorem decode_controllerCode {p : Phase} {c : Nat} (h : controllerCode p = some c) :
    ∃ i, decode (unitCommand c {}) = .ok i ∧ hostOrSequencer i = true := by
  cases p with
  | idle | parallel | done | failed => cases h
  | check | config | oracle | template | join => cases h; exact ⟨_, rfl, rfl⟩

theorem decode_workerCode {p : WPhase} {m : BitVec 2} {c : Nat} (h : workerCode p m = some c) (w : Nat) :
    ∃ i, decode (unitCommand c { w := w }) = .ok i ∧ hostOrSequencer i = true := by
  cases p with
  | idle => cases h
  | agg => obtain rfl | rfl | rfl := workerCode_agg_cases h <;> exact ⟨_, rfl, rfl⟩
  | setup | copy | clip | sieve | reduce | gate | emit | pass | retire => cases h; exact ⟨_, rfl, rfl⟩

section
variable {P : Bitset → Prop} {s t : State}

theorem conserves_controllerNext (p : Phase) : Conserves P s (controllerNext p s) := by
  cases p <;> exact conserves_of_same (by constructor <;> rfl) rfl

theorem conserves_workerAdvance (w : Nat) (p : WPhase) : Conserves P s (workerAdvance w p s) := by
  unfold workerAdvance
  split
  · exact conserves_of_modify (by constructor <;> rfl) rfl fun _ => rfl
  · exact .refl s

theorem runCommand_conserves (hP : Inherited P) {c : Command} {i : Instr} (hc : decode c = .ok i)
    (hi : hostOrSequencer i = true) : Leaves (runCommand c s) (Conserves P s) :=
  runCommand_of_decode hc s ▸ exec_conserves hP hi

theorem controllerTurn_conserves (hP : Inherited P) : Leaves (controllerTurn s) (Conserves P s) := by
  unfold controllerTurn
  split
  · next c hc =>
    obtain ⟨i, hd, hi⟩ := decode_controllerCode hc
    exact leaves_bind (runCommand_conserves hP hd hi) fun t ht =>
      leaves_next (ht.trans (conserves_controllerNext _) (by simp))
  · refine leaves_next ?_
    split
    · exact conserves_of_same (by constructor <;> rfl) rfl
    · exact .refl s

theorem workerTurn_conserves (hP : Inherited P) (w : Nat) : Leaves (workerTurn w s) (Conserves P s) := by
  unfold workerTurn
  split
  · exact leaves_next (.refl s)
  · split
    · split
      · next c hc =>
        obtain ⟨i, hd, hi⟩ := decode_workerCode hc w
        exact leaves_bind (runCommand_conserves hP hd hi) fun t ht =>
          leaves_next (ht.trans (conserves_workerAdvance w _) (by simp))
      · exact leaves_next (.refl s)
    · exact leaves_next (.refl s)

theorem dispatchTurn_conserves (hP : Inherited P) (w : Nat) : Leaves (dispatchTurn w s) (Conserves P s) := by
  unfold dispatchTurn
  split
  · exact runCommand_conserves hP rfl rfl
  · exact leaves_next (.refl s)

theorem takeTurn_conserves (hP : Inherited P) (a : Turn) : Leaves (takeTurn a s) (Conserves P s) := by
  cases a with
  | controller => exact controllerTurn_conserves hP
  | dispatch w => exact dispatchTurn_conserves hP w
  | worker w => exact workerTurn_conserves hP w

/-! ## Every step -/

/-- A command runs the operation it decodes to. -/
theorem runCommand_eq_next {c : Command} (h : runCommand c s = .next t) :
    ∃ i, decode c = .ok i ∧ exec i s = .next t := by
  unfold runCommand at h
  split at h
  · next i hi => exact ⟨i, hi, h⟩
  · cases h
  · cases h

/-- The formats of the host hold no operation that takes a unit code. -/
theorem hostOrSequencer_of_fromOutside {c : Command} {i : Instr} (hc : (Event.command c).fromOutside = true)
    (hi : decode c = .ok i) : hostOrSequencer i = true := by
  cases c with
  | unit code wires => cases hc
  | ctrl data =>
    cases hi
    unfold decodeCtrl
    split_ifs
    · split <;> rfl
    · rfl
  | reg access =>
    cases hi
    unfold decodeReg
    split <;> rfl

/-- What a step takes from the environment's part of the state and then does. -/
inductive StepCase (s t : State) : Prop
  /-- the external reset (R340) -/
  | reset (he : s.events.head? = some .reset) (ht : t = ({ s with events := s.events.tail } : State).externalReset)
  /-- the command presented next -/
  | command (c : Command) (he : s.events.head? = some (.command c))
      (h : runCommand c { s with events := s.events.tail } = .next t)
  /-- an agent's turn, presented or chosen freely -/
  | turn (a : Turn) (n : Nat) (he : s.events.head? ≠ some .reset)
      (h : takeTurn a { s with events := s.events.tail, turns := n } = .next t)
  /-- nothing, in a quiescent phase (R335) -/
  | quiet (ht : t = s)

theorem step_cases (h : step s = .next t) : StepCase s t := by
  unfold step at h
  split at h
  · next e rest he =>
    have hhead : s.events.head? = some e := by rw [he, List.head?_cons]
    have htail : s.events.tail = rest := by rw [he, List.tail_cons]
    subst htail
    cases e with
    | command c => exact .command c hhead h
    | reset => exact .reset hhead (Host.Outcome.next.inj h).symm
    | turn a => exact .turn a s.turns (by rw [hhead]; nofun) h
  · next he =>
    unfold freeTurn at h
    split at h
    · exact .quiet (Host.Outcome.next.inj h).symm
    · have hself : ({ s with turns := s.turns + 1 } : State) =
          { s with events := s.events.tail, turns := s.turns + 1 } := by rw [he, List.tail_nil, ← he]
      rw [hself] at h
      exact .turn _ _ (by rw [he]; nofun) h

theorem everyBitset_externalReset (hP : Inherited P) (s : State) : EveryBitset P s.externalReset := by
  refine ⟨hP.reset, hP.reset, fun k hk => ?_⟩
  rw [externalReset_workers] at hk
  obtain ⟨-, rfl⟩ := List.mem_replicate.mp hk
  exact hP.reset

/-- A step driven by the host or the agents passes every inherited property on. -/
theorem step_everyBitset (hP : Inherited P) (hw : s.hardwired) (h : step s = .next t) (hs : EveryBitset P s) :
    EveryBitset P t := by
  obtain ⟨-, rfl⟩ | ⟨c, he, h⟩ | ⟨a, n, -, h⟩ | rfl := step_cases h
  · exact everyBitset_externalReset hP _
  · obtain ⟨i, hd, h⟩ := runCommand_eq_next h
    have hi := hostOrSequencer_of_fromOutside (hw _ (List.mem_of_head? he)) hd
    exact (exec_conserves hP hi t h).bitsets ⟨hs.spt, hs.pst, hs.sb⟩
  · exact (takeTurn_conserves hP a t h).bitsets ⟨hs.spt, hs.pst, hs.sb⟩
  · exact hs

end

/-- Settles O57: every operation keeps the canonical form, and the reset leaves canonical bitsets. -/
theorem stepKeepsBitsetsCanonical : Obligations.StepKeepsBitsetsCanonical := by
  unfold Obligations.StepKeepsBitsetsCanonical
  intro s t ⟨hspt, hpst, hsb⟩ h
  refine everyBitset_wf_iff.mp ?_
  obtain ⟨-, rfl⟩ | ⟨c, -, h⟩ | ⟨a, n, -, h⟩ | rfl := step_cases h
  · exact everyBitset_externalReset inherited_wf _
  · obtain ⟨i, -, h⟩ := runCommand_eq_next h
    exact (exec_conserves_wf i t h).bitsets ⟨hspt, hpst, hsb⟩
  · exact (takeTurn_conserves inherited_wf a t h).bitsets ⟨hspt, hpst, hsb⟩
  · exact ⟨hspt, hpst, hsb⟩

/-- Settles O60: a canonical bitset with position 0 clear is inherited by every operation of the host and the
sequencers. -/
theorem stepKeepsPositionZeroClear : Obligations.StepKeepsPositionZeroClear := by
  unfold Obligations.StepKeepsPositionZeroClear
  intro s t hw ⟨hspt, hpst, hsb⟩ ⟨hspt0, hpst0, hsb0⟩ h
  obtain ⟨⟨-, hspt'⟩, ⟨-, hpst'⟩, hsb'⟩ := step_everyBitset inherited_zeroClear hw h
    ⟨⟨hspt, hspt0⟩, ⟨hpst, hpst0⟩, fun k hk => ⟨hsb k hk, hsb0 k hk⟩⟩
  exact ⟨hspt', hpst', fun k hk => (hsb' k hk).2⟩

end Sys2Proof.Proofs
end

section
/-! What a step driven by the host or the agents does to the phases and to the status flags (R29 to R31, R45, R46,
R301): a worker moves along its table, or the controller does while every worker stays. -/

namespace Sys2Proof.Proofs

open Sys2Proof.Machine Sys2Proof.Laws

/-- `t` agrees with `s` in the status flags, the error code and the result. -/
structure SameStatus (s t : State) : Prop where
  busy    : t.busy = s.busy
  done    : t.done = s.done
  err     : t.err = s.err
  errcode : t.errcode = s.errcode
  result  : t.result = s.result

/-- What the controller or the host can do to the phase and the status. -/
inductive StatusMove (s t : State) : Prop
  /-- nothing -/
  | keep (same : SameStatus s t) (hp : t.phase = s.phase) (hm : t.jMode = s.jMode)
  /-- a move between two phases of a running job -/
  | advance (p p' : Phase) (same : SameStatus s t) (hs : s.phase = p) (ht : t.phase = p')
      (hrun : p.quiescent = false ∧ p'.quiescent = false) (hmove : (p, p') ∈ phaseMoves)
  /-- an error ends the job (R310) -/
  | fail (u : State) (e : ErrorCause) (ht : t = u.raise e) (hmove : (s.phase, .failed) ∈ phaseMoves)
  /-- the job ends with a result (R270) -/
  | finish (hp : s.phase = .join) (ht : t = s.finish)
  /-- the host starts a job (R281) -/
  | go (mode : BitVec 2) (ht : t = s.acceptGo mode) (hmove : (s.phase, .check) ∈ phaseMoves)

/-- What a step but the reset can do to the phases and the status. -/
inductive HardwiredMove (s t : State) : Prop
  /-- a worker's turn or a hand-out -/
  | worker (w : Nat) (k : Worker) (hk : s.workers[w]? = some k) (hm : WorkerMove s w k t)
  /-- the controller's turn or the host's command -/
  | control (hw : t.workers = s.workers) (hm : StatusMove s t)

section
variable {s t : State}

theorem HardwiredMove.refl (s : State) : HardwiredMove s s :=
  .control rfl (.keep (by constructor <;> rfl) rfl rfl)

/-! ## The controller's turn (R30) -/

theorem execSchCheck_status (hp : s.phase = .check) (h : execSchCheck s = .next t) : HardwiredMove s t := by
  simp only [execSchCheck, Host.Outcome.next.injEq] at h
  split at h
  · exact h ▸ .control rfl (.fail _ _ rfl (by rw [hp]; decide))
  · exact h ▸ .control rfl (.advance .check .config (by constructor <;> rfl) hp rfl (by decide) (by decide))

theorem execSchConfig_status (hp : s.phase = .config) (h : execSchConfig s = .next t) : HardwiredMove s t := by
  simp only [execSchConfig, Host.Outcome.next.injEq] at h
  split_ifs at h
  · exact h ▸ .control rfl (.fail _ _ rfl (by rw [hp]; decide))
  · exact h ▸ .control rfl (.fail _ _ rfl (by rw [hp]; decide))
  · exact h ▸ .control rfl (.advance .config .oracle (by constructor <;> rfl) hp rfl (by decide) (by decide))

theorem execSchJoin_status (hp : s.phase = .join) (h : execSchJoin s = .next t) : HardwiredMove s t := by
  simp only [execSchJoin, Host.Outcome.next.injEq] at h
  split at h
  · exact h ▸ .control rfl (.fail _ _ rfl (by rw [hp]; decide))
  · exact h ▸ .control rfl (.finish hp rfl)

theorem controllerTurn_status (h : controllerTurn s = .next t) : HardwiredMove s t := by
  have quiet (hq : s.phase.quiescent = true) : HardwiredMove s t := by
    cases (controllerTurn_quiescent hq).symm.trans h
    exact .refl s
  cases hp : s.phase with
  | idle | done | failed => exact quiet (hp ▸ rfl)
  | check => exact execSchCheck_status hp (controllerTurn_check hp ▸ h)
  | config => exact execSchConfig_status hp (controllerTurn_config hp ▸ h)
  | oracle =>
    obtain ⟨u, hu, h⟩ := bind_eq_next.mp (controllerTurn_oracle hp ▸ h)
    obtain ⟨m, X, rfl⟩ := execOrcBuild_frame hu
    cases h
    exact .control rfl (.advance .oracle .template (by constructor <;> rfl) hp rfl (by decide) (by decide))
  | template =>
    obtain ⟨u, hu, h⟩ := bind_eq_next.mp (controllerTurn_template hp ▸ h)
    obtain ⟨m, X, i, c, k, r, rfl⟩ := execTplBuild_frame hu
    cases h
    exact .control rfl (.advance .template .parallel (by constructor <;> rfl) hp rfl (by decide) (by decide))
  | parallel =>
    have h := Host.Outcome.next.inj ((controllerTurn_parallel hp).symm.trans h)
    split at h
    · exact h ▸ .control rfl (.advance .parallel .join (by constructor <;> rfl) hp rfl (by decide) (by decide))
    · exact h ▸ .refl s
  | join => exact execSchJoin_status hp (controllerTurn_join hp ▸ h)

theorem takeTurn_status {a : Turn} (h : takeTurn a s = .next t) : HardwiredMove s t := by
  have agent {w : Nat} (hc : t = s ∨ ∃ k, s.workers[w]? = some k ∧ s.phase = .parallel ∧ WorkerMove s w k t) :
      HardwiredMove s t := by
    obtain rfl | ⟨k, hk, -, hm⟩ := hc
    · exact .refl _
    · exact .worker w k hk hm
  cases a with
  | controller => exact controllerTurn_status h
  | dispatch w => exact agent (dispatchTurn_cases h)
  | worker w => exact agent (workerTurn_cases h)

/-! ## The host's commands (R281 to R288) -/

theorem check_mem_phaseMoves (hf : s.flagsAgree) (hb : s.busy = false) : (s.phase, .check) ∈ phaseMoves := by
  have hq := quiescent_of_not_busy hf hb
  revert hq
  generalize s.phase = p
  cases p <;> decide

theorem ctrlWrite_status (hf : s.flagsAgree) (data : Word) : HardwiredMove s (s.ctrlWrite data) := by
  unfold State.ctrlWrite State.go State.storeMode
  split_ifs with hg hb hb
  · exact .refl s
  · exact .control rfl (.go _ rfl (check_mem_phaseMoves hf (by simpa using hb)))
  · exact .refl s
  · exact .control rfl (.keep (by constructor <;> rfl) rfl rfl)

theorem regWrite_status (hf : s.flagsAgree) (off : BitVec 7) (data : Word) : HardwiredMove s (s.regWrite off data) := by
  unfold State.regWrite
  split
  case h_3 => exact ctrlWrite_status hf data
  all_goals exact .control rfl (.keep (by constructor <;> rfl) rfl rfl)

theorem execHostWr_status {off : BitVec 7} {data : Word} (hf : s.flagsAgree) (h : execHostWr off data s = .next t) :
    HardwiredMove s t := by
  unfold execHostWr at h
  split_ifs at h with ho hb
  · exact Host.Outcome.next.inj h ▸ .refl s
  · exact Host.Outcome.next.inj h ▸ regWrite_status hf off data

theorem execHostRd_status {off : BitVec 7} (h : execHostRd off s = .next t) : HardwiredMove s t := by
  unfold execHostRd at h
  split at h
  · exact Host.Outcome.next.inj h ▸ .control rfl (.keep (by constructor <;> rfl) rfl rfl)
  · cases h

theorem hostCommand_status {c : Command} (hf : s.flagsAgree) (hc : (Event.command c).fromOutside = true)
    (h : runCommand c s = .next t) : HardwiredMove s t := by
  obtain ⟨i, hi, h⟩ := runCommand_eq_next h
  cases c with
  | unit code wires => cases hc
  | ctrl data =>
    cases hi
    rw [exec_decodeCtrl] at h
    exact Host.Outcome.next.inj h ▸ ctrlWrite_status hf data
  | reg access =>
    cases hi
    unfold decodeReg at h
    split at h
    · exact execHostWr_status hf h
    · exact execHostRd_status h

/-- A step is the reset or a move of a worker or the controller. -/
theorem step_status (hw : s.hardwired) (hf : s.flagsAgree) (h : step s = .next t) :
    (s.events.head? = some .reset ∧ t = ({ s with events := s.events.tail } : State).externalReset) ∨
      ∃ es n, HardwiredMove { s with events := es, turns := n } t := by
  obtain ⟨he, ht⟩ | ⟨c, he, h⟩ | ⟨a, n, -, h⟩ | rfl := step_cases h
  · exact .inl ⟨he, ht⟩
  · have hc := hw _ (List.mem_of_head? he)
    exact .inr ⟨_, s.turns, hostCommand_status (s := { s with events := s.events.tail }) hf hc h⟩
  · exact .inr ⟨_, n, takeTurn_status h⟩
  · exact .inr ⟨t.events, t.turns, .refl t⟩

/-! ## The flags agree with the phase (R45, R46) -/

theorem flagsAgree_externalReset (s : State) : s.externalReset.flagsAgree := by
  simp [State.flagsAgree]

theorem flagsAgree_raise (s : State) (e : ErrorCause) : (s.raise e).flagsAgree := by
  have hcode : 1 ≤ (errorCode e).toNat ∧ (errorCode e).toNat ≤ 4 := by cases e <;> decide
  simpa [State.flagsAgree, State.raise] using hcode

theorem flagsAgree_acceptGo (s : State) (mode : BitVec 2) : (s.acceptGo mode).flagsAgree := by
  simp [State.flagsAgree, State.acceptGo]

theorem SameStatus.flagsAgree (same : SameStatus s t) (hf : s.flagsAgree) (hp : t.phase = s.phase)
    (hm : t.jMode = s.jMode) : t.flagsAgree := by
  obtain ⟨hb, hd, he, hc, hr⟩ := same
  unfold State.flagsAgree
  rw [hb, hd, he, hc, hr, hp, hm]
  exact hf

theorem quiescent_eq_false_iff (p : Phase) : p.quiescent = false ↔ p ≠ .idle ∧ p ≠ .done ∧ p ≠ .failed := by
  cases p <;> decide

/-- The status of a running job: `BUSY` alone is set, and there is no error code and no result. -/
theorem flagsAgree_iff_of_running (hp : s.phase.quiescent = false) :
    s.flagsAgree ↔ s.busy = true ∧ s.done = false ∧ s.err = false ∧ s.errcode = 0 ∧ s.result = 0 := by
  have hrun := (quiescent_eq_false_iff _).mp hp
  obtain ⟨hidle, hdone, hfailed⟩ := id hrun
  constructor
  · rintro ⟨hb, hd, he, hc, -, hr, -⟩
    have herr : s.err = false := by simpa [hfailed] using he
    exact ⟨hb.mpr hrun, by simpa [hdone] using hd, herr, hc herr, hr hdone⟩
  · rintro ⟨hb, hd, he, hc, hr⟩
    simp [State.flagsAgree, hb, hd, he, hc, hr, hidle, hdone, hfailed]

theorem flagsAgree_finish (hf : s.flagsAgree) (hp : s.phase = .join) : s.finish.flagsAgree := by
  obtain ⟨-, -, herr, hcode, -⟩ := (flagsAgree_iff_of_running (by rw [hp]; rfl)).mp hf
  simp only [State.flagsAgree, State.finish]
  refine ⟨by simp, by simp, by simp [herr], fun _ => hcode, fun h => absurd (herr.symm.trans h) nofun, by simp,
    fun _ hm => jobResult_of_print hm⟩

theorem flagsAgree_of_statusMove (hf : s.flagsAgree) (hm : StatusMove s t) : t.flagsAgree := by
  cases hm with
  | keep same hp hm => exact same.flagsAgree hf hp hm
  | advance p p' same hs ht hrun hmove =>
    obtain ⟨hb, hd, he, hc, hr⟩ := same
    obtain ⟨hs', ht'⟩ := hrun
    rw [flagsAgree_iff_of_running (ht ▸ ht'), hb, hd, he, hc, hr]
    exact (flagsAgree_iff_of_running (hs ▸ hs')).mp hf
  | fail u e ht _ => exact ht ▸ flagsAgree_raise u e
  | finish hp ht => exact ht ▸ flagsAgree_finish hf hp
  | go mode ht _ => exact ht ▸ flagsAgree_acceptGo s mode

theorem WorkerMove.sameStatus {w : Nat} {k : Worker} (hm : WorkerMove s w k t) :
    SameStatus s t ∧ t.phase = s.phase ∧ t.jMode = s.jMode := by
  cases hm <;> exact ⟨by constructor <;> rfl, rfl, rfl⟩

theorem flagsAgree_of_move (hf : s.flagsAgree) (hm : HardwiredMove s t) : t.flagsAgree := by
  cases hm with
  | worker w k hk hm =>
    obtain ⟨same, hp, hmode⟩ := hm.sameStatus
    exact same.flagsAgree hf hp hmode
  | control hw hm => exact flagsAgree_of_statusMove hf hm

/-! ## The moves lie in the tables (R30, R31) -/

theorem StatusMove.mem_phaseMoves (hm : StatusMove s t) : t.phase = s.phase ∨ (s.phase, t.phase) ∈ phaseMoves := by
  cases hm with
  | keep same hp hm => exact .inl hp
  | advance p p' same hs ht hrun hmove => exact .inr (by rwa [hs, ht])
  | fail u e ht hmove => exact .inr (by rw [ht]; exact hmove)
  | finish hp ht =>
    have hmove : (Phase.join, Phase.done) ∈ phaseMoves := by decide
    exact .inr (by rw [hp, ht]; exact hmove)
  | go mode ht hmove => exact .inr (by rw [ht]; exact hmove)

theorem workerNext_mem_workerMoves {p p' : WPhase} {m : BitVec 2} (h : workerNext p m = some p') :
    (p, p') ∈ workerMoves := by
  cases p with
  | idle | reduce | gate | emit | pass | retire => cases h
  | setup | copy | clip | sieve => cases h; decide
  | agg =>
    cases h
    split <;> decide

/-- A worker's phase stays or makes a move of R31. -/
def AlongTable (k l : Worker) : Prop := l.wphase = k.wphase ∨ (k.wphase, l.wphase) ∈ workerMoves

theorem alongTable_of_mem {k l : Worker} {p p' : WPhase} (hk : k.wphase = p) (hl : l.wphase = p')
    (h : (p, p') ∈ workerMoves) : AlongTable k l :=
  .inr (by rwa [hk, hl])

/-- A worker's move replaces that worker by one further along the table. -/
theorem WorkerMove.alongTable {w : Nat} {k : Worker} (hm : WorkerMove s w k t) :
    ∃ l, t.workers = s.workers.set w l ∧ AlongTable k l := by
  cases hm with
  | dispatch hidle _ _ => exact ⟨_, rfl, alongTable_of_mem hidle (p' := .setup) rfl (by decide)⟩
  | compute l hnext _ _ _ => exact ⟨l, rfl, .inr (workerNext_mem_workerMoves hnext)⟩
  | print text hphase _ => exact ⟨_, rfl, alongTable_of_mem hphase (p' := .gate) rfl (by decide)⟩
  | reduce hphase => exact ⟨_, rfl, alongTable_of_mem hphase (p' := .idle) rfl (by decide)⟩
  | takeGate hphase _ _ => exact ⟨_, rfl, alongTable_of_mem hphase (p' := .emit) rfl (by decide)⟩
  | giveUp hphase _ => exact ⟨_, rfl, alongTable_of_mem hphase (p' := .retire) rfl (by decide)⟩
  | drained hphase _ => exact ⟨_, rfl, alongTable_of_mem hphase (p' := .pass) rfl (by decide)⟩
  | accepted b rest more _ _ => exact ⟨_, rfl, .inl rfl⟩
  | failed more hphase _ => exact ⟨_, rfl, alongTable_of_mem hphase (p' := .retire) rfl (by decide)⟩
  | pass hphase => exact ⟨_, rfl, alongTable_of_mem hphase (p' := .idle) rfl (by decide)⟩
  | drop hphase => exact ⟨_, rfl, alongTable_of_mem hphase (p' := .idle) rfl (by decide)⟩

theorem HardwiredMove.phase (hm : HardwiredMove s t) : t.phase = s.phase ∨ (s.phase, t.phase) ∈ phaseMoves := by
  cases hm with
  | worker w k hk hm =>
    obtain ⟨-, hp, -⟩ := hm.sameStatus
    exact .inl hp
  | control hw hm => exact hm.mem_phaseMoves

theorem HardwiredMove.workers (hm : HardwiredMove s t) {v : Nat} {k l : Worker} (hk : s.workers[v]? = some k)
    (hl : t.workers[v]? = some l) : AlongTable k l := by
  cases hm with
  | worker w k' hk' hm =>
    obtain ⟨l', ht, hl'⟩ := hm.alongTable
    rw [ht] at hl
    obtain ⟨rfl, rfl⟩ | ⟨-, hl⟩ := set_cases hl
    · cases hk.symm.trans hk'
      exact hl'
    · cases hk.symm.trans hl
      exact .inl rfl
  | control hw hm =>
    rw [hw] at hl
    cases hk.symm.trans hl
    exact .inl rfl

end

/-! ## The statements -/

/-- No step, the reset included, changes the parameters or the number of workers, and a step only takes events away. -/
theorem step_frame {s t : State} (h : step s = .next t) :
    t.params = s.params ∧ t.workers.length = s.workers.length ∧ (t.events = s.events.tail ∨ t.events = s.events) := by
  obtain ⟨-, rfl⟩ | ⟨c, -, h⟩ | ⟨a, n, -, h⟩ | rfl := step_cases h
  · exact ⟨rfl, List.length_replicate, .inl rfl⟩
  · obtain ⟨i, -, h⟩ := runCommand_eq_next h
    obtain ⟨hp, he, hc, -, -⟩ := exec_conserves_wf i t h
    exact ⟨hp, hc, .inl he⟩
  · obtain ⟨hp, he, hc, -, -⟩ := takeTurn_conserves inherited_wf a t h
    exact ⟨hp, hc, .inl he⟩
  · exact ⟨rfl, rfl, .inr rfl⟩

/-- Settles O58: what is still presented comes from outside, and every move keeps the flags agreeing, as the reset does. -/
theorem stepKeepsTheFlagsAgreeing : Obligations.StepKeepsTheFlagsAgreeing := by
  unfold Obligations.StepKeepsTheFlagsAgreeing
  refine fun s t hw hf h => ⟨fun e he => ?hardwired, ?flags⟩
  case hardwired =>
    obtain ⟨-, -, htail | hsame⟩ := step_frame h
    · exact hw e (List.mem_of_mem_tail (htail ▸ he))
    · exact hw e (hsame ▸ he)
  case flags =>
    obtain ⟨-, rfl⟩ | ⟨es, n, hm⟩ := step_status hw hf h
    · exact flagsAgree_externalReset _
    · exact flagsAgree_of_move (s := { s with events := es, turns := n }) hf hm

/-- Settles O8: every move lies in its table, and the frame is that of every step. -/
theorem phasesMoveOnlyAlongTheirTables : Obligations.PhasesMoveOnlyAlongTheirTables := by
  unfold Obligations.PhasesMoveOnlyAlongTheirTables
  intro s t hw hf h
  obtain ⟨hparams, hcount, -⟩ := step_frame h
  refine ⟨?_, hparams, hcount⟩
  obtain ⟨he, -⟩ | ⟨es, n, hm⟩ := step_status hw hf h
  · exact .inl he
  · exact .inr ⟨hm.phase, fun w k l hk hl => hm.workers hk hl⟩

end Sys2Proof.Proofs
end

section
/-! What the host reads (R40 to R48, R282), the job it starts with four writes (R101), and the state after reset
(R56). -/

namespace Sys2Proof.Proofs

open Sys2Proof.Machine Sys2Proof.Laws

/-! ## The fields of `STATUS` (R45) and of `CTRL` (R43) -/

theorem extractLsb'_eq_of_div_mod {n start len : Nat} {v : BitVec n} {x : BitVec len}
    (h : v.toNat / 2 ^ start % 2 ^ len = x.toNat) : v.extractLsb' start len = x := by
  refine BitVec.eq_of_toNat_eq ?_
  rw [BitVec.extractLsb'_toNat, Nat.shiftRight_eq_div_pow, h]

theorem getLsbD_eq_of_div_mod {n i : Nat} {v : BitVec n} {b : Bool} (h : v.toNat / 2 ^ i % 2 = b.toNat) :
    v.getLsbD i = b := by
  rw [BitVec.getLsbD, Nat.testBit_eq_decide_div_mod_eq, h]
  cases b <;> rfl

section
variable {s : State} {p : Nat} (hp : p < 16)
include hp

theorem statusShowing_toNat : (s.statusShowing p).toNat =
    s.busy.toNat + 2 * s.done.toNat + 4 * s.err.toNat + 8 * s.errcode.toNat + 256 * p := by
  have hb := s.busy.toNat_lt
  have hd := s.done.toNat_lt
  have he := s.err.toNat_lt
  rw [State.statusShowing, BitVec.toNat_ofNat]
  omega

/-- Each field of `STATUS` is read where R45 puts it. -/
theorem statusShowing_fields : (s.statusShowing p).getLsbD 0 = s.busy ∧ (s.statusShowing p).getLsbD 1 = s.done ∧
    (s.statusShowing p).getLsbD 2 = s.err ∧ (s.statusShowing p).extractLsb' 3 3 = s.errcode ∧
    (s.statusShowing p).extractLsb' 6 2 = 0 ∧ (s.statusShowing p).extractLsb' 12 52 = 0 ∧
    (s.statusShowing p).extractLsb' 8 4 = BitVec.ofNat 4 p := by
  have hv := statusShowing_toNat (s := s) hp
  have hb := s.busy.toNat_lt
  have hd := s.done.toNat_lt
  have he := s.err.toNat_lt
  have hc := s.errcode.isLt
  refine ⟨getLsbD_eq_of_div_mod ?_, getLsbD_eq_of_div_mod ?_, getLsbD_eq_of_div_mod ?_, extractLsb'_eq_of_div_mod ?_,
    extractLsb'_eq_of_div_mod ?_, extractLsb'_eq_of_div_mod ?_, extractLsb'_eq_of_div_mod ?_⟩ <;> rw [hv]
  case refine_5 | refine_6 => change _ = 0; omega
  case refine_7 => rw [BitVec.toNat_ofNat]; omega
  all_goals omega

end

theorem ctrlValue_fields (go : Bool) (mode : BitVec 2) : ctrlGo (ctrlValue go mode) = go ∧
    ctrlModeField (ctrlValue go mode) = mode ∧ (ctrlValue go mode).extractLsb' 3 61 = 0 := by
  revert go mode
  decide

theorem phase_code_le (p : Phase) : p.code ≤ 8 := by cases p <;> decide

theorem phase_code_pos {p : Phase} (h : p ≠ .idle) : 0 < p.code := by
  cases p with
  | idle => exact absurd rfl h
  | check | config | oracle | template | parallel | join | done | failed => decide

theorem phaseShown_le (s : State) (pick : Nat) : s.phaseShown pick ≤ s.phase.code := by
  unfold State.phaseShown
  split
  · next h => have := Nat.mod_lt pick h.2; omega
  · exact Nat.le_refl _

/-- The phase code shown while not `BUSY`, and while `BUSY` in a phase of a job. -/
theorem phaseShown_toNat_spec (s : State) (pick : Nat) :
    (s.busy = false → (BitVec.ofNat 4 (s.phaseShown pick)).toNat = s.phase.code) ∧
    (s.busy = true → s.phase ≠ .idle → 1 ≤ (BitVec.ofNat 4 (s.phaseShown pick)).toNat ∧
      (BitVec.ofNat 4 (s.phaseShown pick)).toNat ≤ s.phase.code) := by
  have hle := phase_code_le s.phase
  have hshown := phaseShown_le s pick
  obtain ⟨hidle, hbusy⟩ := phaseShown_spec s pick
  rw [BitVec.toNat_ofNat, Nat.mod_eq_of_lt (by omega)]
  exact ⟨hidle, fun hb hp => hbusy hb (phase_code_pos hp)⟩

/-! ## `HOST.RD` (R282) -/

theorem exists_goMode {i : Instr} (h : i ∈ [Instr.sieveCount, .sieveSum, .sievePrint, .sieveRsvd]) :
    ∃ m, (i, m) ∈ [(Instr.sieveCount, 0#2), (.sieveSum, 1#2), (.sievePrint, 2#2), (.sieveRsvd, 3#2)] := by
  simp only [List.mem_cons, List.not_mem_nil, or_false] at h
  obtain rfl | rfl | rfl | rfl := h
  · exact ⟨0, by decide⟩
  · exact ⟨1, by decide⟩
  · exact ⟨2, by decide⟩
  · exact ⟨3, by decide⟩

/-- While `BUSY` no step but the reset changes what the `GO` noted. -/
theorem step_notes {s t : State} (hb : s.busy = true) (he : s.events.head? ≠ some .reset) (h : step s = .next t) :
    t.goTicket = s.goTicket ∧ t.goDispatch = s.goDispatch := by
  obtain ⟨hreset, -⟩ | ⟨c, -, h⟩ | ⟨a, n, -, h⟩ | rfl := step_cases h
  · exact absurd hreset he
  · obtain ⟨i, -, h⟩ := runCommand_eq_next h
    exact (exec_conserves_wf i t h).notes hb
  · exact (takeTurn_conserves inherited_wf a t h).notes hb
  · exact ⟨rfl, rfl⟩

/-- Settles O51: each offset's register, `STATUS` and `CTRL` field by field. -/
theorem hostReadReturnsTheRegister : Obligations.HostReadReturnsTheRegister := by
  unfold Obligations.HostReadReturnsTheRegister
  refine ⟨fun s i hi hb => ?go, fun s t hb he h => step_notes hb he h, fun s => ?reads⟩
  case go =>
    obtain ⟨m, hm⟩ := exists_goMode hi
    exact ⟨s.acceptGo m, by rw [exec_goCommand hm, go_of_not_busy hb], rfl, rfl⟩
  case reads =>
    intro read code counter
    have hread {off : BitVec 7} {v : Word} (h : s.regRead? off = some v) : read off v := exec_hostRd_of_regRead? h
    have hcode : code.toNat = s.phase.code := by
      simp only [code]
      cases s.phase <;> rfl
    have hcounter {off : BitVec 7} {atGo now : Word}
        (h : s.regRead? off = some (s.counterShown atGo now (Config.stale s.reads))) : counter off atGo now := by
      obtain ⟨hexact, hnoted, hpast⟩ := counterShown_spec s atGo now (Config.stale s.reads)
      exact ⟨_, hread h, hexact, hnoted, fun hb _ => hpast hb⟩
    have hshown := (phaseShown_le s (Config.stale s.reads)).trans (phase_code_le s.phase)
    obtain ⟨hbusy, hdone, herr, herrcode, hlow, hhigh, hphase⟩ :=
      statusShowing_fields (s := s) (p := s.phaseShown (Config.stale s.reads)) (by omega)
    obtain ⟨hexact, hpast⟩ := phaseShown_toNat_spec s (Config.stale s.reads)
    obtain ⟨hgo, hmode, hrest⟩ := ctrlValue_fields false s.mode
    refine ⟨hread rfl, hread rfl, ⟨_, hread rfl, hgo, hmode, hrest⟩, hread rfl,
      ⟨_, hread rfl, hbusy, hdone, herr, herrcode, hlow, hhigh, fun hb => ?_, fun hb hp => ?_⟩, hread rfl, hread rfl,
      hread rfl, hread rfl, hcounter rfl, hcounter rfl⟩
    · exact BitVec.eq_of_toNat_eq (by rw [hphase, hexact hb, hcode])
    · rw [hphase, hcode]
      exact hpast hb hp

/-! ## Starting a job (R101, R281) -/

section
variable {s : State}

theorem runCommand_write (off : BitVec 7) (data : Word) (s : State) :
    runCommand (writeCommand off data) s = exec (.hostWr off data) s :=
  runCommand_of_decode (decode_encode (.hostWr off data)) s

theorem runCommand_read (off : BitVec 7) (s : State) : runCommand (readCommand off) s = exec (.hostRd off) s :=
  runCommand_of_decode (decode_encode (.hostRd off)) s

/-- The first command of a list is a write that a block that is not `BUSY` accepts. -/
theorem runCommands_write {off : BitVec 7} (hoff : offsetOk off = true) (hb : s.busy = false) (data : Word)
    (cs : List Command) : runCommands (writeCommand off data :: cs) s = runCommands cs (s.regWrite off data) := by
  rw [runCommands, runCommand_write, exec_hostWr_of_not_busy hoff hb, bind_next]

theorem regWrite_ctrl_go (mode : BitVec 2) (hb : s.busy = false) :
    s.regWrite 0x10 (ctrlValue true mode) = s.acceptGo mode := by
  obtain ⟨hgo, hmode, -⟩ := ctrlValue_fields true mode
  change s.ctrlWrite _ = _
  rw [State.ctrlWrite, hgo, if_pos rfl, hmode, go_of_not_busy hb]

end

/-- Settles O54: the three arguments are stored one after the other, and the fourth write is an accepted `GO`. -/
theorem jobExpansionStartsTheJob : Obligations.JobExpansionStartsTheJob := by
  unfold Obligations.JobExpansionStartsTheJob
  refine fun s mode start stop width => ⟨fun hb => ?job, runCommand_read _ s, runCommand_read _ s⟩
  case job =>
    have hb1 : (s.regWrite 0x00 start).busy = false := hb
    have hb2 : ((s.regWrite 0x00 start).regWrite 0x08 stop).busy = false := hb
    have hb3 : (((s.regWrite 0x00 start).regWrite 0x08 stop).regWrite 0x18 width).busy = false := hb
    rw [jobCommands, runCommands_write (by decide) hb, runCommands_write (by decide) hb1,
      runCommands_write (by decide) hb2, runCommands_write (by decide) hb3, regWrite_ctrl_go mode hb3]
    rfl

/-! ## The state after reset (R56) -/

/-- Settles O56: the state after reset is one the external reset leaves. -/
theorem resetMeetsTheInvariants : Obligations.ResetMeetsTheInvariants := by
  unfold Obligations.ResetMeetsTheInvariants
  intro p nw
  have hself := externalReset_resetOf p nw
  have hsafe : (State.resetOf p nw).gateSafe := hself ▸ gateSafe_reset _
  have hidle : ∀ k ∈ (State.resetOf p nw).workers, k.wphase = .idle := hsafe.idleOutside nofun
  obtain ⟨⟨hspt, hspt0⟩, ⟨hpst, hpst0⟩, hsb⟩ :=
    hself ▸ everyBitset_externalReset inherited_zeroClear (State.resetOf p nw)
  refine ⟨⟨hspt, hpst, fun k hk => (hsb k hk).1⟩, nofun, hself ▸ flagsAgree_externalReset _, hsafe,
    ⟨hspt0, hpst0, fun k hk => (hsb k hk).2⟩, streamed_of_rest (by simp [Phase.counting, State.resetOf]) hidle⟩

end Sys2Proof.Proofs
end

section
/-! What is refused by name (R49, R62, R333; notes/assumptions/12): each access to what the block does not have, and
each operation that makes one. -/

namespace Sys2Proof.Proofs

open Sys2Proof.Machine Sys2Proof.Laws

/-! ## Positions and lengths -/

section
variable {X : Bitset} {p : Nat}

theorem bitRead_of_ge (h : X.n.toNat ≤ p) : X.bitRead p = .refused .outsideBitset := if_neg (Nat.not_lt.mpr h)

theorem bitWrite_of_ge (h : X.n.toNat ≤ p) (x : Bool) : X.bitWrite p x = .refused .outsideBitset :=
  if_neg (Nat.not_lt.mpr h)

theorem memWrite_of_ge {b : Nat} (h : bytesFor X.n.toNat ≤ b) (v : Byte) : X.memWrite b v = .refused .outsideBitset :=
  if_neg (Nat.not_lt.mpr h)

theorem fill_of_outside {cap n : Nat} (h : n = 0 ∨ cap < n) : Bitset.fill cap n = .refused .lengthOutsideCapacity :=
  if_neg (by omega)

theorem copy_of_gt {cap : Nat} (h : cap < X.n.toNat) : Bitset.copy cap X = .refused .lengthOutsideCapacity :=
  if_neg (Nat.not_le.mpr h)

/-- A write ends or is refused for its position. -/
theorem bitWrite_cases (X : Bitset) (p : Nat) (x : Bool) :
    (∃ Y, X.bitWrite p x = .next Y) ∨ X.bitWrite p x = .refused .outsideBitset := by
  rcases Nat.lt_or_ge p X.n.toNat with h | h
  · exact .inl (bitWrite_of_lt h)
  · exact .inr (bitWrite_of_ge h x)

/-! ## Loops that reach a position beyond the bitset -/

theorem clearFrom_of_ge {k lo : Nat} (hk : 1 ≤ k) (h : X.n.toNat < lo + k) :
    Bitset.clearFrom k X lo = .refused .outsideBitset := by
  induction k generalizing X lo with
  | zero => omega
  | succ k ih =>
    rw [Bitset.clearFrom]
    rcases Nat.lt_or_ge lo X.n.toNat with hlo | hlo
    · obtain ⟨Y, hY⟩ := bitWrite_of_lt (x := false) hlo
      rw [hY, bind_next]
      exact ih (by omega) (by rw [bitWrite_n hY]; omega)
    · rw [bitWrite_of_ge hlo, bind_refused]

theorem clearRange_of_ge {lo hi : Nat} (hle : lo ≤ hi) (h : X.n.toNat ≤ hi) :
    X.clearRange lo hi = .refused .outsideBitset :=
  clearFrom_of_ge (by omega) (by omega)

theorem sumFrom_of_ge {nOff : Word} {t L acc : Nat} (ht : 1 ≤ t) (h : X.n.toNat < L + t) :
    sumFrom nOff X t L acc = .refused .outsideBitset := by
  induction t generalizing L acc with
  | zero => omega
  | succ t ih =>
    rw [sumFrom]
    rcases Nat.lt_or_ge L X.n.toNat with hL | hL
    · rw [bitRead_of_lt hL, bind_next]
      exact ih (by omega) (by omega)
    · rw [bitRead_of_ge hL, bind_refused]

theorem printFrom_of_ge {nOff : Word} {t L : Nat} {text : List Byte} (ht : 1 ≤ t) (h : X.n.toNat < L + t) :
    printFrom nOff X t L text = .refused .outsideBitset := by
  induction t generalizing L text with
  | zero => omega
  | succ t ih =>
    rw [printFrom]
    rcases Nat.lt_or_ge L X.n.toNat with hL | hL
    · rw [bitRead_of_lt hL, bind_next]
      exact ih (by omega) (by omega)
    · rw [bitRead_of_ge hL, bind_refused]

/-- A marking whose first position the bitset does not have. -/
theorem mark_of_outside {m : Marker} {joff mx : Nat} (h : m.j.toNat < joff ∨
    (joff ≤ m.j.toNat ∧ m.j.toNat - joff ≤ mx ∧ X.n.toNat ≤ m.j.toNat - joff)) :
    m.mark X joff mx = .refused .outsideBitset := by
  rw [Marker.mark, markTurns, Marker.markLoop]
  obtain hlow | ⟨hge, hin, hout⟩ := h
  · rw [if_pos hlow]
  · rw [if_neg (Nat.not_lt.mpr hge), if_pos hin, bitWrite_of_ge hout, bind_refused]

theorem clipBelow_cases (k : Worker) (js : Word) (p d : Nat) (X : Bitset) :
    (∃ Y, clipBelow k js p d X = .next Y) ∨ clipBelow k js p d X = .refused .outsideBitset := by
  unfold clipBelow
  split
  · exact bitWrite_cases X p false
  · exact .inl ⟨X, rfl⟩

theorem clipLow_cases (k : Worker) (js : Word) (X : Bitset) :
    (∃ Y, clipLow k js X = .next Y) ∨ clipLow k js X = .refused .outsideBitset := by
  unfold clipLow
  split
  · obtain ⟨Y, hY⟩ | hY := clipBelow_cases k js 1 5 X
    · rw [hY, bind_next]
      exact clipBelow_cases k js 2 7 Y
    · exact .inr (by rw [hY, bind_refused])
  · exact .inl ⟨X, rfl⟩

theorem clipHigh_of_ge {k : Worker} {numSegments mtpl : Word} (hlast : k.segN.toNat + 1 = numSegments.toNat)
    (hle : k.mseg.toNat + 1 ≤ mtpl.toNat) (h : X.n.toNat ≤ mtpl.toNat) :
    clipHigh k numSegments mtpl X = .refused .outsideBitset := by
  rw [clipHigh, if_pos (by omega), clearRange_of_ge hle h]

theorem oracleTest_of_ge {qtab i : Nat} (hi : i ≤ qtab) (h : X.n.toNat ≤ i) :
    oracleTest qtab X i = .refused .outsideBitset := by
  rw [oracleTest, if_pos hi, bitRead_of_ge h]

end

/-! ## Operations of one worker -/

section
variable {s : State} {w : Nat} {k : Worker} (hk : s.workers[w]? = some k)
include hk

theorem exec_segCopy_of_gt (h : s.params.segCapBits < s.pst.n.toNat) :
    exec (.segCopy w) s = .refused .lengthOutsideCapacity := by
  change execSegCopy w s = _
  rw [execSegCopy, withWorker_of_some hk, copy_of_gt h, bind_refused]

theorem exec_segClip_of_ge (hlast : k.segN.toNat + 1 = s.numSegments.toNat) (hle : k.mseg.toNat + 1 ≤ s.mtpl.toNat)
    (h : k.sb.n.toNat ≤ s.mtpl.toNat) : exec (.segClip w) s = .refused .outsideBitset := by
  change execSegClip w s = _
  rw [execSegClip, withWorker_of_some hk]
  obtain ⟨Y, hY⟩ | hY := clipLow_cases k s.jStart k.sb
  · obtain ⟨hn, -⟩ := clipLow_keeps hY
    rw [hY, bind_next, clipHigh_of_ge hlast hle (by rwa [hn]), bind_refused]
  · rw [hY, bind_refused]

theorem exec_segSieve_of_ge (hq : s.ri.toNat ≤ k.q.toNat) (hi : s.ri.toNat ≤ s.qtab.toNat)
    (h : s.spt.n.toNat ≤ s.ri.toNat) : exec (.segSieve w) s = .refused .outsideBitset := by
  obtain ⟨t, ht⟩ : ∃ t, k.q.toNat + 1 - s.ri.toNat = t + 1 := ⟨k.q.toNat - s.ri.toNat, by omega⟩
  change execSegSieve w s = _
  simp only [execSegSieve, withWorker_of_some hk, Marker.load, ht, sieveLoop, if_pos hq, oracleTest_of_ge hi h,
    bind_refused]

theorem exec_aggSum_of_ge (h1 : 1 ≤ k.mseg.toNat) (h : k.sb.n.toNat ≤ k.mseg.toNat) :
    exec (.aggSum w) s = .refused .outsideBitset := by
  change execAggSum w s = _
  rw [execAggSum, withWorker_of_some hk, sumFrom_of_ge h1 (by omega), bind_refused]

theorem exec_aggPrint_of_ge (h1 : 1 ≤ k.mseg.toNat) (h : k.sb.n.toNat ≤ k.mseg.toNat) :
    exec (.aggPrint w) s = .refused .outsideBitset := by
  change execAggPrint w s = _
  simp only [execAggPrint, withWorker_of_some hk, printFrom_of_ge h1 (show k.sb.n.toNat < 1 + k.mseg.toNat by omega),
    bind_refused]

end

/-! ## Tables whose length does not fit -/

theorem exec_orcTest_of_ge {s : State} {i : Word} (hi : i.toNat ≤ s.qtab.toNat) (h : s.spt.n.toNat ≤ i.toNat) :
    exec (.orcTest i) s = .refused .outsideBitset := by
  change execOrcTest i s = _
  rw [execOrcTest, oracleTest_of_ge hi h, bind_refused]

theorem exec_orcBuild_of_gt {s : State} (h : s.params.sptCapBits < s.qtab.toNat + 2) :
    exec .orcBuild s = .refused .lengthOutsideCapacity := by
  change execOrcBuild s = _
  simp only [execOrcBuild, fill_of_outside (.inr h), bind_refused]

theorem exec_tplBuild_of_gt {s : State} (h : s.params.segCapBits < s.mtpl.toNat + 1) :
    exec .tplBuild s = .refused .lengthOutsideCapacity := by
  change execTplBuild s = _
  simp only [execTplBuild, fill_of_outside (.inr h), bind_refused]

/-! ## A worker the block does not have (R333) -/

section
variable {s : State} {w : Nat} (hw : s.workers.length ≤ w)
include hw

theorem withWorker_of_ge (f : Worker → Res State) : s.withWorker w f = .refused (.noSuchWorker w) := by
  rw [State.withWorker, List.getElem?_eq_none hw]

theorem withBitset_of_ge (f : Bitset → Res State) : s.withBitset (.sb w) f = .refused (.noSuchWorker w) := by
  rw [State.withBitset, State.bitset?, List.getElem?_eq_none hw]
  rfl

theorem withMarker_of_ge (f : Marker → Res State) : s.withMarker (.m w) f = .refused (.noSuchWorker w) := by
  rw [State.withMarker, State.marker?, List.getElem?_eq_none hw]
  rfl

theorem exec_wcDec_of_ge (i : Word) : exec (.wcDec (.segment w) i) s = .refused (.noSuchWorker w) := by
  change execWcDec (.segment w) i s = _
  rw [execWcDec, State.baseOffset?, List.getElem?_eq_none hw]
  rfl

theorem exec_workerOperation_of_ge {i : Instr} (hi : i ∈ workerOperations w) :
    exec i s = .refused (.noSuchWorker w) := by
  revert i
  simp only [workerOperations, List.forall_mem_cons, List.not_mem_nil, false_imp_iff, implies_true, and_true]
  exact ⟨withBitset_of_ge hw _, withMarker_of_ge hw _, withMarker_of_ge hw _, withMarker_of_ge hw _,
    withWorker_of_ge hw _, withWorker_of_ge hw _, withWorker_of_ge hw _, withWorker_of_ge hw _, withWorker_of_ge hw _,
    withWorker_of_ge hw _, withWorker_of_ge hw _, withWorker_of_ge hw _, withWorker_of_ge hw _, withWorker_of_ge hw _,
    withWorker_of_ge hw _, withWorker_of_ge hw _, withWorker_of_ge hw _, withWorker_of_ge hw _⟩

end

/-! ## Registers outside the interface (R49) -/

theorem regRead?_of_outside {off : BitVec 7} (h : off.toNat % 8 ≠ 0 ∨ 0x50 < off.toNat) (s : State) :
    s.regRead? off = none := by
  unfold State.regRead?
  split
  case h_12 => rfl
  all_goals omega

theorem exec_hostRd_of_outside {off : BitVec 7} (h : off.toNat % 8 ≠ 0 ∨ 0x50 < off.toNat) (s : State) :
    exec (.hostRd off) s = .refused (.outsideInterface off) := by
  change execHostRd off s = _
  rw [execHostRd, regRead?_of_outside h]

theorem exec_hostWr_of_outside {off : BitVec 7} (h : off.toNat % 8 ≠ 0 ∨ 0x50 < off.toNat) (data : Word) (s : State) :
    exec (.hostWr off data) s = .refused (.outsideInterface off) := by
  have hoff : ¬ offsetOk off = true := fun hok => by
    obtain ⟨hmod, hle⟩ := (offsetOk_iff off).mp hok
    omega
  exact if_neg hoff

/-! ## The statement -/

/-- Settles O14: each part by the lemma of its access. -/
theorem accessesOutsideAreRefused : Obligations.AccessesOutsideAreRefused := by
  unfold Obligations.AccessesOutsideAreRefused
  refine ⟨fun s X B hB => ⟨fun p hp => ⟨?get, ?set, ?clr⟩, fun b v hb => ?putb, fun lo hi hle hhi => ?clrr,
      fun n hn => ?fill, fun Y A hA hcap => ?copy, fun M m joff mx hM h => ?mark⟩,
    fun s => ⟨fun _ => exec_orcTest_of_ge, exec_orcBuild_of_gt, exec_tplBuild_of_gt⟩,
    fun s w k hk => ⟨exec_segCopy_of_gt hk, exec_segClip_of_ge hk, exec_segSieve_of_ge hk,
      fun h1 h => ⟨exec_aggSum_of_ge hk h1 h, exec_aggPrint_of_ge hk h1 h⟩⟩,
    fun s w hw => ⟨fun _ => exec_workerOperation_of_ge hw, fun n p lo hi b i joff v c => ?operands,
      fun Y => withBitset_of_ge hw _, fun X B hB => ?copySource, fun X joff mx => withMarker_of_ge hw _,
      fun M m joff mx hM => ?markTarget⟩,
    fun s off data h => ⟨exec_hostRd_of_outside h s, exec_hostWr_of_outside h data s⟩⟩
  case get =>
    change execBsGet X p s = _
    rw [execBsGet, withBitset_of_some hB, bitRead_of_ge hp, bind_refused]
  case set => rw [exec_bsSet_of_bitset hB, bitWrite_of_ge hp, bind_refused]
  case clr => rw [exec_bsClr_of_bitset hB, bitWrite_of_ge hp, bind_refused]
  case putb => rw [exec_bsPutb_of_bitset hB, memWrite_of_ge hb, bind_refused]
  case clrr => rw [exec_bsClrr_of_bitset hB, clearRange_of_ge hle hhi, bind_refused]
  case fill =>
    have hlen : n.toNat = 0 ∨ s.capacity X < n.toNat := hn.imp_left fun h => by rw [h]; rfl
    change execBsFill X n s = _
    rw [execBsFill, withBitset_of_some hB, fill_of_outside hlen, bind_refused]
  case copy => rw [exec_bsCopy_of_bitsets hA hB, copy_of_gt hcap, bind_refused]
  case mark => rw [exec_wmMark_of_operands hM hB, mark_of_outside h, bind_refused]
  case operands =>
    simp only [List.forall_mem_cons, List.not_mem_nil, false_imp_iff, implies_true, and_true]
    exact ⟨withBitset_of_ge hw _, withBitset_of_ge hw _, withBitset_of_ge hw _, withBitset_of_ge hw _,
      withBitset_of_ge hw _, withBitset_of_ge hw _, exec_wcDec_of_ge hw i, withMarker_of_ge hw _, withWorker_of_ge hw _⟩
  case copySource => exact (withBitset_of_some hB _).trans (withBitset_of_ge hw _)
  case markTarget => exact (withMarker_of_some hM _).trans (withBitset_of_ge hw _)

end Sys2Proof.Proofs
end
